-- ==== Sys2Proof/Word.lean ====
section
/-! DEFINITION. The word types of the block: what the spec calls bits is a bit vector (00_scope.md R6, R7),
and a register number is an index below eight (10_state.md R21). -/

namespace Sys2Proof

/-- One 32-bit word of the bus, and one command word (20_memory.md R50, 30_encoding.md R70). -/
abbrev Word := BitVec 32

/-- One 256-bit value of a data register or of the constant ROM (10_state.md R21, R27). -/
abbrev Value := BitVec 256

/-- The word address `A[11:2]` of the 4 KiB window; the byte offset is `A ‖ 00` (20_memory.md R50). -/
abbrev WordAddr := BitVec 10

/-- The number of a data register, 0 to 7 (10_state.md R21). -/
abbrev Reg := Fin 8

/-- The number of a 32-bit word within a 256-bit value, 0 the most significant (20_memory.md R52). -/
abbrev WordIndex := Fin 8

/-- The contents of D0 to D7, or of their snapshot (10_state.md R21, R28). -/
abbrev RegFile := Vector Value 8

end Sys2Proof
end

