-- ==== Sys2Proof/Config.lean ====
section
/-! DEFINITION. What is fixed for the machine: the domain parameters and the other read-only constants
(00_scope.md R2, R3; 10_state.md R23, R27), and the one open parameter the platform chooses (BASE, 20_memory.md R50).
The numeric values of p, n and G are `[from general knowledge, not in source]` in the spec itself: log 12. -/

namespace Sys2Proof.Config

/-- The field prime p = 2^256 − 2^32 − 977 (00_scope.md R3). -/
def p : Nat := 0xFFFFFFFFFFFFFFFFFFFFFFFFFFFFFFFFFFFFFFFFFFFFFFFFFFFFFFFEFFFFFC2F

/-- The group order n (00_scope.md R3). -/
def n : Nat := 0xFFFFFFFFFFFFFFFFFFFFFFFFFFFFFFFEBAAEDCE6AF48A03BBFD25E8CD0364141

/-- The x coordinate of the generator G (00_scope.md R3). -/
def gx : Nat := 0x79BE667EF9DCBBAC55A06295CE870B07029BFCDB2DCE28D959F2815B16F81798

/-- The y coordinate of the generator G (00_scope.md R3). -/
def gy : Nat := 0x483ADA7726A3C4655DA4FBFC0E1108A8FD17B448A68554199C47D08FFB10D4B8

/-- The curve coefficient a (00_scope.md R2, R3). -/
def a : Nat := 0

/-- The curve coefficient b (00_scope.md R2, R3). -/
def b : Nat := 7

/-- The Montgomery radix R_M (00_scope.md R8, 40_field.md R104). -/
def montRadix : Nat := 2 ^ 256

/-- The ROM constant R2P, 2^512 mod p, as the spec writes it out (10_state.md R27). -/
def r2p : Nat := 0x000000000000000000000000000000000000000000000001000007A2000E90A1

/-- The ROM constant R2N, 2^512 mod n, as the spec writes it out (10_state.md R27). -/
def r2n : Nat := 0x9D671CD581C69BC5E697F5E45BCD07C6741496C20E7CF878896CF21467D7D140

/-- The constant the ID register reads (10_state.md R23). -/
def idWord : Word := 0x4D4D0001#32

/-- Which 4 KiB frame of the platform's address space the window stands in. OPEN (00_scope.md R6,
20_memory.md R50): no body, so nothing can be proved about the frame. Log 13. -/
opaque baseFrame : Nat

/-- The platform base address BASE of the window, 4 KiB aligned (92_eei_decisions.md, open parameters). Log 13. -/
def base : Nat := 4096 * baseFrame

end Sys2Proof.Config
end

