-- ==== Sys2Proof/Syntax.lean ====
section
/-! DEFINITION. The commands as syntax: one constructor for every row of the opcode table
(30_encoding.md R74), with the operand fields that row leaves free (R71 to R73). -/

namespace Sys2Proof

/-- The modulus a field command works with: bit M of the command word, 0 for p and 1 for n (30_encoding.md R72). -/
inductive Modulus where
  | p
  | n
  deriving DecidableEq, Repr

/-- One command. `rd`, `rs1`, `rs2` are the register fields RD, RS1 and RS2; a field that names a point is the
number of the even register of its pair (30_encoding.md R73), which WellFormed checks. -/
inductive Instr where
  /-- FADD: modular addition (40_field.md R101). -/
  | fadd (m : Modulus) (rd rs1 rs2 : Reg)
  /-- FSUB: modular subtraction (40_field.md R102). -/
  | fsub (m : Modulus) (rd rs1 rs2 : Reg)
  /-- FMUL: modular multiplication (40_field.md R103). -/
  | fmul (m : Modulus) (rd rs1 rs2 : Reg)
  /-- MMUL: Montgomery product (40_field.md R104). -/
  | mmul (m : Modulus) (rd rs1 rs2 : Reg)
  /-- FPOW: modular exponentiation, base RS1 and exponent RS2 (40_field.md R105). -/
  | fpow (m : Modulus) (rd rs1 rs2 : Reg)
  /-- FINV: modular inverse (40_field.md R106). -/
  | finv (m : Modulus) (rd rs1 : Reg)
  /-- FSQRT: square root modulo p (40_field.md R107). -/
  | fsqrt (rd rs1 : Reg)
  /-- PDBL: point doubling (41_curve.md R131). -/
  | pdbl (rd rs1 : Reg)
  /-- PADD: point addition (41_curve.md R132). -/
  | padd (rd rs1 rs2 : Reg)
  /-- PNEG: point negation (41_curve.md R133). -/
  | pneg (rd rs1 : Reg)
  /-- PMUL with G = 0: scalar multiplication of PAIR(RS1) by D[RS2] (41_curve.md R134). -/
  | pmul (rd rs1 rs2 : Reg)
  /-- PMUL with G = 1: scalar multiplication of the generator by D[RS2] (41_curve.md R134). -/
  | pmulG (rd rs2 : Reg)
  /-- PDEC: point decompression of x = D[RS1] with the prefix byte IMM8 (42_codec.md R160). -/
  | pdec (rd rs1 : Reg) (pfx : BitVec 8)
  /-- SIGN: ECDSA signing on fixed registers (43_ecdsa.md R170). -/
  | sign
  /-- VERIFY: ECDSA verification on fixed registers (43_ecdsa.md R172). -/
  | verify
  deriving DecidableEq, Repr

end Sys2Proof
end

