-- ==== Sys2Proof/WellFormed.lean ====
section
/-! DEFINITION. Which terms of Instr the encoding admits: a field that names a point names an even register
(10_state.md R22, 30_encoding.md R73, R75). Scalar fields, the modulus and the prefix byte admit every value. -/

namespace Sys2Proof

/-- The register is the base of a pair: it is one of 0, 2, 4, 6 (10_state.md R22). -/
def Reg.isPair (r : Reg) : Bool := r.val % 2 == 0

/-- Every point field of the command names an even register (30_encoding.md R73, R75). -/
def Instr.wf : Instr → Bool
  | .fadd _ _ _ _ => true
  | .fsub _ _ _ _ => true
  | .fmul _ _ _ _ => true
  | .mmul _ _ _ _ => true
  | .fpow _ _ _ _ => true
  | .finv _ _ _ => true
  | .fsqrt _ _ => true
  | .pdbl rd rs1 => rd.isPair && rs1.isPair
  | .padd rd rs1 rs2 => rd.isPair && rs1.isPair && rs2.isPair
  | .pneg rd rs1 => rd.isPair && rs1.isPair
  | .pmul rd rs1 _ => rd.isPair && rs1.isPair
  | .pmulG rd _ => rd.isPair
  | .pdec rd _ _ => rd.isPair
  | .sign => true
  | .verify => true

end Sys2Proof
end

