-- ==== Sys2Proof/Decode.lean ====
section
/-! DEFINITION. The command word: its fields, the opcode table as rows of mask and pattern, legality, the decoder,
total on every 32-bit word and rejecting by name, and the encoder (30_encoding.md R70 to R76). -/

namespace Sys2Proof

/-! ### Fields (30_encoding.md R70, R71) -/

/-- OPC = w[7:0]. -/
def opcOf (w : Word) : BitVec 8 := w.extractLsb' 0 8

/-- M = w[8]. -/
def mBitOf (w : Word) : Bool := w.getLsbD 8

/-- G = w[9]. -/
def gBitOf (w : Word) : Bool := w.getLsbD 9

/-- A three-bit register field whose lowest bit is bit `lo` of the word. -/
def regAt (lo : Nat) (w : Word) : Reg := (w.extractLsb' lo 3).toFin

/-- RD = w[14:12]. -/
def rdOf (w : Word) : Reg := regAt 12 w

/-- RS1 = w[18:16]. -/
def rs1Of (w : Word) : Reg := regAt 16 w

/-- RS2 = w[22:20]. -/
def rs2Of (w : Word) : Reg := regAt 20 w

/-- IMM8 = w[31:24]. -/
def imm8Of (w : Word) : BitVec 8 := w.extractLsb' 24 8

/-- The modulus bit M selects: 0 is p, 1 is n (30_encoding.md R72). -/
def Modulus.ofBit (m : Bool) : Modulus := if m then .n else .p

/-- The bit M that selects the modulus (30_encoding.md R72). -/
def Modulus.bit : Modulus → BitVec 1
  | .p => 0#1
  | .n => 1#1

/-- The modulus a command word selects (30_encoding.md R72). -/
def modOf (w : Word) : Modulus := Modulus.ofBit (mBitOf w)

/-! ### The opcode table (30_encoding.md R74) -/

/-- The rows of the opcode map, in the table's order. -/
inductive Op where
  | fadd | fsub | fmul | mmul | fpow | finv | fsqrt
  | pdbl | padd | pneg | pmul | pmulG | pdec
  | sign | verify
  deriving DecidableEq, Repr

/-- All rows, in the table's order. -/
def Op.all : List Op :=
  [.fadd, .fsub, .fmul, .mmul, .fpow, .finv, .fsqrt,
   .pdbl, .padd, .pneg, .pmul, .pmulG, .pdec, .sign, .verify]

/-- The column "match" of the table. -/
def Op.pattern : Op → Word
  | .fadd => 0x00000010#32
  | .fsub => 0x00000011#32
  | .fmul => 0x00000012#32
  | .mmul => 0x00000013#32
  | .fpow => 0x00000014#32
  | .finv => 0x00000015#32
  | .fsqrt => 0x00000016#32
  | .pdbl => 0x00000020#32
  | .padd => 0x00000021#32
  | .pneg => 0x00000022#32
  | .pmul => 0x00000023#32
  | .pmulG => 0x00000223#32
  | .pdec => 0x00000024#32
  | .sign => 0x00000030#32
  | .verify => 0x00000031#32

/-- The column "mask" of the table. -/
def Op.mask : Op → Word
  | .fadd => 0xFF888EFF#32
  | .fsub => 0xFF888EFF#32
  | .fmul => 0xFF888EFF#32
  | .mmul => 0xFF888EFF#32
  | .fpow => 0xFF888EFF#32
  | .finv => 0xFFF88EFF#32
  | .fsqrt => 0xFFF88FFF#32
  | .pdbl => 0xFFF99FFF#32
  | .padd => 0xFF999FFF#32
  | .pneg => 0xFFF99FFF#32
  | .pmul => 0xFF899FFF#32
  | .pmulG => 0xFF8F9FFF#32
  | .pdec => 0x00F89FFF#32
  | .sign => 0xFFFFFFFF#32
  | .verify => 0xFFFFFFFF#32

/-- The word matches the row: `w & mask = match` (30_encoding.md R74). -/
def Op.matchesWord (o : Op) (w : Word) : Bool := w &&& o.mask == o.pattern

/-- The command a word of this row stands for (30_encoding.md R71 to R74). -/
def Op.build (o : Op) (w : Word) : Instr :=
  match o with
  | .fadd => .fadd (modOf w) (rdOf w) (rs1Of w) (rs2Of w)
  | .fsub => .fsub (modOf w) (rdOf w) (rs1Of w) (rs2Of w)
  | .fmul => .fmul (modOf w) (rdOf w) (rs1Of w) (rs2Of w)
  | .mmul => .mmul (modOf w) (rdOf w) (rs1Of w) (rs2Of w)
  | .fpow => .fpow (modOf w) (rdOf w) (rs1Of w) (rs2Of w)
  | .finv => .finv (modOf w) (rdOf w) (rs1Of w)
  | .fsqrt => .fsqrt (rdOf w) (rs1Of w)
  | .pdbl => .pdbl (rdOf w) (rs1Of w)
  | .padd => .padd (rdOf w) (rs1Of w) (rs2Of w)
  | .pneg => .pneg (rdOf w) (rs1Of w)
  | .pmul => .pmul (rdOf w) (rs1Of w) (rs2Of w)
  | .pmulG => .pmulG (rdOf w) (rs2Of w)
  | .pdec => .pdec (rdOf w) (rs1Of w) (imm8Of w)
  | .sign => .sign
  | .verify => .verify

/-- The row of the table a command belongs to. -/
def Instr.op : Instr → Op
  | .fadd _ _ _ _ => .fadd
  | .fsub _ _ _ _ => .fsub
  | .fmul _ _ _ _ => .fmul
  | .mmul _ _ _ _ => .mmul
  | .fpow _ _ _ _ => .fpow
  | .finv _ _ _ => .finv
  | .fsqrt _ _ => .fsqrt
  | .pdbl _ _ => .pdbl
  | .padd _ _ _ => .padd
  | .pneg _ _ => .pneg
  | .pmul _ _ _ => .pmul
  | .pmulG _ _ => .pmulG
  | .pdec _ _ _ => .pdec
  | .sign => .sign
  | .verify => .verify

/-- `Legal(w)`: the word matches some row of the table (30_encoding.md R75). -/
def legal (w : Word) : Bool := Op.all.any (fun o => o.matchesWord w)

/-! ### The decoder -/

/-- Why a word is illegal, after the list of 30_encoding.md R75. The block reports each of them as
ILLEGAL_COMMAND; the names are the model's: log 22. -/
inductive Reject where
  /-- An OPC that is not in the table. -/
  | unassignedOpcode
  /-- A nonzero reserved bit: 10, 11, 15, 19 or 23. -/
  | reservedBit
  /-- M = 1 on FSQRT or on a command with OPC ≥ 0x20. -/
  | modulusBit
  /-- G = 1 on a command other than OPC 0x23. -/
  | generatorBit
  /-- RS1 ≠ 0 with G = 1. -/
  | generatorSource
  /-- A nonzero IMM8 on a command other than PDEC. -/
  | immediate
  /-- A nonzero unused register field. -/
  | unusedField
  /-- An odd register in a point field. -/
  | oddPair
  deriving DecidableEq, Repr

/-- The opcodes of the table (30_encoding.md R74). -/
def opcodes : List (BitVec 8) :=
  [0x10#8, 0x11#8, 0x12#8, 0x13#8, 0x14#8, 0x15#8, 0x16#8,
   0x20#8, 0x21#8, 0x22#8, 0x23#8, 0x24#8, 0x30#8, 0x31#8]

/-- The register fields the command with this opcode leaves unused, as a mask (30_encoding.md R74). RS1 of PMUL's
generator form is not among them: it has a reason of its own. -/
def unusedFields (opc : BitVec 8) : Word :=
  if opc = 0x30#8 ∨ opc = 0x31#8 then 0x00777000#32
  else if opc ∈ [0x15#8, 0x16#8, 0x20#8, 0x22#8, 0x24#8] then 0x00700000#32
  else 0#32

/-- The first reason of 30_encoding.md R75 that applies to an illegal word. -/
def rejectReason (w : Word) : Reject :=
  if opcOf w ∉ opcodes then .unassignedOpcode
  else if w &&& 0x00888C00#32 ≠ 0#32 then .reservedBit
  else if mBitOf w ∧ (opcOf w = 0x16#8 ∨ 0x20#8 ≤ opcOf w) then .modulusBit
  else if gBitOf w ∧ opcOf w ≠ 0x23#8 then .generatorBit
  else if gBitOf w ∧ rs1Of w ≠ 0 then .generatorSource
  else if imm8Of w ≠ 0#8 ∧ opcOf w ≠ 0x24#8 then .immediate
  else if w &&& unusedFields (opcOf w) ≠ 0#32 then .unusedField
  else .oddPair

/-- The command a word stands for, or the reason why it is illegal (30_encoding.md R74, R75). The test reads only
the word. -/
def decode (w : Word) : Except Reject Instr :=
  match Op.all.find? (fun o => o.matchesWord w) with
  | some o => .ok (o.build w)
  | none => .error (rejectReason w)

/-- The command the decoder reads from the low `nbits` bits of `w`, bits above them 0. A command is one word
(30_encoding.md R70), so bit i of the number is bit i of the word. -/
def decodeTableWord (nbits w : Nat) : Option Instr :=
  match decode (BitVec.ofNat 32 (w % 2 ^ nbits)) with
  | .ok i => some i
  | .error _ => none

/-! ### The encoder -/

/-- The three bits of a register field. -/
def Reg.bits (r : Reg) : BitVec 3 := BitVec.ofFin r

/-- Bits 23:0 of a word laid out field by field from the format table of 30_encoding.md R70, most significant field
first. -/
def packLow (rs2 rs1 rd : Reg) (g m : BitVec 1) (opc : BitVec 8) : BitVec 24 :=
  0#1 ++ rs2.bits ++ 0#1 ++ rs1.bits ++ 0#1 ++ rd.bits ++ 0#2 ++ g ++ m ++ opc

/-- A whole word: IMM8 above the other fields (30_encoding.md R70). -/
def packWord (imm8 : BitVec 8) (rs2 rs1 rd : Reg) (g m : BitVec 1) (opc : BitVec 8) : Word :=
  imm8 ++ packLow rs2 rs1 rd g m opc

/-- The word of a command, written from the columns of 30_encoding.md R74. -/
def encode : Instr → Word
  | .fadd m rd rs1 rs2 => packWord 0#8 rs2 rs1 rd 0#1 m.bit 0x10#8
  | .fsub m rd rs1 rs2 => packWord 0#8 rs2 rs1 rd 0#1 m.bit 0x11#8
  | .fmul m rd rs1 rs2 => packWord 0#8 rs2 rs1 rd 0#1 m.bit 0x12#8
  | .mmul m rd rs1 rs2 => packWord 0#8 rs2 rs1 rd 0#1 m.bit 0x13#8
  | .fpow m rd rs1 rs2 => packWord 0#8 rs2 rs1 rd 0#1 m.bit 0x14#8
  | .finv m rd rs1 => packWord 0#8 0 rs1 rd 0#1 m.bit 0x15#8
  | .fsqrt rd rs1 => packWord 0#8 0 rs1 rd 0#1 0#1 0x16#8
  | .pdbl rd rs1 => packWord 0#8 0 rs1 rd 0#1 0#1 0x20#8
  | .padd rd rs1 rs2 => packWord 0#8 rs2 rs1 rd 0#1 0#1 0x21#8
  | .pneg rd rs1 => packWord 0#8 0 rs1 rd 0#1 0#1 0x22#8
  | .pmul rd rs1 rs2 => packWord 0#8 rs2 rs1 rd 0#1 0#1 0x23#8
  | .pmulG rd rs2 => packWord 0#8 rs2 0 rd 1#1 0#1 0x23#8
  | .pdec rd rs1 pfx => packWord pfx 0 rs1 rd 0#1 0#1 0x24#8
  | .sign => packWord 0#8 0 0 0 0#1 0#1 0x30#8
  | .verify => packWord 0#8 0 0 0 0#1 0#1 0x31#8

end Sys2Proof
end

