-- ==== Sys2Proof/Machine/State.lean ====
section
/-! DEFINITION. The state of the block as plain data (10_state.md), the inputs still to come, the reasons a step can
stop, and the state right after reset (10_state.md R31). -/

namespace Sys2Proof.Machine

/-- The error kinds of 60_exceptions.md R191, by name. Their numbers are `ErrCode.code` in Flags.lean. -/
inductive ErrCode where
  /-- 0x0: no error. -/
  | none
  /-- 0x1: FINV; VERIFY (in DIAG). -/
  | notInvertible
  /-- 0x2: FSQRT, PDEC. -/
  | noSquareRoot
  /-- 0x3: PDBL, PADD, PMUL; VERIFY (in DIAG). -/
  | unsupportedInfinity
  /-- 0x4: PDEC. -/
  | malformedEncoding
  /-- 0x5: SIGN. -/
  | noPrivateKey
  /-- 0x6: PMUL, SIGN; VERIFY (in DIAG). -/
  | zeroScalar
  /-- 0x7: reserved, never raised. -/
  | outOfRange
  /-- 0x8: reserved, never raised. -/
  | malformedSignature
  /-- 0x9: reserved, never raised. -/
  | invalidRecoveryFlag
  /-- 0xA: reserved, never raised. -/
  | weakRandomSource
  /-- 0xF: any illegal word, at acceptance. -/
  | illegalCommand
  deriving DecidableEq, Repr

/-- STATUS (10_state.md R25), field by field. Its 32-bit view is `Status.word` in Flags.lean; the reserved bits read
as zero and need no storage (log 9). -/
structure Status where
  /-- Bit 0. -/
  busy : Bool
  /-- Bit 1, write 1 to clear. -/
  done : Bool
  /-- Bit 2. -/
  err : Bool
  /-- Bit 3. -/
  valid : Bool
  /-- Bit 4, write 1 to clear. -/
  werr : Bool
  /-- Bits 11:8. -/
  errcode : BitVec 4
  /-- Bits 13:12. -/
  recid : BitVec 2
  /-- Bits 19:16. -/
  diag : BitVec 4
  deriving DecidableEq, Repr

/-- The engine's phase (10_state.md R28). -/
inductive Phase where
  | idle
  | running
  deriving DecidableEq, Repr

/-- What the outside world can do next: one bus transaction of the host, one turn of the engine (LAT has elapsed for
the command in flight, if there is one), a level driven on `rst_n`, or a loss of power (10_state.md R20,
60_exceptions.md R195, R206, 70_reset_and_hazards.md R220, R225). Log 1, 2. -/
inductive Event where
  /-- The host reads the word at this address. -/
  | read (a : WordAddr)
  /-- The host writes this word to this address. -/
  | write (a : WordAddr) (v : Word)
  /-- The engine's turn: a running command completes. -/
  | engine
  /-- `rst_n` is driven to this level. -/
  | rst (level : Bool)
  /-- Power is removed and comes back. -/
  | powerCycle
  deriving DecidableEq, Repr

/-- The whole state of the block, and the inputs still to come. The constants (ID, the ROM) are in Config; `irq` is
computed from `ie` and `status.done` (60_exceptions.md R196). -/
structure State where
  /-- D0 to D7 (10_state.md R21). -/
  d : RegFile
  /-- CTRL.IE (10_state.md R24), the only bit of CTRL that is stored. -/
  ie : Bool
  /-- STATUS (10_state.md R25). -/
  status : Status
  /-- CMD: the last accepted word (10_state.md R26). -/
  cmd : Word
  /-- Hidden: IDLE or RUNNING (10_state.md R28). -/
  phase : Phase
  /-- Hidden: the command word in flight (10_state.md R28). -/
  pending : Word
  /-- Hidden: D0 to D7 as captured at acceptance (10_state.md R28). -/
  snap : RegFile
  /-- The level of the reset pin `rst_n` as last driven; low is reset (70_reset_and_hazards.md R220). Log 7. -/
  rstN : Bool
  /-- The read-data output, valid only in the step of a read (92_eei_decisions.md D2). Log 6. -/
  rdata : Option Word
  /-- The inputs still to come, the next one first: the model's own field (log 1). -/
  events : List Event
  deriving DecidableEq, Repr

/-- Why the machine stops with a fault. The block itself never does (20_memory.md R57, 60_exceptions.md R190). -/
inductive Fault where
  /-- Raised by `step` alone: the engine's turn comes while it is running a word that does not decode. Acceptance
  starts no such word (10_state.md R26), so no run from reset reaches it. Safe: the model stops. Log 10. -/
  | illegalInFlight
  deriving DecidableEq, Repr

/-- Why an instruction has no meaning in the model. -/
inductive Refusal where
  /-- Raised by an arm of `exec` for an instruction that is not modelled. Safe: the model stops. -/
  | notModelled (mnemonic : String)
  deriving DecidableEq, Repr

/-- All eight registers zero. -/
def zeroRegs : RegFile := Vector.replicate 8 0#256

/-- STATUS = 0x00000000. -/
def Status.zero : Status :=
  { busy := false, done := false, err := false, valid := false, werr := false,
    errcode := 0#4, recid := 0#2, diag := 0#4 }

/-- The state right after reset (10_state.md R31, 70_reset_and_hazards.md R221, R222). `pending` and `snap` have no
value there by the spec: zero is the model's choice (log 4). The pin is released (log 7), no read data is valid
(log 6) and no input is pending (log 1, 3). -/
def State.reset : State :=
  { d := zeroRegs, ie := false, status := Status.zero, cmd := 0#32,
    phase := .idle, pending := 0#32, snap := zeroRegs,
    rstN := true, rdata := none, events := [] }

end Sys2Proof.Machine
end

