-- ==== Sys2Proof/Machine/Flags.lean ====
section
/-! DEFINITION. Everything the spec computes about flags: the error numbers, the 32-bit views of STATUS and CTRL, the
changes of STATUS at acceptance, at completion and by a host write, and the interrupt output (10_state.md R24 to
R26, 60_exceptions.md R191 to R199). The block has no other flags (10_state.md R30). -/

namespace Sys2Proof.Machine

/-- The number of an error kind in ERRCODE and DIAG (60_exceptions.md R191). -/
def ErrCode.code : ErrCode → BitVec 4
  | .none => 0x0#4
  | .notInvertible => 0x1#4
  | .noSquareRoot => 0x2#4
  | .unsupportedInfinity => 0x3#4
  | .malformedEncoding => 0x4#4
  | .noPrivateKey => 0x5#4
  | .zeroScalar => 0x6#4
  | .outOfRange => 0x7#4
  | .malformedSignature => 0x8#4
  | .invalidRecoveryFlag => 0x9#4
  | .weakRandomSource => 0xA#4
  | .illegalCommand => 0xF#4

/-- What a read of STATUS gives: the fields at their bits, the reserved bits 31:20, 15:14 and 7:5 zero (10_state.md
R25). -/
def Status.word (st : Status) : Word :=
  0#12 ++ st.diag ++ 0#2 ++ st.recid ++ st.errcode ++ 0#3 ++
    BitVec.ofBool st.werr ++ BitVec.ofBool st.valid ++ BitVec.ofBool st.err ++
    BitVec.ofBool st.done ++ BitVec.ofBool st.busy

/-- What a read of CTRL gives: IE in bit 0, ZEROIZE and the reserved bits zero (10_state.md R24). -/
def ctrlWord (s : State) : Word := 0#31 ++ BitVec.ofBool s.ie

/-- A host write to STATUS: DONE and WERR are cleared where the written bit is 1, nothing else changes (10_state.md
R25). -/
def Status.w1c (v : Word) (st : Status) : Status :=
  { st with done := st.done && !v.getLsbD 1, werr := st.werr && !v.getLsbD 4 }

/-- Acceptance clears DONE, ERR, VALID, ERRCODE, RECID and DIAG, and leaves BUSY and WERR (10_state.md R26). -/
def Status.accepted (st : Status) : Status :=
  { st with done := false, err := false, valid := false, errcode := 0#4, recid := 0#2, diag := 0#4 }

/-- The immediate completion of an illegal word: DONE, ERR and ERRCODE = 0xF (10_state.md R26). -/
def Status.illegal (st : Status) : Status :=
  { st with done := true, err := true, errcode := ErrCode.illegalCommand.code }

/-- A legal word starts: BUSY (10_state.md R26). -/
def Status.started (st : Status) : Status := { st with busy := true }

/-- A refused write is recorded (60_exceptions.md R199). -/
def Status.refusedWrite (st : Status) : Status := { st with werr := true }

/-- A command completes without error (60_exceptions.md R193). -/
def Status.completedOk (valid : Bool) (recid : BitVec 2) (diag : BitVec 4) (st : Status) : Status :=
  { st with valid := valid, recid := recid, diag := diag, busy := false, done := true }

/-- A command completes with an error (60_exceptions.md R190, R193). -/
def Status.completedErr (c : ErrCode) (st : Status) : Status :=
  { st with err := true, errcode := c.code, busy := false, done := true }

/-- The interrupt output, a level: `irq = CTRL.IE ∧ STATUS.DONE` (60_exceptions.md R196). -/
def State.irq (s : State) : Bool := s.ie && s.status.done

end Sys2Proof.Machine
end

