-- ==== Sys2Proof/Machine/Ops.lean ====
section
/-! DEFINITION. The named operations over the register file, the register window and the engine's hidden state: reads
and writes of a data register and of one 32-bit word of it (20_memory.md R52), the address map and the bus
(20_memory.md R50 to R58), acceptance of a command (10_state.md R26), its completion, with or without error
(60_exceptions.md R190, R193), reset and power loss (70_reset_and_hazards.md R220, R221, 60_exceptions.md R206). -/

namespace Sys2Proof.Machine

/-! ### Data registers -/

/-- `D[i]` (00_scope.md R9). No register is hardwired (10_state.md R21). -/
def readReg (d : RegFile) (i : Reg) : Value := d[i.val]

/-- `D[i] <- v` (00_scope.md R9). -/
def writeReg (d : RegFile) (i : Reg) (v : Value) : RegFile := d.set i.val v

/-- The lowest bit of word `w` of a 256-bit value, 224 − 32·w (20_memory.md R52). -/
def wordLo (w : WordIndex) : Nat := 224 - 32 * w.val

/-- Word `w` of a 256-bit value, `V[255 − 32·w : 224 − 32·w]` (20_memory.md R52). -/
def getWord (v : Value) (w : WordIndex) : Word := v.extractLsb' (wordLo w) 32

/-- Replaces exactly the 32 bits of word `w` (20_memory.md R52). -/
def setWord (v : Value) (w : WordIndex) (x : Word) : Value :=
  (v &&& ~~~((BitVec.allOnes 32).setWidth 256 <<< wordLo w)) ||| (x.setWidth 256 <<< wordLo w)

/-- The value of a natural number below 2^256, zero-extended to 256 bits (40_field.md R108). -/
def toValue (v : Nat) : Value := BitVec.ofNat 256 v

/-! ### The constant ROM (10_state.md R27) -/

/-- The constants of the ROM, in the order of their offsets. -/
inductive RomConst where
  | p | n | gx | gy | r2p | r2n
  deriving DecidableEq, Repr

/-- The value of a ROM constant. -/
def RomConst.value : RomConst → Value
  | .p => toValue Config.p
  | .n => toValue Config.n
  | .gx => toValue Config.gx
  | .gy => toValue Config.gy
  | .r2p => toValue Config.r2p
  | .r2n => toValue Config.r2n

/-- The place of a constant in the ROM, counted in 256-bit values. -/
def RomConst.index : RomConst → Nat
  | .p => 0
  | .n => 1
  | .gx => 2
  | .gy => 3
  | .r2p => 4
  | .r2n => 5

/-- The constant at a place of the ROM. -/
def romAt (k : Nat) : Option RomConst :=
  match k with
  | 0 => some .p
  | 1 => some .n
  | 2 => some .gx
  | 3 => some .gy
  | 4 => some .r2p
  | 5 => some .r2n
  | _ => none

/-! ### The address map (20_memory.md R50, R51) -/

/-- What stands at a word address. -/
inductive Loc where
  | id
  | ctrl
  | status
  | cmd
  | data (i : Reg) (w : WordIndex)
  | rom (c : RomConst) (w : WordIndex)
  | reserved
  deriving DecidableEq, Repr

/-- The byte offset of a word address, `A[11:2] ‖ 00` (20_memory.md R50). -/
def byteOffset (a : WordAddr) : BitVec 12 := a ++ 0#2

/-- The word address of ID, byte offset 0x000. -/
def idAddr : WordAddr := 0#10

/-- The word address of CTRL, byte offset 0x004. -/
def ctrlAddr : WordAddr := 1#10

/-- The word address of STATUS, byte offset 0x008. -/
def statusAddr : WordAddr := 2#10

/-- The word address of CMD, byte offset 0x00C. -/
def cmdAddr : WordAddr := 3#10

/-- The word address of word `w` of D[i], byte offset 0x100 + 0x20·i + 4·w. -/
def dataAddr (i : Reg) (w : WordIndex) : WordAddr := BitVec.ofNat 10 (0x40 + 8 * i.val + w.val)

/-- The word address of word `w` of a ROM constant, byte offset 0x200 + 0x20·(its place) + 4·w. -/
def romAddr (c : RomConst) (w : WordIndex) : WordAddr := BitVec.ofNat 10 (0x80 + 8 * c.index + w.val)

/-- The address map of 20_memory.md R51, on word addresses. -/
def locate (a : WordAddr) : Loc :=
  let k := a.toNat
  if k = 0 then .id
  else if k = 1 then .ctrl
  else if k = 2 then .status
  else if k = 3 then .cmd
  else if k < 0x40 then .reserved
  else if k < 0x80 then .data (Fin.ofNat 8 ((k - 0x40) / 8)) (Fin.ofNat 8 (k % 8))
  else
    match romAt ((k - 0x80) / 8) with
    | some c => .rom c (Fin.ofNat 8 (k % 8))
    | none => .reserved

/-- The platform address of a word of the window (20_memory.md R50). Log 13. -/
def platformAddress (a : WordAddr) : Nat := Config.base + 4 * a.toNat

/-- The word of the window a platform address selects, if it is an aligned address inside the window (20_memory.md
R50, R54). Log 13. -/
def selectWord (addr : Nat) : Option WordAddr :=
  if Config.base ≤ addr ∧ addr < Config.base + 4096 ∧ addr % 4 = 0 then
    some (BitVec.ofNat 10 ((addr - Config.base) / 4))
  else none

/-! ### Completion of a command (60_exceptions.md R193) -/

/-- What a command that completes without error does: its register writes, at most two, and the fields of STATUS it
sets. -/
structure Effect where
  writes : List (Reg × Value)
  valid : Bool
  recid : BitVec 2
  diag : BitVec 4
  deriving DecidableEq, Repr

/-- The result of `Exec`: an effect, or the error code the command raises (60_exceptions.md R193, 00_scope.md R9). -/
abbrev ExecResult := Except ErrCode Effect

/-- The register writes of a completion, all at once. -/
def applyWrites (ws : List (Reg × Value)) (d : RegFile) : RegFile :=
  ws.foldl (fun acc rv => writeReg acc rv.1 rv.2) d

/-- The engine's completion step: the one place where a command's outcome reaches the registers (60_exceptions.md
R190, R193). An error writes no data register. `pending` and `snap` keep their values (log 5). -/
def commit (r : ExecResult) (s : State) : State :=
  match r with
  | .ok e =>
    { s with d := applyWrites e.writes s.d,
             status := s.status.completedOk e.valid e.recid e.diag,
             phase := .idle }
  | .error c => { s with status := s.status.completedErr c, phase := .idle }

/-! ### Acceptance of a command (10_state.md R26) -/

/-- A write of `w` to CMD. -/
def acceptCommand (w : Word) (s : State) : State :=
  if s.status.busy then { s with status := s.status.refusedWrite }
  else if legal w then
    { s with cmd := w, status := s.status.accepted.started,
             phase := .running, pending := w, snap := s.d }
  else { s with cmd := w, status := s.status.accepted.illegal }

/-! ### The bus (20_memory.md R51 to R58) -/

/-- A read of the window: no side effect, no bus error (20_memory.md R56, R57). -/
def busRead (s : State) (a : WordAddr) : Word :=
  match locate a with
  | .id => Config.idWord
  | .ctrl => ctrlWord s
  | .status => s.status.word
  | .cmd => s.cmd
  | .data i w => getWord (readReg s.d i) w
  | .rom c w => getWord c.value w
  | .reserved => 0#32

/-- ZEROIZE = 1: D0 to D7 become 0 while idle, a refused write while busy (10_state.md R24). -/
def zeroize (s : State) : State :=
  if s.status.busy then { s with status := s.status.refusedWrite } else { s with d := zeroRegs }

/-- A write to CTRL: IE takes bit 0 always, bit 1 asks for ZEROIZE (10_state.md R24). -/
def writeCtrl (v : Word) (s : State) : State :=
  let s := { s with ie := v.getLsbD 0 }
  if v.getLsbD 1 then zeroize s else s

/-- A write to word `w` of D[i] (20_memory.md R52, R58). -/
def writeData (i : Reg) (w : WordIndex) (v : Word) (s : State) : State :=
  if s.status.busy then { s with status := s.status.refusedWrite }
  else { s with d := writeReg s.d i (setWord (readReg s.d i) w v) }

/-- A write to the window (20_memory.md R51, R56 to R58). Writes to ID, to the ROM and to reserved offsets are
ignored. -/
def busWrite (a : WordAddr) (v : Word) (s : State) : State :=
  match locate a with
  | .id => s
  | .ctrl => writeCtrl v s
  | .status => { s with status := s.status.w1c v }
  | .cmd => acceptCommand v s
  | .data i w => writeData i w v s
  | .rom _ _ => s
  | .reserved => s

/-! ### Inputs -/

/-- Every register at its reset value; the pin's level and the inputs to come are the outside world's and stay
(10_state.md R31, 70_reset_and_hazards.md R221). -/
def resetRegisters (s : State) : State :=
  { State.reset with rstN := s.rstN, events := s.events }

/-- An input other than the engine's turn. While `rst_n` is low no transaction is accepted
(70_reset_and_hazards.md R220). Power loss ends as a reset (60_exceptions.md R206). Log 7, 8. -/
def takeInput (e : Event) (s : State) : State :=
  match e with
  | .read a => if s.rstN then { s with rdata := some (busRead s a) } else s
  | .write a v => if s.rstN then busWrite a v s else s
  | .engine => s
  | .rst level =>
    if level then { s with rstN := true } else resetRegisters { s with rstN := false }
  | .powerCycle => resetRegisters s

end Sys2Proof.Machine
end

