-- ==== Sys2Proof/Machine/Operands.lean ====
section
/-! DEFINITION. The operand forms of 30_encoding.md R73: a scalar register, reduced (40_field.md R100) or as it is; a
point in a register pair (10_state.md R22, 41_curve.md R130); the generator of the ROM; and the two forms of
destination. A running command reads the snapshot only (10_state.md R28). -/

namespace Sys2Proof.Machine

/-- The modulus m of a field command (30_encoding.md R72). -/
def modulusOf : Modulus → Nat
  | .p => Config.p
  | .n => Config.n

/-- An affine point, both coordinates in [0, p − 1] (00_scope.md R10). The point at infinity is no value of it. -/
structure Point where
  x : Nat
  y : Nat
  deriving DecidableEq, Repr

/-- `snap.D[i]` as it is, an integer in [0, 2^256 − 1]. -/
def rawOperand (snap : RegFile) (i : Reg) : Nat := (readReg snap i).toNat

/-- `snap.D[i] mod m`: a field operand is reduced on entry (40_field.md R100). -/
def fieldOperand (m : Modulus) (snap : RegFile) (i : Reg) : Nat := rawOperand snap i % modulusOf m

/-- The register that holds y of the pair based at `i`, D[i+1] (10_state.md R22). For the odd bases no legal command
names, see log 11. -/
def pairY (i : Reg) : Reg := i + 1

/-- `PAIR(i)` as a point operand: both coordinates reduced modulo p, the curve equation not checked (41_curve.md
R130). -/
def pointOperand (snap : RegFile) (i : Reg) : Point :=
  { x := rawOperand snap i % Config.p, y := rawOperand snap (pairY i) % Config.p }

/-- The generator G of the ROM (41_curve.md R134, 10_state.md R27). -/
def generator : Point := { x := Config.gx, y := Config.gy }

/-- A command that writes one scalar register and sets no flag but DONE (40_field.md R108). -/
def scalarEffect (rd : Reg) (v : Nat) : Effect :=
  { writes := [(rd, toValue v)], valid := false, recid := 0#2, diag := 0#4 }

/-- A command that writes a point to `PAIR(rd)` and sets no flag but DONE (41_curve.md R130). -/
def pointEffect (rd : Reg) (q : Point) : Effect :=
  { writes := [(rd, toValue q.x), (pairY rd, toValue q.y)], valid := false, recid := 0#2, diag := 0#4 }

/-- The effect of a computation that gives a scalar or an error. -/
def scalarResult (rd : Reg) (r : Except ErrCode Nat) : ExecResult :=
  match r with
  | .ok v => .ok (scalarEffect rd v)
  | .error c => .error c

/-- The effect of a computation that gives a point or an error. -/
def pointResult (rd : Reg) (r : Except ErrCode Point) : ExecResult :=
  match r with
  | .ok q => .ok (pointEffect rd q)
  | .error c => .error c

end Sys2Proof.Machine
end

