-- ==== Sys2Proof/Machine/Field.lean ====
section
/-! DEFINITION. Field arithmetic (40_field.md): modular sum, difference, product, power, inverse and square root, and
the meanings of FADD, FSUB, FMUL, MMUL, FPOW, FINV and FSQRT. All arithmetic is exact on natural numbers; only the
final reduction bounds it (40_field.md R109). -/

namespace Sys2Proof.Machine

abbrev StepOutcome := Host.Outcome State Fault Refusal

/-! ### Arithmetic modulo m -/

/-- `(a + b) mod m` (40_field.md R101). -/
def addMod (m a b : Nat) : Nat := (a + b) % m

/-- `(a − b) mod m`, the least non-negative residue of the exact difference (00_scope.md R8, 40_field.md R102). -/
def subMod (m a b : Nat) : Nat := (a + (m - b % m)) % m

/-- `(a · b) mod m` of the exact product (40_field.md R103). -/
def mulMod (m a b : Nat) : Nat := a * b % m

/-- Square and multiply over the bits `bits − 1` down to 0 of the exponent, most significant first. That zero stays
zero is no special case of the arithmetic: the test only lets an evaluation go step by step (log 14). -/
def powLoop (m a e : Nat) : Nat → Nat → Nat
  | 0, acc => acc
  | bits + 1, acc =>
    if acc = 0 then 0
    else powLoop m a e bits (if e.testBit bits then acc * acc % m * a % m else acc * acc % m)

/-- `a^e mod m` for a 256-bit exponent, with `a^0 = 1` for every a (40_field.md R105). -/
def powMod (m a e : Nat) : Nat := powLoop m a e 256 (1 % m)

/-- One line of the extended Euclidean algorithm per unit of fuel: `t0·a ≡ r0` and `t1·a ≡ r1` (mod m) throughout
(log 14). -/
def euclid (m : Nat) : Nat → Nat → Nat → Nat → Nat → Nat
  | 0, _, t0, _, _ => t0
  | fuel + 1, r0, t0, r1, t1 =>
    if r1 = 0 then t0 else euclid m fuel r1 t1 (r0 % r1) (subMod m t0 (r0 / r1 * t1))

/-- `inv_m(a)` (00_scope.md R8), by the extended Euclidean algorithm. 512 lines are enough for m and a below 2^256
(log 14). For an a that is not invertible modulo m the spec defines no value; no command uses one (log 15). -/
def invMod (m a : Nat) : Nat := euclid m 512 m 0 (a % m) 1

/-! ### The sub-operations FINV_f and FSQRT_f (00_scope.md R9) -/

/-- FINV_f modulo m (40_field.md R106). -/
def finvF (m a : Nat) : Except ErrCode Nat :=
  if Nat.gcd a m ≠ 1 then .error .notInvertible else .ok (invMod m a)

/-- FSQRT_f, modulo p (40_field.md R107). -/
def fsqrtF (a : Nat) : Except ErrCode Nat :=
  let c := powMod Config.p a ((Config.p + 1) / 4)
  if mulMod Config.p c c ≠ a then .error .noSquareRoot else .ok c

/-! ### The commands -/

/-- FADD (40_field.md R101). -/
def faddResult (m : Modulus) (rd rs1 rs2 : Reg) (snap : RegFile) : ExecResult :=
  .ok (scalarEffect rd (addMod (modulusOf m) (fieldOperand m snap rs1) (fieldOperand m snap rs2)))

/-- FSUB (40_field.md R102). -/
def fsubResult (m : Modulus) (rd rs1 rs2 : Reg) (snap : RegFile) : ExecResult :=
  .ok (scalarEffect rd (subMod (modulusOf m) (fieldOperand m snap rs1) (fieldOperand m snap rs2)))

/-- FMUL (40_field.md R103). -/
def fmulResult (m : Modulus) (rd rs1 rs2 : Reg) (snap : RegFile) : ExecResult :=
  .ok (scalarEffect rd (mulMod (modulusOf m) (fieldOperand m snap rs1) (fieldOperand m snap rs2)))

/-- `(a · b · inv_m(2^256)) mod m`, the Montgomery product (40_field.md R104). -/
def montMul (m a b : Nat) : Nat := a * b * invMod m Config.montRadix % m

/-- MMUL (40_field.md R104). -/
def mmulResult (m : Modulus) (rd rs1 rs2 : Reg) (snap : RegFile) : ExecResult :=
  .ok (scalarEffect rd (montMul (modulusOf m) (fieldOperand m snap rs1) (fieldOperand m snap rs2)))

/-- FPOW: the exponent is not reduced (40_field.md R105). -/
def fpowResult (m : Modulus) (rd rs1 rs2 : Reg) (snap : RegFile) : ExecResult :=
  .ok (scalarEffect rd (powMod (modulusOf m) (fieldOperand m snap rs1) (rawOperand snap rs2)))

/-- FINV (40_field.md R106). -/
def finvResult (m : Modulus) (rd rs1 : Reg) (snap : RegFile) : ExecResult :=
  scalarResult rd (finvF (modulusOf m) (fieldOperand m snap rs1))

/-- FSQRT (40_field.md R107). -/
def fsqrtResult (rd rs1 : Reg) (snap : RegFile) : ExecResult :=
  scalarResult rd (fsqrtF (fieldOperand .p snap rs1))

/-- The completion of FADD. -/
def execFadd (m : Modulus) (rd rs1 rs2 : Reg) (s : State) : StepOutcome :=
  .next (commit (faddResult m rd rs1 rs2 s.snap) s)

/-- The completion of FSUB. -/
def execFsub (m : Modulus) (rd rs1 rs2 : Reg) (s : State) : StepOutcome :=
  .next (commit (fsubResult m rd rs1 rs2 s.snap) s)

/-- The completion of FMUL. -/
def execFmul (m : Modulus) (rd rs1 rs2 : Reg) (s : State) : StepOutcome :=
  .next (commit (fmulResult m rd rs1 rs2 s.snap) s)

/-- The completion of MMUL. -/
def execMmul (m : Modulus) (rd rs1 rs2 : Reg) (s : State) : StepOutcome :=
  .next (commit (mmulResult m rd rs1 rs2 s.snap) s)

/-- The completion of FPOW. -/
def execFpow (m : Modulus) (rd rs1 rs2 : Reg) (s : State) : StepOutcome :=
  .next (commit (fpowResult m rd rs1 rs2 s.snap) s)

/-- The completion of FINV. -/
def execFinv (m : Modulus) (rd rs1 : Reg) (s : State) : StepOutcome :=
  .next (commit (finvResult m rd rs1 s.snap) s)

/-- The completion of FSQRT. -/
def execFsqrt (rd rs1 : Reg) (s : State) : StepOutcome :=
  .next (commit (fsqrtResult rd rs1 s.snap) s)

end Sys2Proof.Machine
end

