-- ==== Sys2Proof/Machine/Curve.lean ====
section
/-! DEFINITION. Curve arithmetic (41_curve.md): the pure functions PDBL_f, PADD_f, PNEG_f and PMUL_f on affine points,
and the meanings of PDBL, PADD, PNEG and PMUL in its two forms. -/

namespace Sys2Proof.Machine

/-- The last two lines of doubling and of addition: `x' = λ² − x1 − x2`, `y' = λ·(x1 − x') − y1`, renormalised into
[0, p − 1] (41_curve.md R131, R132, 90_conflicts.md C8). -/
def chord (lam : Nat) (q : Point) (x2 : Nat) : Point :=
  let x3 := subMod Config.p (lam * lam) (q.x + x2)
  { x := x3, y := subMod Config.p (lam * subMod Config.p q.x x3) q.y }

/-- PDBL_f (41_curve.md R131). -/
def pdblF (q : Point) : Except ErrCode Point :=
  if q.y = 0 then .error .unsupportedInfinity
  else
    let lam := (3 * (q.x * q.x) + Config.a) * invMod Config.p (2 * q.y) % Config.p
    .ok (chord lam q q.x)

/-- PADD_f: the cases in the order of the rule (41_curve.md R132). -/
def paddF (q1 q2 : Point) : Except ErrCode Point :=
  if q1.x = q2.x ∧ q1.y = q2.y then pdblF q1
  else if q1.x = q2.x ∧ (q1.y + q2.y) % Config.p = 0 then .error .unsupportedInfinity
  else if Nat.gcd (subMod Config.p q1.x q2.x) Config.p ≠ 1 then .error .unsupportedInfinity
  else
    let lam := subMod Config.p q2.y q1.y * invMod Config.p (subMod Config.p q2.x q1.x) % Config.p
    .ok (chord lam q1 q2.x)

/-- PNEG_f (41_curve.md R133). -/
def pnegF (q : Point) : Point := { x := q.x, y := (Config.p - q.y) % Config.p }

/-- One bit of PMUL_f's loop: double, then add P if the bit is set (41_curve.md R134). -/
def pmulBit (bit : Bool) (q acc : Point) : Except ErrCode Point :=
  match pdblF acc with
  | .error c => .error c
  | .ok dbl => if bit then paddF dbl q else .ok dbl

/-- The loop of PMUL_f for i = t−1 down to 0, most significant bit first (41_curve.md R134). -/
def pmulLoop (k : Nat) (q : Point) : Nat → Point → Except ErrCode Point
  | 0, acc => .ok acc
  | i + 1, acc =>
    match pmulBit (k.testBit i) q acc with
    | .error c => .error c
    | .ok acc' => pmulLoop k q i acc'

/-- PMUL_f: k is not reduced modulo n; t is the highest set bit of k (41_curve.md R134). -/
def pmulF (k : Nat) (q : Point) : Except ErrCode Point :=
  if k = 0 then .error .zeroScalar else pmulLoop k q (Nat.log2 k) q

/-- PDBL (41_curve.md R131). -/
def pdblResult (rd rs1 : Reg) (snap : RegFile) : ExecResult :=
  pointResult rd (pdblF (pointOperand snap rs1))

/-- PADD (41_curve.md R132). -/
def paddResult (rd rs1 rs2 : Reg) (snap : RegFile) : ExecResult :=
  pointResult rd (paddF (pointOperand snap rs1) (pointOperand snap rs2))

/-- PNEG (41_curve.md R133). -/
def pnegResult (rd rs1 : Reg) (snap : RegFile) : ExecResult :=
  .ok (pointEffect rd (pnegF (pointOperand snap rs1)))

/-- PMUL with G = 0 (41_curve.md R134). -/
def pmulResult (rd rs1 rs2 : Reg) (snap : RegFile) : ExecResult :=
  pointResult rd (pmulF (rawOperand snap rs2) (pointOperand snap rs1))

/-- PMUL with G = 1 (41_curve.md R134). -/
def pmulGResult (rd rs2 : Reg) (snap : RegFile) : ExecResult :=
  pointResult rd (pmulF (rawOperand snap rs2) generator)

/-- The completion of PDBL. -/
def execPdbl (rd rs1 : Reg) (s : State) : StepOutcome :=
  .next (commit (pdblResult rd rs1 s.snap) s)

/-- The completion of PADD. -/
def execPadd (rd rs1 rs2 : Reg) (s : State) : StepOutcome :=
  .next (commit (paddResult rd rs1 rs2 s.snap) s)

/-- The completion of PNEG. -/
def execPneg (rd rs1 : Reg) (s : State) : StepOutcome :=
  .next (commit (pnegResult rd rs1 s.snap) s)

/-- The completion of PMUL with G = 0. -/
def execPmul (rd rs1 rs2 : Reg) (s : State) : StepOutcome :=
  .next (commit (pmulResult rd rs1 rs2 s.snap) s)

/-- The completion of PMUL with G = 1. -/
def execPmulG (rd rs2 : Reg) (s : State) : StepOutcome :=
  .next (commit (pmulGResult rd rs2 s.snap) s)

end Sys2Proof.Machine
end

