-- ==== Sys2Proof/Machine/Codec.lean ====
section
/-! DEFINITION. Point decompression (42_codec.md): PDEC_f and the meaning of PDEC, and the prefix byte a host forms
when it compresses a point (R161). -/

namespace Sys2Proof.Machine

/-- PDEC_f: the prefix, the range of x, the square root and the parity, in this order (42_codec.md R160,
60_exceptions.md R194). -/
def pdecF (pfx : BitVec 8) (x : Nat) : Except ErrCode Point :=
  if pfx ≠ 0x02#8 ∧ pfx ≠ 0x03#8 then .error .malformedEncoding
  else if Config.p ≤ x then .error .malformedEncoding
  else
    match fsqrtF ((x * x * x + Config.a * x + Config.b) % Config.p) with
    | .error c => .error c
    | .ok y0 =>
      if y0 % 2 = pfx.toNat - 2 then .ok { x := x, y := y0 }
      else if y0 = 0 then .error .noSquareRoot
      else .ok { x := x, y := Config.p - y0 }

/-- The prefix byte of the compressed form of a point, `0x02 + y[0]` (42_codec.md R161). The host forms it; the block
has no command for it. -/
def compressPrefix (q : Point) : BitVec 8 := if q.y % 2 = 1 then 0x03#8 else 0x02#8

/-- PDEC: x is range-checked, not reduced (42_codec.md R160). -/
def pdecResult (rd rs1 : Reg) (pfx : BitVec 8) (snap : RegFile) : ExecResult :=
  pointResult rd (pdecF pfx (rawOperand snap rs1))

/-- The completion of PDEC. -/
def execPdec (rd rs1 : Reg) (pfx : BitVec 8) (s : State) : StepOutcome :=
  .next (commit (pdecResult rd rs1 pfx s.snap) s)

end Sys2Proof.Machine
end

