-- ==== Sys2Proof/Machine/Ecdsa.lean ====
section
/-! DEFINITION. ECDSA (43_ecdsa.md): signing and verification as pure functions of the snapshot, and the meanings of
SIGN and VERIFY. Both work on fixed registers. -/

namespace Sys2Proof.Machine

/-- The recovery id of the point behind R, `2·[Rp.x ≥ n] + parity(Rp.y)` (43_ecdsa.md R171). -/
def recoveryId (rp : Point) : BitVec 2 :=
  BitVec.ofNat 2 (2 * (if Config.n ≤ rp.x then 1 else 0) + rp.y % 2)

/-- The one-byte recovery flag a host forms from RECID, `27 + RECID + 4·[compressed]` (43_ecdsa.md R171). -/
def recoveryFlag (recid : BitVec 2) (compressed : Bool) : Nat :=
  27 + recid.toNat + (if compressed then 4 else 0)

/-- A signature and the point it came from. -/
structure Signature where
  r : Nat
  s : Nat
  recid : BitVec 2
  deriving DecidableEq, Repr

/-- The computation of SIGN on digest `d`, key `k` and nonce `t`: the key's range first, then the reduced nonce
(43_ecdsa.md R170, 60_exceptions.md R194). -/
def signF (d k t : Nat) : Except ErrCode Signature :=
  if ¬(1 ≤ k ∧ k ≤ Config.n - 1) then .error .noPrivateKey
  else
    let t' := t % Config.n
    if t' = 0 then .error .zeroScalar
    else
      match pmulF t' generator with
      | .error c => .error c
      | .ok rp =>
        let r := rp.x % Config.n
        .ok { r := r, s := invMod Config.n t' * (d + k * r) % Config.n, recid := recoveryId rp }

/-- SIGN: reads D0, D1 and D2, writes D3, D4 and RECID (43_ecdsa.md R170). -/
def signResult (snap : RegFile) : ExecResult :=
  match signF (rawOperand snap 0) (rawOperand snap 1) (rawOperand snap 2) with
  | .error c => .error c
  | .ok sg =>
    .ok { writes := [(3, toValue sg.r), (4, toValue sg.s)], valid := false, recid := sg.recid, diag := 0#4 }

/-- The point `u1·G + u2·Q` of VERIFY, or the code of the first step that fails (43_ecdsa.md R172). -/
def verifyPoint (d r s : Nat) (q : Point) : Except ErrCode Point :=
  let s' := s % Config.n
  if s' = 0 then .error .notInvertible
  else
    let w := invMod Config.n s'
    match pmulF (d * w % Config.n) generator with
    | .error c => .error c
    | .ok a =>
      match pmulF (r * w % Config.n) q with
      | .error c => .error c
      | .ok b => paddF a b

/-- VERIFY: reads D0, D3, D4 and PAIR(6), writes no data register; every internal failure is a rejection with its
code in DIAG (43_ecdsa.md R172). R is compared unreduced. -/
def verifyResult (snap : RegFile) : ExecResult :=
  match verifyPoint (rawOperand snap 0) (rawOperand snap 3) (rawOperand snap 4) (pointOperand snap 6) with
  | .error c => .ok { writes := [], valid := false, recid := 0#2, diag := c.code }
  | .ok q =>
    .ok { writes := [], valid := q.x % Config.n == rawOperand snap 3, recid := 0#2, diag := 0#4 }

/-- The completion of SIGN. -/
def execSign (s : State) : StepOutcome := .next (commit (signResult s.snap) s)

/-- The completion of VERIFY. -/
def execVerify (s : State) : StepOutcome := .next (commit (verifyResult s.snap) s)

end Sys2Proof.Machine
end

