-- ==== Sys2Proof/Machine/Dispatch.lean ====
section
/-! DEFINITION. One arm per command: the engine's completion of a command over the snapshot (60_exceptions.md R193). -/

namespace Sys2Proof.Machine

def exec (i : Instr) (s : State) : Host.Outcome State Fault Refusal :=
  match i with
  | .fadd m rd rs1 rs2 => Sys2Proof.Machine.execFadd m rd rs1 rs2 s
  | .fsub m rd rs1 rs2 => Sys2Proof.Machine.execFsub m rd rs1 rs2 s
  | .fmul m rd rs1 rs2 => Sys2Proof.Machine.execFmul m rd rs1 rs2 s
  | .mmul m rd rs1 rs2 => Sys2Proof.Machine.execMmul m rd rs1 rs2 s
  | .fpow m rd rs1 rs2 => Sys2Proof.Machine.execFpow m rd rs1 rs2 s
  | .finv m rd rs1 => Sys2Proof.Machine.execFinv m rd rs1 s
  | .fsqrt rd rs1 => Sys2Proof.Machine.execFsqrt rd rs1 s
  | .pdbl rd rs1 => Sys2Proof.Machine.execPdbl rd rs1 s
  | .padd rd rs1 rs2 => Sys2Proof.Machine.execPadd rd rs1 rs2 s
  | .pneg rd rs1 => Sys2Proof.Machine.execPneg rd rs1 s
  | .pmul rd rs1 rs2 => Sys2Proof.Machine.execPmul rd rs1 rs2 s
  | .pmulG rd rs2 => Sys2Proof.Machine.execPmulG rd rs2 s
  | .pdec rd rs1 pfx => Sys2Proof.Machine.execPdec rd rs1 pfx s
  | .sign => Sys2Proof.Machine.execSign s
  | .verify => Sys2Proof.Machine.execVerify s

end Sys2Proof.Machine
end

