-- ==== Sys2Proof/Machine/Engine.lean ====
section
/-! DEFINITION. The engine's turn: a running command completes (60_exceptions.md R193). -/

namespace Sys2Proof.Machine

/-- The engine can complete: a command is running and the block is not held in reset (60_exceptions.md R193,
70_reset_and_hazards.md R221). -/
def engineEnabled (s : State) : Bool := s.rstN && s.phase == .running

/-- The engine's turn. With nothing to complete, nothing happens (log 19). A word that does not decode is never in
flight (log 10). -/
def engineTurn (s : State) : StepOutcome :=
  if engineEnabled s then
    match decode s.pending with
    | .ok i => exec i s
    | .error _ => .fault .illegalInFlight
  else .next s

end Sys2Proof.Machine
end

