-- ==== Sys2Proof/Machine/Step.lean ====
section
/-! DEFINITION. One step of the block: the next input is taken, or the engine has its turn (20_memory.md R60,
60_exceptions.md R195). -/

namespace Sys2Proof.Machine

/-- The state after the next input is taken from the list; read data of an earlier step is no longer valid. -/
def State.afterInput (s : State) (rest : List Event) : State := { s with events := rest, rdata := none }

/-- One step. Every event is one indivisible step of the one total order (20_memory.md R60). When no input is left, a
running command completes (70_reset_and_hazards.md R225) and an idle block stays as it is. Log 1, 2, 19. -/
def step (s : State) : Host.Outcome State Fault Refusal :=
  match s.events with
  | [] => engineTurn (s.afterInput [])
  | .engine :: rest => engineTurn (s.afterInput rest)
  | e :: rest => .next (takeInput e (s.afterInput rest))

/-- `s` with the command word `w` accepted, as a host's write to CMD of an idle block leaves it (10_state.md R26), and
the engine's turn next, so that the very next step completes that command. Log 3. -/
def State.withFetchWord (s : State) (nbits w : Nat) : State :=
  let accepted :=
    acceptCommand (BitVec.ofNat 32 (w % 2 ^ nbits))
      { s with status := { s.status with busy := false }, phase := .idle }
  { accepted with rstN := true, events := .engine :: s.events }

end Sys2Proof.Machine
end

