-- ==== Sys2Proof/Machine/HostProgram.lean ====
section
/-! DEFINITION. The host's side of 30_encoding.md: the assembler syntax of a command (R77), and the pseudo-instructions as
the commands and bus transactions they expand to (R78), with what the host does with the words it reads: the value of
ST256, the copies of LDC, and the loop of WAITDONE. None has an encoding of its own. -/

namespace Sys2Proof.Machine

/-! ### Assembler syntax (30_encoding.md R77) -/

/-- A register, `d0` to `d7`. -/
def asmReg (r : Reg) : String :=
  match r with
  | 0 => "d0"
  | 1 => "d1"
  | 2 => "d2"
  | 3 => "d3"
  | 4 => "d4"
  | 5 => "d5"
  | 6 => "d6"
  | 7 => "d7"

/-- The modulus suffix, `.p` or `.n`. -/
def asmMod (m : Modulus) : String :=
  match m with
  | .p => ".p"
  | .n => ".n"

/-- One hexadecimal digit. -/
def hexDigit (v : BitVec 4) : Char :=
  ['0', '1', '2', '3', '4', '5', '6', '7', '8', '9', 'A', 'B', 'C', 'D', 'E', 'F'][v.toNat]'v.isLt

/-- An immediate byte, `#0x` and two digits. -/
def asmImm (v : BitVec 8) : String :=
  String.ofList ['#', '0', 'x', hexDigit (v.extractLsb' 4 4), hexDigit (v.extractLsb' 0 4)]

/-- The operands of a field command with two sources. -/
def asmRRR (mnemonic : String) (rd rs1 rs2 : Reg) : String :=
  mnemonic ++ " " ++ asmReg rd ++ ", " ++ asmReg rs1 ++ ", " ++ asmReg rs2

/-- The operands of a command with one source. -/
def asmRR (mnemonic : String) (rd rs1 : Reg) : String := mnemonic ++ " " ++ asmReg rd ++ ", " ++ asmReg rs1

/-- The assembler text of a command (30_encoding.md R77). -/
def asm : Instr → String
  | .fadd m rd rs1 rs2 => asmRRR ("FADD" ++ asmMod m) rd rs1 rs2
  | .fsub m rd rs1 rs2 => asmRRR ("FSUB" ++ asmMod m) rd rs1 rs2
  | .fmul m rd rs1 rs2 => asmRRR ("FMUL" ++ asmMod m) rd rs1 rs2
  | .mmul m rd rs1 rs2 => asmRRR ("MMUL" ++ asmMod m) rd rs1 rs2
  | .fpow m rd rs1 rs2 => asmRRR ("FPOW" ++ asmMod m) rd rs1 rs2
  | .finv m rd rs1 => asmRR ("FINV" ++ asmMod m) rd rs1
  | .fsqrt rd rs1 => asmRR "FSQRT" rd rs1
  | .pdbl rd rs1 => asmRR "PDBL" rd rs1
  | .padd rd rs1 rs2 => asmRRR "PADD" rd rs1 rs2
  | .pneg rd rs1 => asmRR "PNEG" rd rs1
  | .pmul rd rs1 rs2 => asmRRR "PMUL" rd rs1 rs2
  | .pmulG rd rs2 => "PMUL " ++ asmReg rd ++ ", G, " ++ asmReg rs2
  | .pdec rd rs1 pfx => asmRR "PDEC" rd rs1 ++ ", " ++ asmImm pfx
  | .sign => "SIGN"
  | .verify => "VERIFY"

/-! ### Pseudo-instructions that are commands (30_encoding.md R78) -/

/-- `FSQR.m rd, rs`. -/
def fsqr (m : Modulus) (rd rs : Reg) : Instr := .fmul m rd rs rs

/-- `FNEG.m rd, rs, rz`, where D[rz] holds 0. -/
def fneg (m : Modulus) (rd rs rz : Reg) : Instr := .fsub m rd rz rs

/-- The ROM constant that takes a value into the Montgomery domain of a modulus: R2P for p, R2N for n. -/
def radixConst (m : Modulus) : RomConst :=
  match m with
  | .p => .r2p
  | .n => .r2n

/-- `TOMONT.m rd, rs, rr`, where D[rr] holds R2P or R2N. -/
def toMont (m : Modulus) (rd rs rr : Reg) : Instr := .mmul m rd rs rr

/-- `FROMMONT.m rd, rs, r1`, where D[r1] holds 1. -/
def fromMont (m : Modulus) (rd rs r1 : Reg) : Instr := .mmul m rd rs r1

/-- `PUBKEY rd, rk`. -/
def pubkey (rd rk : Reg) : Instr := .pmulG rd rk

/-! ### Pseudo-instructions that are bus transactions (30_encoding.md R78) -/

/-- The word numbers of a 256-bit value in the order of their offsets. -/
def wordIndices : List WordIndex := [0, 1, 2, 3, 4, 5, 6, 7]

/-- `LD256 di, V`. -/
def ld256 (i : Reg) (v : Value) : List Event := wordIndices.map fun w => .write (dataAddr i w) (getWord v w)

/-- The reads of `ST256 di`, as the block sees them; the value the host makes of them is `store256`. -/
def st256 (i : Reg) : List Event := wordIndices.map fun w => .read (dataAddr i w)

/-- The transactions of `LDC di, C`, as the block sees them; that each write takes the word just read is `loadConst`. -/
def ldc (i : Reg) (c : RomConst) : List Event :=
  wordIndices.flatMap fun w => [.read (romAddr c w), .write (dataAddr i w) (getWord c.value w)]

/-- `CLRDONE`. -/
def clrDone : List Event := [.write statusAddr 0x00000002#32]

/-- `ZEROIZE`, keeping the value of IE the host wants. -/
def zeroizeKeeping (ie : Bool) : List Event := [.write ctrlAddr (0#30 ++ 1#1 ++ BitVec.ofBool ie)]

/-- The polls of a `WAITDONE` loop that repeats this many times, as the block sees them. The loop itself, with its test of
DONE, is `waitDone` (log 20). -/
def polls (k : Nat) : List Event := List.replicate k (.read statusAddr)

/-- The inputs of `EXEC cmd` whose command completes after `k` polls, seen by one more. The host's side, with its test of
DONE, is `execHost` (log 20). -/
def execCmd (i : Instr) (k : Nat) : List Event :=
  [.write cmdAddr (encode i)] ++ polls k ++ [.engine] ++ polls 1

/-! ### What the host does with what it reads (30_encoding.md R78)

Below the host acts: it issues a transaction, looks at the word read, and goes on by it. `State.events` then holds what
everybody else is still to do. -/

/-- A transaction the host issues now, before the inputs of others (20_memory.md R55, R60). -/
def transact (e : Event) (s : State) : StepOutcome := step { s with events := e :: s.events }

/-- `RD off`: the word read and the state after it; none where no word is returned (log 7). -/
def hostRead (a : WordAddr) (s : State) : Option (Word × State) :=
  match transact (.read a) s with
  | .next t => t.rdata.map fun w => (w, t)
  | .fault _ => none
  | .refused _ => none

/-- `WR off, value`. -/
def hostWrite (a : WordAddr) (v : Word) (s : State) : Option State :=
  match transact (.write a v) s with
  | .next t => some t
  | .fault _ => none
  | .refused _ => none

/-- Reads of these addresses, one after another: the words read, in this order. -/
def readWords : List WordAddr → State → Option (List Word × State)
  | [], s => some ([], s)
  | a :: as, s =>
    match hostRead a s with
    | none => none
    | some (w, t) => (readWords as t).map fun r => (w :: r.1, r.2)

/-- Words concatenated most significant first (30_encoding.md R78, ST256; 20_memory.md R52). -/
def joinWords (ws : List Word) : Value := ws.foldl (fun v w => v <<< 32 ||| w.setWidth 256) 0#256

/-- `ST256 di`: the eight words of D[i] read in the order of their offsets, concatenated. -/
def store256 (i : Reg) (s : State) : Option (Value × State) :=
  (readWords (wordIndices.map (dataAddr i)) s).map fun r => (joinWords r.1, r.2)

/-- The reads and writes of `LDC di, C` for these words: each write takes the word just read. -/
def copyWords (i : Reg) (c : RomConst) : List WordIndex → State → Option State
  | [], s => some s
  | w :: ws, s =>
    match hostRead (romAddr c w) s with
    | none => none
    | some (v, t) =>
      match hostWrite (dataAddr i w) v t with
      | none => none
      | some u => copyWords i c ws u

/-- `LDC di, C`. -/
def loadConst (i : Reg) (c : RomConst) (s : State) : Option State := copyWords i c wordIndices s

/-- The test of `WAITDONE`: bit 1 (DONE) of the word read is 1. A poll that returns no word does not end the loop (log 7). -/
def doneRead (r : Option Word) : Bool :=
  match r with
  | some w => w.getLsbD 1
  | none => false

/-- Where a host that runs `WAITDONE` stands. -/
inductive Wait where
  /-- A poll read DONE = 1 and the loop is left. -/
  | left (s : State)
  /-- Every poll so far read DONE = 0, or no word. -/
  | looping (s : State)
  /-- The block stopped with a fault; no run from reset does (log 10). -/
  | stopped
  deriving DecidableEq, Repr

/-- `WAITDONE`: read STATUS; while bit 1 (DONE) is 0, repeat. One number for each poll: how many steps of the others (the
engine's turn among them) come before it, which LAT and the other masters decide (log 20). -/
def waitDone : List Nat → State → Wait
  | [], s => .looping s
  | gap :: gaps, s =>
    match Host.Core.run Sys2Proof.core gap s with
    | .fault _ => .stopped
    | .refused _ => .stopped
    | .next t =>
      match transact (.read statusAddr) t with
      | .fault _ => .stopped
      | .refused _ => .stopped
      | .next u => if doneRead u.rdata then .left u else waitDone gaps u

/-- `EXEC cmd`: the write of the command word, then `WAITDONE`. -/
def execHost (i : Instr) (gaps : List Nat) (s : State) : Wait :=
  match transact (.write cmdAddr (encode i)) s with
  | .next t => waitDone gaps t
  | .fault _ => .stopped
  | .refused _ => .stopped

end Sys2Proof.Machine
end

