-- ==== Sys2Proof/Safety.lean ====
section
/-! DEFINITION. The terms claims are stated in: the invariant of the block, what a safe state is, the registers a command
may write, the codes a command may raise, and points of the curve against Mathlib's group. -/

namespace Sys2Proof.Machine

/-! ### Runs -/

/-- The step neither faults nor refuses. -/
def Safe (s : State) : Prop := ∃ t, step s = .next t

/-- A bus transaction of the host, as opposed to the engine's turn, a reset or a loss of power (10_state.md R20). -/
def Event.isBus : Event → Bool
  | .read _ => true
  | .write _ _ => true
  | .engine => false
  | .rst _ => false
  | .powerCycle => false

/-- A reset or a loss of power (70_reset_and_hazards.md R220, 60_exceptions.md R206). -/
def Event.isReset : Event → Bool
  | .read _ => false
  | .write _ _ => false
  | .engine => false
  | .rst level => !level
  | .powerCycle => true

/-- The engine completes its command in the next step: it is its turn, or no input is left, and it can (60_exceptions.md
R193, 70_reset_and_hazards.md R225). -/
def completesNext (s : State) : Bool :=
  engineEnabled s && (match s.events with
    | [] => true
    | e :: _ => e == .engine)

/-- The host's write of `v` to the word address `a` is the next input, and it is taken: `rst_n` is high
(70_reset_and_hazards.md R220). -/
def writesNext (s : State) (a : WordAddr) (v : Word) : Prop :=
  s.rstN = true ∧ s.events.head? = some (.write a v)

/-- A reset or a loss of power is the next input. -/
def resetsNext (s : State) : Prop := ∃ e, s.events.head? = some e ∧ e.isReset = true

/-- A command word is accepted in the next step: a write to CMD while BUSY is 0 (10_state.md R26). -/
def acceptsNext (s : State) (w : Word) : Prop := writesNext s cmdAddr w ∧ s.status.busy = false

/-- The machine takes `k` steps from `s` and is then in `t`. -/
def Runs (k : Nat) (s t : State) : Prop := Host.Core.run Sys2Proof.core k s = .next t

/-! ### The invariant -/

/-- The codes ERRCODE can hold: no error, 0x1 to 0x6 and 0xF. 0x7 to 0xE are never raised (60_exceptions.md R191). -/
def errcodes : List (BitVec 4) :=
  [ErrCode.none, .notInvertible, .noSquareRoot, .unsupportedInfinity, .malformedEncoding, .noPrivateKey,
   .zeroScalar, .illegalCommand].map ErrCode.code

/-- The codes DIAG can hold: none, and the three that VERIFY records (60_exceptions.md R191, 43_ecdsa.md R172). -/
def diagcodes : List (BitVec 4) :=
  [ErrCode.none, .notInvertible, .unsupportedInfinity, .zeroScalar].map ErrCode.code

/-- STATUS holds no outcome of a command: DONE, ERR, VALID, ERRCODE, RECID and DIAG are 0. -/
def Status.noOutcome (st : Status) : Prop :=
  st.done = false ∧ st.err = false ∧ st.valid = false ∧ st.errcode = 0#4 ∧ st.recid = 0#2 ∧ st.diag = 0#4

/-- What every state of the block a run can reach satisfies. -/
structure Inv (s : State) : Prop where
  /-- phase is always equal to STATUS.BUSY (10_state.md R28). -/
  busy_iff : s.status.busy = true ↔ s.phase = .running
  /-- The word in flight is legal (10_state.md R26). -/
  pending_legal : s.phase = .running → legal s.pending = true
  /-- CMD holds the word in flight: a write to CMD while busy is ignored (10_state.md R26). -/
  cmd_pending : s.phase = .running → s.cmd = s.pending
  /-- While a command runs, D holds what the snapshot holds (10_state.md R28, 20_memory.md R58). -/
  snap_eq : s.phase = .running → s.snap = s.d
  /-- While a command runs, STATUS shows no outcome (10_state.md R26). -/
  running_noOutcome : s.phase = .running → s.status.noOutcome
  /-- ERRCODE holds a code that can be raised (60_exceptions.md R191). -/
  errcode_raised : s.status.errcode ∈ errcodes
  /-- ERR is set exactly when ERRCODE is not NONE (10_state.md R25, 60_exceptions.md R190). -/
  err_iff : s.status.err = true ↔ s.status.errcode ≠ 0#4
  /-- DIAG holds a code VERIFY can record (43_ecdsa.md R172). -/
  diag_raised : s.status.diag ∈ diagcodes
  /-- An accepted signature has no DIAG, and an error no outcome beside it (60_exceptions.md R193, 43_ecdsa.md R172). -/
  valid_diag : s.status.valid = true → s.status.diag = 0#4
  /-- A command that failed set neither VALID nor RECID nor DIAG (60_exceptions.md R193). -/
  err_alone : s.status.err = true → s.status.valid = false ∧ s.status.recid = 0#2 ∧ s.status.diag = 0#4
  /-- RECID is SIGN's, VALID and DIAG are VERIFY's (10_state.md R25). -/
  recid_alone : s.status.recid ≠ 0#2 → s.status.valid = false ∧ s.status.diag = 0#4
  /-- While `rst_n` is low every register holds its reset value (70_reset_and_hazards.md R221). -/
  in_reset : s.rstN = false →
    s.d = zeroRegs ∧ s.ie = false ∧ s.status = Status.zero ∧ s.cmd = 0#32 ∧ s.phase = .idle

/-! ### What a command may write and raise -/

/-- The destination registers of a command (30_encoding.md R74, 43_ecdsa.md R170, R172). -/
def dests : Instr → List Reg
  | .fadd _ rd _ _ => [rd]
  | .fsub _ rd _ _ => [rd]
  | .fmul _ rd _ _ => [rd]
  | .mmul _ rd _ _ => [rd]
  | .fpow _ rd _ _ => [rd]
  | .finv _ rd _ => [rd]
  | .fsqrt rd _ => [rd]
  | .pdbl rd _ => [rd, pairY rd]
  | .padd rd _ _ => [rd, pairY rd]
  | .pneg rd _ => [rd, pairY rd]
  | .pmul rd _ _ => [rd, pairY rd]
  | .pmulG rd _ => [rd, pairY rd]
  | .pdec rd _ _ => [rd, pairY rd]
  | .sign => [3, 4]
  | .verify => []

/-- The codes a command may put into ERRCODE, by the column "raised by" of 60_exceptions.md R191. -/
def mayRaise : Instr → List ErrCode
  | .fadd _ _ _ _ => []
  | .fsub _ _ _ _ => []
  | .fmul _ _ _ _ => []
  | .mmul _ _ _ _ => []
  | .fpow _ _ _ _ => []
  | .finv _ _ _ => [.notInvertible]
  | .fsqrt _ _ => [.noSquareRoot]
  | .pdbl _ _ => [.unsupportedInfinity]
  | .padd _ _ _ => [.unsupportedInfinity]
  | .pneg _ _ => []
  | .pmul _ _ _ => [.unsupportedInfinity, .zeroScalar]
  | .pmulG _ _ => [.unsupportedInfinity, .zeroScalar]
  | .pdec _ _ _ => [.noSquareRoot, .malformedEncoding]
  | .sign => [.noPrivateKey, .zeroScalar]
  | .verify => []

/-- The state after a command that completed without error: what 60_exceptions.md R193 writes, and nothing else. -/
def okState (s : State) (d : RegFile) (valid : Bool) (recid : BitVec 2) (diag : BitVec 4) : State :=
  { s with d := d,
           status := { s.status with busy := false, done := true, valid := valid, recid := recid, diag := diag },
           phase := .idle }

/-- The state after a command that completed with this error: no data register written (60_exceptions.md R190, R193). -/
def errState (s : State) (c : ErrCode) : State :=
  { s with status := { s.status with busy := false, done := true, err := true, errcode := c.code }, phase := .idle }

/-- The state after a command that put one scalar into `rd`. -/
def scalarState (s : State) (rd : Reg) (v : Nat) : State :=
  okState s (writeReg s.d rd (BitVec.ofNat 256 v)) false 0#2 0#4

/-- The state after a command that put one point into `PAIR(rd)`. -/
def pointState (s : State) (rd : Reg) (q : Point) : State :=
  okState s (writeReg (writeReg s.d rd (BitVec.ofNat 256 q.x)) (pairY rd) (BitVec.ofNat 256 q.y)) false 0#2 0#4

/-- The state after a command whose computation gives a point for `PAIR(rd)` or an error. -/
def pointOutcome (s : State) (rd : Reg) (r : Except ErrCode Point) : State :=
  match r with
  | .ok q => pointState s rd q
  | .error c => errState s c

/-! ### Arithmetic of the claims -/

/-- `v mod m`, the least non-negative residue of an exact integer (00_scope.md R8). -/
def residue (v : Int) (m : Nat) : Nat := (v % (m : Int)).toNat

/-! ### Points of the curve -/

/-- `q` has canonical coordinates and satisfies the curve equation (00_scope.md R2, R10). -/
def onCurve (q : Point) : Bool :=
  decide (q.x < Config.p) && decide (q.y < Config.p) &&
    q.y * q.y % Config.p == (q.x * q.x * q.x + Config.a * q.x + Config.b) % Config.p

/-- secp256k1 over the field of p elements, as Mathlib's Weierstrass curve (00_scope.md R2). -/
def secp256k1 : WeierstrassCurve.Affine (ZMod Config.p) := { a₁ := 0, a₂ := 0, a₃ := 0, a₄ := 0, a₆ := 7 }

/-- The affine pair `q`, both coordinates canonical, is the group element `P`, which is not the point at infinity
(00_scope.md R10). -/
def Rep (q : Point) (P : secp256k1.Point) : Prop :=
  q.x < Config.p ∧ q.y < Config.p ∧ ∃ h, P = .some (q.x : ZMod Config.p) (q.y : ZMod Config.p) h

end Sys2Proof.Machine
end

