-- ==== Sys2Proof/Certificates/Slice0/Obligations.lean ====
section
/-! DEFINITION. The statements for the provers, in the order of OBLIGATIONS.json. Each docstring names the rules of spec/ it
formalises. Operands of a command are read from `snap`, the registers as captured at acceptance (10_state.md R28); that
acceptance puts D into `snap` is `AcceptedCommandRunsToItsCompletion`. -/

open Sys2Proof Sys2Proof.Machine

/-! ### Reset, power and the reset pin -/

/-- 10_state.md R31: the value of every piece of state after reset, and that nothing reads `pending` and `snap`, which
have none, while the engine is idle: a step from an idle state does the same whatever they hold. -/
def Obligations.ResetLeavesTheListedValues : Prop :=
  ((∀ i, readReg State.reset.d i = 0#256) ∧ busRead State.reset idAddr = 0x4D4D0001#32 ∧ State.reset.ie = false ∧
    busRead State.reset ctrlAddr = 0#32 ∧ busRead State.reset statusAddr = 0#32 ∧ busRead State.reset cmdAddr = 0#32 ∧
    State.reset.irq = false ∧ State.reset.phase = .idle ∧
    ∀ c w, busRead State.reset (romAddr c w) = getWord c.value w) ∧
  ∀ (s : State) (p : Word) (q : RegFile), s.phase = .idle →
    ∃ t t', step s = .next t ∧ step { s with pending := p, snap := q } = .next t' ∧
      { t' with pending := t.pending, snap := t.snap } = t ∧ (t.phase = .running → t' = t)

/-- 70_reset_and_hazards.md R221: reset puts every register to its reset value in one step, whatever was going on. The
command in flight is abandoned: the engine's later turns change nothing, and every word of the window reads as after any
other reset, the ROM as before. (`pending` and `snap` have no value by R31; the model's is log 4.) -/
def Obligations.ResetAbandonsTheCommandInFlight : Prop :=
  ∀ (s : State) (rest : List Event), s.events = .rst false :: rest →
    ∃ t, step s = .next t ∧
      (∀ i, readReg t.d i = 0#256) ∧ t.ie = false ∧ t.status.word = 0#32 ∧ t.cmd = 0#32 ∧ t.phase = .idle ∧
      t.irq = false ∧ t.rstN = false ∧ t.events = rest ∧
      (∀ a, busRead t a = busRead State.reset a) ∧ (∀ c w, busRead t (romAddr c w) = busRead s (romAddr c w)) ∧
      ∀ more level, step { t with events := .engine :: more, rstN := level } =
        .next { t with events := more, rstN := level, rdata := none }

/-- 60_exceptions.md R206, 70_reset_and_hazards.md R220: a loss of power loses every register and ends as a reset. -/
def Obligations.PowerLossEndsAsReset : Prop :=
  ∀ (s : State) (rest : List Event), s.events = .powerCycle :: rest →
    step s = .next { State.reset with rstN := s.rstN, events := rest }

/-- 70_reset_and_hazards.md R220: while `rst_n` is low no bus transaction is accepted and no command completes; releasing the pin
changes nothing else. -/
def Obligations.NothingHappensWhileResetIsLow : Prop :=
  ∀ (s : State) (rest : List Event), s.rstN = false →
    (∀ a, s.events = .read a :: rest → step s = .next { s with events := rest, rdata := none }) ∧
    (∀ a v, s.events = .write a v :: rest → step s = .next { s with events := rest, rdata := none }) ∧
    (s.events = .engine :: rest → step s = .next { s with events := rest, rdata := none }) ∧
    (s.events = .rst true :: rest → step s = .next { s with events := rest, rdata := none, rstN := true })

/-- 70_reset_and_hazards.md R222: after reset the block is idle, the interrupt is masked, and the first command word written is
accepted at once. -/
def Obligations.BlockIsReadyAfterReset : Prop :=
  State.reset.status.busy = false ∧ State.reset.ie = false ∧
    (∀ st : Status, { State.reset with status := st }.irq = false) ∧
    ∀ (w : Word) (rest : List Event), legal w = true →
      ∃ t, step { State.reset with events := .write cmdAddr w :: rest } = .next t ∧
        t.cmd = w ∧ t.pending = w ∧ t.phase = .running ∧ t.status.busy = true ∧ t.events = rest

/-! ### Encoding -/

/-- 30_encoding.md R74, R77: words written out bit by bit from the pattern column, one of each command, and the three the
rule spells out, decode to the commands they stand for. -/
def Obligations.SpecWordsDecodeToTheirCommands : Prop :=
  decode 0x00102010#32 = .ok (.fadd .p 2 0 1) ∧
  decode 0x00106223#32 = .ok (.pmulG 6 1) ∧
  decode 0x03002024#32 = .ok (.pdec 2 0 0x03#8) ∧
  decode 0b00000000011101100101000100010001#32 = .ok (.fsub .n 5 6 7) ∧
  decode 0b00000000000100100011000000010010#32 = .ok (.fmul .p 3 2 1) ∧
  decode 0b00000000010000000111000100010011#32 = .ok (.mmul .n 7 0 4) ∧
  decode 0b00000000001100010000000000010100#32 = .ok (.fpow .p 0 1 3) ∧
  decode 0b00000000000001110001000100010101#32 = .ok (.finv .n 1 7) ∧
  decode 0b00000000000001010100000000010110#32 = .ok (.fsqrt 4 5) ∧
  decode 0b00000000000001000010000000100000#32 = .ok (.pdbl 2 4) ∧
  decode 0b00000000011000100100000000100001#32 = .ok (.padd 4 2 6) ∧
  decode 0b00000000000000100110000000100010#32 = .ok (.pneg 6 2) ∧
  decode 0b00000000010101000010000000100011#32 = .ok (.pmul 2 4 5) ∧
  decode 0b00000000000000000000000000110000#32 = .ok .sign ∧
  decode 0b00000000000000000000000000110001#32 = .ok .verify

/-- 30_encoding.md R70 to R74: decoding the word of a well-formed command gives the command back, for every command and
every operand the encoding admits. -/
def Obligations.DecodeOfEncodeIsTheCommand : Prop :=
  ∀ i : Instr, i.wf = true → decode (encode i) = .ok i

/-- 30_encoding.md R70, R74, R75: every word that decodes is the word of the command it decodes to, and that command is
well-formed. -/
def Obligations.EncodeOfDecodeIsTheWord : Prop :=
  ∀ (w : Word) (i : Instr), decode w = .ok i → i.wf = true ∧ encode i = w

/-- 30_encoding.md R74: a word is legal exactly when it matches exactly one row of the table, and a word that matches a row
decodes to the command of that row. -/
def Obligations.LegalWordMatchesExactlyOneRow : Prop :=
  (∀ w : Word, legal w = true ↔ ∃! o : Op, w &&& o.mask = o.pattern) ∧
  (∀ (w : Word) (o : Op), w &&& o.mask = o.pattern → decode w = .ok (o.build w)) ∧
  ∀ w : Word, legal w = true ↔ ∃ i, decode w = .ok i

/-- 30_encoding.md R75: a word is legal exactly when none of the defects the rule lists is found in it. -/
def Obligations.IllegalWordsAreThoseTheRuleLists : Prop :=
  ∀ w : Word, legal w = true ↔
    opcOf w ∈ [0x10#8, 0x11#8, 0x12#8, 0x13#8, 0x14#8, 0x15#8, 0x16#8,
      0x20#8, 0x21#8, 0x22#8, 0x23#8, 0x24#8, 0x30#8, 0x31#8] ∧
    (w.getLsbD 10 = false ∧ w.getLsbD 11 = false ∧ w.getLsbD 15 = false ∧ w.getLsbD 19 = false ∧
      w.getLsbD 23 = false) ∧
    (w.getLsbD 8 = true → opcOf w ≠ 0x16#8 ∧ opcOf w < 0x20#8) ∧
    (w.getLsbD 9 = true → opcOf w = 0x23#8 ∧ rs1Of w = 0) ∧
    (opcOf w ∈ [0x20#8, 0x21#8, 0x22#8, 0x23#8, 0x24#8] → (rdOf w).val % 2 = 0) ∧
    (opcOf w ∈ [0x20#8, 0x21#8, 0x22#8, 0x23#8] → (rs1Of w).val % 2 = 0) ∧
    (opcOf w = 0x21#8 → (rs2Of w).val % 2 = 0) ∧
    (opcOf w ∈ [0x15#8, 0x16#8, 0x20#8, 0x22#8, 0x24#8] → rs2Of w = 0) ∧
    (opcOf w ∈ [0x30#8, 0x31#8] → rdOf w = 0 ∧ rs1Of w = 0 ∧ rs2Of w = 0) ∧
    (opcOf w ≠ 0x24#8 → imm8Of w = 0#8)

/-! ### The register window -/

/-- 20_memory.md R51, R52, R57 with the registers' own rules: what a read of each byte offset of the window returns. -/
def Obligations.ReadsFollowTheAddressMap : Prop :=
  ∀ (s : State) (a : WordAddr),
    ((byteOffset a).toNat = 0x000 → busRead s a = 0x4D4D0001#32) ∧
    ((byteOffset a).toNat = 0x004 → busRead s a = ctrlWord s) ∧
    ((byteOffset a).toNat = 0x008 → busRead s a = s.status.word) ∧
    ((byteOffset a).toNat = 0x00C → busRead s a = s.cmd) ∧
    (0x010 ≤ (byteOffset a).toNat ∧ (byteOffset a).toNat ≤ 0x0FC → busRead s a = 0#32) ∧
    (∀ (i : Reg) (w : WordIndex), (byteOffset a).toNat = 0x100 + 0x20 * i.val + 4 * w.val →
      (busRead s a).toNat = (readReg s.d i).toNat / 2 ^ (224 - 32 * w.val) % 2 ^ 32) ∧
    (∀ w : WordIndex,
      ((byteOffset a).toNat = 0x200 + 4 * w.val → (busRead s a).toNat = Config.p / 2 ^ (224 - 32 * w.val) % 2 ^ 32) ∧
      ((byteOffset a).toNat = 0x220 + 4 * w.val → (busRead s a).toNat = Config.n / 2 ^ (224 - 32 * w.val) % 2 ^ 32) ∧
      ((byteOffset a).toNat = 0x240 + 4 * w.val → (busRead s a).toNat = Config.gx / 2 ^ (224 - 32 * w.val) % 2 ^ 32) ∧
      ((byteOffset a).toNat = 0x260 + 4 * w.val → (busRead s a).toNat = Config.gy / 2 ^ (224 - 32 * w.val) % 2 ^ 32) ∧
      ((byteOffset a).toNat = 0x280 + 4 * w.val →
        (busRead s a).toNat = 2 ^ 512 % Config.p / 2 ^ (224 - 32 * w.val) % 2 ^ 32) ∧
      ((byteOffset a).toNat = 0x2A0 + 4 * w.val →
        (busRead s a).toNat = 2 ^ 512 % Config.n / 2 ^ (224 - 32 * w.val) % 2 ^ 32)) ∧
    (0x2C0 ≤ (byteOffset a).toNat → busRead s a = 0#32)

/-- 10_state.md R24, R25: every field of STATUS and CTRL reads at its bits, and the reserved bits read as zero. -/
def Obligations.StatusAndCtrlReadByTheirBits : Prop :=
  (∀ st : Status,
    st.word.getLsbD 0 = st.busy ∧ st.word.getLsbD 1 = st.done ∧ st.word.getLsbD 2 = st.err ∧
    st.word.getLsbD 3 = st.valid ∧ st.word.getLsbD 4 = st.werr ∧ st.word.extractLsb' 5 3 = 0#3 ∧
    st.word.extractLsb' 8 4 = st.errcode ∧ st.word.extractLsb' 12 2 = st.recid ∧ st.word.extractLsb' 14 2 = 0#2 ∧
    st.word.extractLsb' 16 4 = st.diag ∧ st.word.extractLsb' 20 12 = 0#12) ∧
  ∀ s : State, (ctrlWord s).getLsbD 0 = s.ie ∧ (ctrlWord s).extractLsb' 1 31 = 0#31

/-- 20_memory.md R56, 92_eei_decisions.md D2: a read returns the word and changes nothing, so a second read returns the
same. -/
def Obligations.ReadsHaveNoSideEffect : Prop :=
  ∀ (s : State) (a b : WordAddr) (rest : List Event), s.rstN = true → s.events = .read a :: .read b :: rest →
    step s = .next { s with events := .read b :: rest, rdata := some (busRead s a) } ∧
    step { s with events := .read b :: rest, rdata := some (busRead s a) } =
      .next { s with events := rest, rdata := some (busRead s b) }

/-- 20_memory.md R52, R56: a write of a word of D[i] while idle stores that word, leaves every other word of every data
register as it was, and has no other effect. -/
def Obligations.WordWriteReplacesExactlyItsWord : Prop :=
  ∀ (s : State) (i : Reg) (w : WordIndex) (v : Word) (rest : List Event), s.rstN = true → s.status.busy = false →
    s.events = .write (dataAddr i w) v :: rest →
    ∃ d, step s = .next { s with d := d, events := rest, rdata := none } ∧
      (readReg d i).toNat / 2 ^ (224 - 32 * w.val) % 2 ^ 32 = v.toNat ∧
      ∀ (j : Reg) (u : WordIndex), ¬(j = i ∧ u = w) →
        (readReg d j).toNat / 2 ^ (224 - 32 * u.val) % 2 ^ 32 =
          (readReg s.d j).toNat / 2 ^ (224 - 32 * u.val) % 2 ^ 32

/-- 20_memory.md R57: reserved offsets read as 0 and ignore writes, ID and the ROM ignore writes, and no access stops the
machine. -/
def Obligations.ReservedAndConstantOffsetsIgnoreWrites : Prop :=
  (∀ (s : State) (a : WordAddr),
    (0x010 ≤ (byteOffset a).toNat ∧ (byteOffset a).toNat ≤ 0x0FC ∨ 0x2C0 ≤ (byteOffset a).toNat) →
    busRead s a = 0#32 ∧ ∀ v, busWrite a v s = s) ∧
  (∀ (s : State) (a : WordAddr),
    ((byteOffset a).toNat = 0 ∨ 0x200 ≤ (byteOffset a).toNat ∧ (byteOffset a).toNat ≤ 0x2BC) →
    ∀ v, busWrite a v s = s) ∧
  ∀ (s : State) (e : Event) (rest : List Event), e.isBus = true → s.events = e :: rest → ∃ t, step s = .next t

/-- 20_memory.md R58: while BUSY, D reads give the value at acceptance and D writes only set WERR; ID, CTRL, STATUS and the
ROM behave as while idle, but for ZEROIZE. -/
def Obligations.BusyBlockKeepsItsDataRegisters : Prop :=
  (∀ (s : State), Inv s → s.status.busy = true →
    (∀ (i : Reg) (w : WordIndex), busRead s (dataAddr i w) = getWord (readReg s.snap i) w) ∧
    ∀ (i : Reg) (w : WordIndex) (v : Word),
      busWrite (dataAddr i w) v s = { s with status := { s.status with werr := true } }) ∧
  ∀ (s : State) (a : WordAddr) (v : Word) (b : Bool),
    (a = idAddr ∨ a = ctrlAddr ∨ a = statusAddr ∨ ∃ c w, a = romAddr c w) →
    (a = ctrlAddr → v.getLsbD 1 = false) →
    busWrite a v { s with status := { s.status with busy := b } } =
      { busWrite a v s with status := { (busWrite a v s).status with busy := b } } ∧
    (a ≠ statusAddr → busRead { s with status := { s.status with busy := b } } a = busRead s a) ∧
    (busRead { s with status := { s.status with busy := b } } statusAddr).extractLsb' 1 31 =
      (busRead s statusAddr).extractLsb' 1 31

/-- 10_state.md R24: IE takes the written value on every CTRL write, busy or not; ZEROIZE = 1 clears D0 to D7 while idle and is
refused while busy; ZEROIZE = 0 and the other bits do nothing; CTRL reads IE alone, 0 after reset; `irq` is IE and DONE. -/
def Obligations.CtrlWriteSetsIeAndZeroizes : Prop :=
  State.reset.ie = false ∧
  (∀ s : State, s.irq = (s.ie && s.status.done) ∧
    ∀ a, (byteOffset a).toNat = 0x004 → (busRead s a).getLsbD 0 = s.ie ∧ (busRead s a).extractLsb' 1 31 = 0#31) ∧
  ∀ (s : State) (v : Word) (rest : List Event), s.rstN = true → s.events = .write ctrlAddr v :: rest →
    (v.getLsbD 1 = false →
      step s = .next { s with ie := v.getLsbD 0, events := rest, rdata := none }) ∧
    (v.getLsbD 1 = true → s.status.busy = false →
      ∃ d, (∀ i, readReg d i = 0#256) ∧
        step s = .next { s with ie := v.getLsbD 0, d := d, events := rest, rdata := none }) ∧
    (v.getLsbD 1 = true → s.status.busy = true →
      step s = .next { s with ie := v.getLsbD 0, status := { s.status with werr := true }, events := rest,
                              rdata := none })

/-- 10_state.md R25, last paragraph: a write to STATUS changes only DONE and WERR, and only where the written bit is 1. -/
def Obligations.StatusWriteClearsOnlyDoneAndWerr : Prop :=
  ∀ (s : State) (v : Word) (rest : List Event), s.rstN = true → s.events = .write statusAddr v :: rest →
    step s = .next { s with
      status := { s.status with done := if v.getLsbD 1 then false else s.status.done,
                                werr := if v.getLsbD 4 then false else s.status.werr },
      events := rest, rdata := none }

/-- 10_state.md R26: what a write to CMD does, in its three cases, and what a read of CMD returns. -/
def Obligations.CmdWriteAcceptsCompletesOrIsRefused : Prop :=
  State.reset.cmd = 0#32 ∧
  ∀ (s : State) (w : Word), (∀ a, (byteOffset a).toNat = 0x00C → busRead s a = s.cmd) ∧
    ∀ rest : List Event, s.rstN = true → s.events = .write cmdAddr w :: rest →
    (s.status.busy = true →
      step s = .next { s with status := { s.status with werr := true }, events := rest, rdata := none }) ∧
    (s.status.busy = false → legal w = false →
      step s = .next { s with
        cmd := w,
        status := { busy := false, done := true, err := true, valid := false, werr := s.status.werr,
                    errcode := 0xF#4, recid := 0#2, diag := 0#4 },
        events := rest, rdata := none }) ∧
    (s.status.busy = false → legal w = true →
      step s = .next { s with
        cmd := w,
        status := { busy := true, done := false, err := false, valid := false, werr := s.status.werr,
                    errcode := 0#4, recid := 0#2, diag := 0#4 },
        snap := s.d, pending := w, phase := .running, events := rest, rdata := none })

/-- 60_exceptions.md R196, R197: `irq` is IE and DONE; a completion and an illegal word raise it when IE is set; W1C of DONE and
an accepted command clear DONE and so lower it; IE masks and unmasks it at once without touching DONE. It rises and falls in no other way, a
reset apart. -/
def Obligations.IrqFollowsIeAndDone : Prop :=
  (∀ s : State, s.irq = true ↔ s.ie = true ∧ s.status.done = true) ∧
  (∀ (i : Instr) (s : State), ∃ t, exec i s = .next t ∧ t.irq = s.ie) ∧
  ∀ (s t : State), step s = .next t →
    (∀ w, acceptsNext s w → legal w = false → t.irq = s.ie) ∧
    (∀ w, acceptsNext s w → legal w = true → t.status.done = false ∧ t.irq = false) ∧
    (∀ v, writesNext s statusAddr v → v.getLsbD 1 = true → t.status.done = false ∧ t.irq = false) ∧
    (∀ v, writesNext s ctrlAddr v → t.ie = v.getLsbD 0 ∧ t.status.done = s.status.done ∧
      (v.getLsbD 0 = false → t.irq = false) ∧ (v.getLsbD 0 = true → s.status.done = true → t.irq = true)) ∧
    (s.irq = false → t.irq = true → completesNext s = true ∨ (∃ w, acceptsNext s w ∧ legal w = false) ∨
      ∃ v, writesNext s ctrlAddr v ∧ v.getLsbD 0 = true ∧ s.status.done = true) ∧
    (s.irq = true → t.irq = false → (∃ v, writesNext s statusAddr v ∧ v.getLsbD 1 = true) ∨ (∃ w, acceptsNext s w) ∨
      (∃ v, writesNext s ctrlAddr v ∧ v.getLsbD 0 = false) ∨ resetsNext s)

/-! ### Rules of the whole machine -/

/-- 10_state.md R25, the columns "set by" and "cleared by", over every step the invariant admits: no bit of STATUS changes in any
other way. -/
def Obligations.StatusBitsChangeOnlyAsListed : Prop :=
  ∀ s t : State, Inv s → step s = .next t →
    (s.status.busy = false → t.status.busy = true → ∃ w, acceptsNext s w ∧ legal w = true) ∧
    (s.status.busy = true → t.status.busy = false → completesNext s = true ∨ resetsNext s) ∧
    (s.status.done = false → t.status.done = true →
      completesNext s = true ∨ ∃ w, acceptsNext s w ∧ legal w = false) ∧
    (s.status.done = true → t.status.done = false →
      (∃ v, writesNext s statusAddr v ∧ v.getLsbD 1 = true) ∨ (∃ w, acceptsNext s w) ∨ resetsNext s) ∧
    (s.status.err = false → t.status.err = true →
      completesNext s = true ∨ ∃ w, acceptsNext s w ∧ legal w = false) ∧
    (s.status.err = true → t.status.err = false → (∃ w, acceptsNext s w) ∨ resetsNext s) ∧
    (s.status.valid = false → t.status.valid = true → completesNext s = true ∧ decode s.pending = .ok .verify) ∧
    (s.status.valid = true → t.status.valid = false → (∃ w, acceptsNext s w) ∨ resetsNext s) ∧
    (s.status.werr = false → t.status.werr = true → s.status.busy = true ∧
      ∃ a v, writesNext s a v ∧
        (a = cmdAddr ∨ (∃ i w, a = dataAddr i w) ∨ a = ctrlAddr ∧ v.getLsbD 1 = true)) ∧
    (s.status.werr = true → t.status.werr = false →
      (∃ v, writesNext s statusAddr v ∧ v.getLsbD 4 = true) ∨ resetsNext s) ∧
    (t.status.errcode ≠ s.status.errcode →
      (t.status.errcode ≠ 0#4 ∧ (completesNext s = true ∨ ∃ w, acceptsNext s w ∧ legal w = false)) ∨
      (t.status.errcode = 0#4 ∧ ((∃ w, acceptsNext s w) ∨ resetsNext s))) ∧
    (t.status.recid ≠ s.status.recid →
      (completesNext s = true ∧ decode s.pending = .ok .sign) ∨
      (t.status.recid = 0#2 ∧ ((∃ w, acceptsNext s w) ∨ resetsNext s))) ∧
    (t.status.diag ≠ s.status.diag →
      (completesNext s = true ∧ decode s.pending = .ok .verify ∧ t.status.valid = false) ∨
      (t.status.diag = 0#4 ∧ ((∃ w, acceptsNext s w) ∨ resetsNext s)))

/-- 10_state.md R21, 20_memory.md R58, 10_state.md R24, 60_exceptions.md R193, 70_reset_and_hazards.md R221: a data register
changes only by a host write to one of its words while idle, by ZEROIZE while idle, by the completion of a command whose
destination it is, or by reset. -/
def Obligations.DataRegistersChangeOnlyAsListed : Prop :=
  ∀ (s t : State) (i : Reg), step s = .next t → readReg t.d i ≠ readReg s.d i →
    (s.status.busy = false ∧ ∃ w v, writesNext s (dataAddr i w) v) ∨
    (s.status.busy = false ∧ ∃ v, writesNext s ctrlAddr v ∧ v.getLsbD 1 = true) ∨
    (completesNext s = true ∧ ∃ c, decode s.pending = .ok c ∧ i ∈ dests c) ∨
    resetsNext s

/-! ### The engine -/

/-- 60_exceptions.md R193: when the word in flight decodes to a command and it is the engine's turn, or no input is left (log 2),
the step is the execution of that command. -/
def Obligations.EngineStepRunsTheDecodedCommand : Prop :=
  ∀ (s : State) (i : Instr), s.rstN = true → s.phase = .running → decode s.pending = .ok i →
    (∀ rest, s.events = .engine :: rest → step s = exec i { s with events := rest, rdata := none }) ∧
    (s.events = [] → step s = exec i { s with rdata := none })

/-- 10_state.md R26, R28, 60_exceptions.md R193: the word of a well-formed command, written to CMD of an idle block, is accepted
with a snapshot of D, and the engine's next turn executes that command on it. -/
def Obligations.AcceptedCommandRunsToItsCompletion : Prop :=
  ∀ (s : State) (i : Instr) (rest : List Event), i.wf = true → s.rstN = true → s.status.busy = false →
    s.events = .write cmdAddr (encode i) :: .engine :: rest →
    ∃ u, step s = .next u ∧ u.snap = s.d ∧ u.d = s.d ∧ u.pending = encode i ∧ u.cmd = encode i ∧
      u.phase = .running ∧ u.status.busy = true ∧ u.events = .engine :: rest ∧
      step u = exec i { u with events := rest }

/-- 60_exceptions.md R193, 00_scope.md R9: completion is one step whose outcome is a function of the command and the snapshot
alone. It writes the destination registers of the command, or none and a code the command may raise, and STATUS, and nothing
else. -/
def Obligations.CompletionIsAFunctionOfCommandAndSnapshot : Prop :=
  ∃ f : Instr → RegFile → ExecResult, ∀ (i : Instr) (s : State),
    match f i s.snap with
    | .ok e =>
      e.writes.map (fun x => x.1) = dests i ∧
      exec i s = .next (okState s (applyWrites e.writes s.d) e.valid e.recid e.diag)
    | .error c => c ∈ mayRaise i ∧ exec i s = .next (errState s c)

/-- 60_exceptions.md R190, R191: the numbers of the error codes; a command that completes with an error leaves every data register
and shows ERR with a code it may raise, and one that completes without leaves ERR and ERRCODE as acceptance left them. -/
def Obligations.FailedCommandWritesNoRegister : Prop :=
  [ErrCode.none, .notInvertible, .noSquareRoot, .unsupportedInfinity, .malformedEncoding, .noPrivateKey, .zeroScalar,
    .outOfRange, .malformedSignature, .invalidRecoveryFlag, .weakRandomSource, .illegalCommand].map
      (fun c => c.code.toNat) = [0x0, 0x1, 0x2, 0x3, 0x4, 0x5, 0x6, 0x7, 0x8, 0x9, 0xA, 0xF] ∧
  ∀ (i : Instr) (s : State), s.status.err = false → s.status.errcode = 0#4 →
    ∃ t, exec i s = .next t ∧
      (t.status.err = true → t.d = s.d ∧ ∃ c ∈ mayRaise i, t.status.errcode = c.code) ∧
      (t.status.err = false → t.status.errcode = 0#4)

/-- 60_exceptions.md R192: the seven commands that never raise an error. -/
def Obligations.SevenCommandsNeverRaise : Prop :=
  ∀ (i : Instr) (s : State), i.op ∈ [Op.fadd, .fsub, .fmul, .mmul, .fpow, .pneg, .verify] →
    ∃ t, exec i s = .next t ∧ t.status.err = s.status.err ∧ t.status.errcode = s.status.errcode ∧
      t.status.done = true ∧ t.status.busy = false

/-- 60_exceptions.md R193, 10_state.md R24 to R28: the frame of every command. IE, CMD, WERR, the hidden registers, the pin, the
read data and the inputs to come stay, and in the window every word but STATUS and the words of the destination registers
reads as before. -/
def Obligations.CommandsChangeOnlyStatusAndDestinations : Prop :=
  ∀ (i : Instr) (s : State), ∃ t, exec i s = .next t ∧
    t.status.busy = false ∧ t.status.done = true ∧ t.phase = .idle ∧
    t.ie = s.ie ∧ t.cmd = s.cmd ∧ t.status.werr = s.status.werr ∧ t.pending = s.pending ∧ t.snap = s.snap ∧
    t.rstN = s.rstN ∧ t.rdata = s.rdata ∧ t.events = s.events ∧
    (∀ r, r ∉ dests i → readReg t.d r = readReg s.d r) ∧
    ∀ a, a ≠ statusAddr → (∀ r ∈ dests i, ∀ w, a ≠ dataAddr r w) → busRead t a = busRead s a

/-- 60_exceptions.md R193, 10_state.md R28, 20_memory.md R58: whatever the host reads and writes while a command runs, the command
ends with the same D, CMD and STATUS (WERR apart) as if nothing had happened. -/
def Obligations.OutcomeIgnoresBusActivity : Prop :=
  ∀ (s : State) (es : List Event), Inv s → s.phase = .running → (∀ e ∈ es, e.isBus = true) →
    ∃ t t0, Runs (es.length + 1) { s with events := es ++ [.engine] } t ∧
      Runs 1 { s with events := [.engine] } t0 ∧
      t.d = t0.d ∧ t.cmd = t0.cmd ∧ { t.status with werr := t0.status.werr } = t0.status ∧
      t.phase = .idle ∧ t0.phase = .idle

/-! ### Field arithmetic -/

/-- 40_field.md R101. -/
def Obligations.FaddAddsModuloM : Prop :=
  (∀ w : Word, w &&& 0xFF888EFF#32 = 0x00000010#32 →
    decode w = .ok (.fadd (modOf w) (rdOf w) (rs1Of w) (rs2Of w))) ∧
  (∀ (m : Modulus) (rd rs1 rs2 : Reg) (s : State),
    let a := (readReg s.snap rs1).toNat % modulusOf m
    let b := (readReg s.snap rs2).toNat % modulusOf m
    a + b < 2 * modulusOf m ∧
    exec (.fadd m rd rs1 rs2) s = .next (scalarState s rd ((a + b) % modulusOf m))) ∧
  (2 ^ 256 - 1) % Config.p = 0x1000003D0 ∧ (Config.p - 1 + 1) % Config.p = 0

/-- 40_field.md R102. -/
def Obligations.FsubSubtractsModuloM : Prop :=
  (∀ w : Word, w &&& 0xFF888EFF#32 = 0x00000011#32 →
    decode w = .ok (.fsub (modOf w) (rdOf w) (rs1Of w) (rs2Of w))) ∧
  ∀ (m : Modulus) (rd rs1 rs2 : Reg) (s : State),
    let a := (readReg s.snap rs1).toNat % modulusOf m
    let b := (readReg s.snap rs2).toNat % modulusOf m
    exec (.fsub m rd rs1 rs2) s = .next (scalarState s rd (residue ((a : Int) - b) (modulusOf m))) ∧
    (a < b → residue ((a : Int) - b) (modulusOf m) + b = a + modulusOf m) ∧
    (rs1 = rs2 → exec (.fsub m rd rs1 rs2) s = .next (scalarState s rd 0))

/-- 40_field.md R103. -/
def Obligations.FmulMultipliesModuloM : Prop :=
  (∀ w : Word, w &&& 0xFF888EFF#32 = 0x00000012#32 →
    decode w = .ok (.fmul (modOf w) (rdOf w) (rs1Of w) (rs2Of w))) ∧
  (∀ (m : Modulus) (rd rs1 rs2 : Reg) (s : State),
    let a := (readReg s.snap rs1).toNat % modulusOf m
    let b := (readReg s.snap rs2).toNat % modulusOf m
    exec (.fmul m rd rs1 rs2) s = .next (scalarState s rd (a * b % modulusOf m))) ∧
  (Config.p - 1) * (Config.p - 1) % Config.p = 1 ∧ (Config.n - 1) * 2 % Config.n = Config.n - 2

/-- 40_field.md R104: the result v is the one value below m with v·2^256 ≡ a·b (mod m). -/
def Obligations.MmulGivesTheMontgomeryProduct : Prop :=
  (∀ w : Word, w &&& 0xFF888EFF#32 = 0x00000013#32 →
    decode w = .ok (.mmul (modOf w) (rdOf w) (rs1Of w) (rs2Of w))) ∧
  ∀ (m : Modulus) (rd rs1 rs2 : Reg) (s : State),
    let a := (readReg s.snap rs1).toNat % modulusOf m
    let b := (readReg s.snap rs2).toNat % modulusOf m
    ∃ v, v < modulusOf m ∧ v * 2 ^ 256 % modulusOf m = a * b % modulusOf m ∧
      (∀ u, u < modulusOf m → u * 2 ^ 256 % modulusOf m = a * b % modulusOf m → u = v) ∧
      exec (.mmul m rd rs1 rs2) s = .next (scalarState s rd v)

/-- 40_field.md R104 (corner cases), 30_encoding.md R78, 10_state.md R27: TOMONT with R2P or R2N gives x·2^256 mod m, FROMMONT
takes it back, and MMUL multiplies within the domain. -/
def Obligations.MontgomeryDomainRoundTrip : Prop :=
  ∀ (m : Modulus) (rd rs r : Reg) (s : State) (x : Nat),
    ((readReg s.snap rs).toNat % modulusOf m = x % modulusOf m →
      readReg s.snap r = (radixConst m).value →
      exec (toMont m rd rs r) s = .next (scalarState s rd (x * 2 ^ 256 % modulusOf m))) ∧
    ((readReg s.snap rs).toNat = x * 2 ^ 256 % modulusOf m → readReg s.snap r = 1#256 →
      exec (fromMont m rd rs r) s = .next (scalarState s rd (x % modulusOf m))) ∧
    ∀ y, (readReg s.snap rs).toNat = x * 2 ^ 256 % modulusOf m → (readReg s.snap r).toNat = y * 2 ^ 256 % modulusOf m →
      exec (.mmul m rd rs r) s = .next (scalarState s rd (x * y * 2 ^ 256 % modulusOf m))

/-- 40_field.md R105: the exponent is not reduced, and a^0 is 1 for every a. -/
def Obligations.FpowRaisesToTheUnreducedExponent : Prop :=
  (∀ w : Word, w &&& 0xFF888EFF#32 = 0x00000014#32 →
    decode w = .ok (.fpow (modOf w) (rdOf w) (rs1Of w) (rs2Of w))) ∧
  ∀ (m : Modulus) (rd rs1 rs2 : Reg) (s : State),
    let a := (readReg s.snap rs1).toNat % modulusOf m
    let e := (readReg s.snap rs2).toNat
    exec (.fpow m rd rs1 rs2) s = .next (scalarState s rd (a ^ e % modulusOf m)) ∧
    (e = 0 → exec (.fpow m rd rs1 rs2) s = .next (scalarState s rd 1)) ∧
    (a = 0 → e ≠ 0 → exec (.fpow m rd rs1 rs2) s = .next (scalarState s rd 0)) ∧
    (a ≠ 0 → exec (.fpow m rd rs1 rs2) s = .next (scalarState s rd (a ^ (e % (modulusOf m - 1)) % modulusOf m)))

/-- 40_field.md R106: NOT_INVERTIBLE exactly for operands that reduce to 0, and otherwise the one inverse. -/
def Obligations.FinvInvertsOrRaises : Prop :=
  (∀ w : Word, w &&& 0xFFF88EFF#32 = 0x00000015#32 → decode w = .ok (.finv (modOf w) (rdOf w) (rs1Of w))) ∧
  ∀ (m : Modulus) (rd rs1 : Reg) (s : State),
    let a := (readReg s.snap rs1).toNat % modulusOf m
    (Nat.gcd a (modulusOf m) ≠ 1 ↔ a = 0) ∧
    (a = 0 → exec (.finv m rd rs1) s = .next (errState s .notInvertible)) ∧
    (a ≠ 0 → ∃ v, 1 ≤ v ∧ v < modulusOf m ∧ a * v % modulusOf m = 1 ∧
      (∀ u, u < modulusOf m → a * u % modulusOf m = 1 → u = v) ∧
      exec (.finv m rd rs1) s = .next (scalarState s rd v))

/-- 40_field.md R107: NO_SQUARE_ROOT exactly when the operand is not a square modulo p, and otherwise the root a^((p+1)/4). -/
def Obligations.FsqrtFindsTheRootOrRaises : Prop :=
  (∀ w : Word, w &&& 0xFFF88FFF#32 = 0x00000016#32 → decode w = .ok (.fsqrt (rdOf w) (rs1Of w))) ∧
  ∀ (rd rs1 : Reg) (s : State) (e : Nat), 4 * e = Config.p + 1 →
    let a := (readReg s.snap rs1).toNat % Config.p
    let c := a ^ e % Config.p
    (c * c % Config.p = a → exec (.fsqrt rd rs1) s = .next (scalarState s rd c)) ∧
    (c * c % Config.p ≠ a → exec (.fsqrt rd rs1) s = .next (errState s .noSquareRoot)) ∧
    (c * c % Config.p = a ↔ ∃ r, r * r % Config.p = a) ∧
    (a = 0 → exec (.fsqrt rd rs1) s = .next (scalarState s rd 0))

/-- 40_field.md R108: the result of every field command is canonical, and no field command sets VALID, RECID or DIAG. -/
def Obligations.FieldResultsAreCanonical : Prop :=
  ∀ (i : Instr) (s : State) (m : Modulus) (rd : Reg),
    (∃ rs1 rs2, i = .fadd m rd rs1 rs2 ∨ i = .fsub m rd rs1 rs2 ∨ i = .fmul m rd rs1 rs2 ∨ i = .mmul m rd rs1 rs2 ∨
      i = .fpow m rd rs1 rs2 ∨ i = .finv m rd rs1 ∨ (m = .p ∧ i = .fsqrt rd rs1)) →
    s.status.noOutcome →
    ∃ t, exec i s = .next t ∧ t.status.valid = false ∧ t.status.recid = 0#2 ∧ t.status.diag = 0#4 ∧
      t.status.done = true ∧
      (t.status.err = false → (readReg t.d rd).toNat < modulusOf m ∧ t.status.errcode = 0#4) ∧
      (t.status.err = true → t.d = s.d)

/-! ### Curve arithmetic -/

/-- 41_curve.md R131, R130: the formulas of doubling, on any point, on the curve or off it. -/
def Obligations.PdblDoublesByTheFormula : Prop :=
  (∀ w : Word, w &&& 0xFFF99FFF#32 = 0x00000020#32 → decode w = .ok (.pdbl (rdOf w) (rs1Of w))) ∧
  ∀ (rd rs1 : Reg) (s : State), (Instr.pdbl rd rs1).wf = true →
    let x := (readReg s.snap rs1).toNat % Config.p
    let y := (readReg s.snap (rs1 + 1)).toNat % Config.p
    (y = 0 → exec (.pdbl rd rs1) s = .next (errState s .unsupportedInfinity)) ∧
    (y ≠ 0 → ∃ lam, lam < Config.p ∧ lam * (2 * y) % Config.p = (3 * x ^ 2 + Config.a) % Config.p ∧
      let x' := residue ((lam : Int) ^ 2 - 2 * x) Config.p
      let y' := residue ((lam : Int) * ((x : Int) - x') - y) Config.p
      exec (.pdbl rd rs1) s = .next (pointState s rd { x := x', y := y' })) ∧
    (onCurve { x := x, y := y } = true → y ≠ 0)

/-- 41_curve.md R132, R130: the four cases of addition in the rule's order, on any points. -/
def Obligations.PaddAddsByTheFourCases : Prop :=
  (∀ w : Word, w &&& 0xFF999FFF#32 = 0x00000021#32 → decode w = .ok (.padd (rdOf w) (rs1Of w) (rs2Of w))) ∧
  ∀ (rd rs1 rs2 : Reg) (s : State), (Instr.padd rd rs1 rs2).wf = true →
    let x1 := (readReg s.snap rs1).toNat % Config.p
    let y1 := (readReg s.snap (rs1 + 1)).toNat % Config.p
    let x2 := (readReg s.snap rs2).toNat % Config.p
    let y2 := (readReg s.snap (rs2 + 1)).toNat % Config.p
    (x1 = x2 ∧ y1 = y2 → exec (.padd rd rs1 rs2) s = exec (.pdbl rd rs1) s) ∧
    (x1 = x2 ∧ y1 ≠ y2 ∧ (y1 + y2) % Config.p = 0 →
      exec (.padd rd rs1 rs2) s = .next (errState s .unsupportedInfinity)) ∧
    (Nat.gcd (residue ((x1 : Int) - x2) Config.p) Config.p ≠ 1 ↔ x1 = x2) ∧
    (x1 = x2 ∧ y1 ≠ y2 ∧ (y1 + y2) % Config.p ≠ 0 →
      exec (.padd rd rs1 rs2) s = .next (errState s .unsupportedInfinity) ∧
      ¬(onCurve { x := x1, y := y1 } = true ∧ onCurve { x := x2, y := y2 } = true)) ∧
    (x1 ≠ x2 → ∃ lam, lam < Config.p ∧
      residue ((lam : Int) * ((x2 : Int) - x1)) Config.p = residue ((y2 : Int) - y1) Config.p ∧
      let x3 := residue ((lam : Int) ^ 2 - x1 - x2) Config.p
      let y3 := residue ((lam : Int) * ((x1 : Int) - x3) - y1) Config.p
      exec (.padd rd rs1 rs2) s = .next (pointState s rd { x := x3, y := y3 }))

/-- 41_curve.md R133: negation, and that the sum of a point and its negation raises UNSUPPORTED_INFINITY. -/
def Obligations.PnegNegates : Prop :=
  (∀ w : Word, w &&& 0xFFF99FFF#32 = 0x00000022#32 → decode w = .ok (.pneg (rdOf w) (rs1Of w))) ∧
  ∀ (rd rs1 : Reg) (s : State), (Instr.pneg rd rs1).wf = true →
    let x := (readReg s.snap rs1).toNat % Config.p
    let y := (readReg s.snap (rs1 + 1)).toNat % Config.p
    exec (.pneg rd rs1) s = .next (pointState s rd { x := x, y := (Config.p - y) % Config.p }) ∧
    (y = 0 → exec (.pneg rd rs1) s = .next (pointState s rd { x := x, y := 0 })) ∧
    ∀ (rs2 : Reg), rs2.isPair = true → (readReg s.snap rs2).toNat % Config.p = x →
      (readReg s.snap (rs2 + 1)).toNat % Config.p = (Config.p - y) % Config.p →
      exec (.padd rd rs1 rs2) s = .next (errState s .unsupportedInfinity)

/-- 41_curve.md R134: PMUL applies PMUL_f to the unreduced scalar, and PMUL_f is double-and-add from the most significant bit: it
is given by its values at 0 and 1 and by its steps, with PDBL_f and PADD_f the functions PDBL and PADD apply. -/
def Obligations.PmulIsDoubleAndAdd : Prop :=
  (∀ w : Word, w &&& 0xFF899FFF#32 = 0x00000023#32 → decode w = .ok (.pmul (rdOf w) (rs1Of w) (rs2Of w))) ∧
  (∀ w : Word, w &&& 0xFF8F9FFF#32 = 0x00000223#32 → decode w = .ok (.pmulG (rdOf w) (rs2Of w))) ∧
  (∀ (rd rs1 rs2 : Reg) (s : State), (Instr.padd rd rs1 rs2).wf = true →
    let q1 : Point := { x := (readReg s.snap rs1).toNat % Config.p, y := (readReg s.snap (rs1 + 1)).toNat % Config.p }
    let q2 : Point := { x := (readReg s.snap rs2).toNat % Config.p, y := (readReg s.snap (rs2 + 1)).toNat % Config.p }
    exec (.pdbl rd rs1) s = .next (pointOutcome s rd (pdblF q1)) ∧
    exec (.padd rd rs1 rs2) s = .next (pointOutcome s rd (paddF q1 q2))) ∧
  (∀ (rd rs1 rs2 : Reg) (s : State), (Instr.pmul rd rs1 rs2).wf = true →
    let q : Point := { x := (readReg s.snap rs1).toNat % Config.p, y := (readReg s.snap (rs1 + 1)).toNat % Config.p }
    exec (.pmul rd rs1 rs2) s = .next (pointOutcome s rd (pmulF (readReg s.snap rs2).toNat q))) ∧
  (∀ (rd rs2 : Reg) (s : State), (Instr.pmulG rd rs2).wf = true →
    exec (.pmulG rd rs2) s =
      .next (pointOutcome s rd (pmulF (readReg s.snap rs2).toNat { x := Config.gx, y := Config.gy }))) ∧
  ∀ q : Point, pmulF 0 q = .error .zeroScalar ∧ pmulF 1 q = .ok q ∧
    ∀ k, k ≠ 0 →
      pmulF (2 * k) q = (pmulF k q).bind pdblF ∧
      pmulF (2 * k + 1) q = ((pmulF k q).bind pdblF).bind (fun d => paddF d q)

/-- 41_curve.md R135: PMUL on a point of the curve, for every 256-bit scalar, in both forms. -/
def Obligations.PmulOnTheCurveIsTheGroupMultiple : Prop :=
  ∀ _ : Fact (Nat.Prime Config.p),
    (∀ P : secp256k1.Point, P ≠ 0 → addOrderOf P = Config.n) ∧
    (∀ k, k ≠ 0 → k < 2 ^ 256 → Config.n ∣ k → k = Config.n) ∧
    ∀ (i : Instr) (rd rs1 rs2 : Reg) (s : State) (q : Point), i.wf = true → onCurve q = true →
      (i = .pmul rd rs1 rs2 ∧ q.x = (readReg s.snap rs1).toNat % Config.p ∧
          q.y = (readReg s.snap (rs1 + 1)).toNat % Config.p ∨
        i = .pmulG rd rs2 ∧ q.x = Config.gx ∧ q.y = Config.gy) →
      let k := (readReg s.snap rs2).toNat
      (k = 0 → exec i s = .next (errState s .zeroScalar)) ∧
      (k = Config.n → exec i s = .next (errState s .unsupportedInfinity)) ∧
      (k ≠ 0 → k ≠ Config.n → ∃ P r, Rep q P ∧ Rep r ((k % Config.n) • P) ∧ exec i s = .next (pointState s rd r))

/-- 41_curve.md R131 to R133, 00_scope.md R10: on points of the curve PDBL doubles, PADD adds and PNEG negates in the group of
secp256k1, and UNSUPPORTED_INFINITY is raised exactly where the result is the point at infinity. -/
def Obligations.PointCommandsAreTheGroupLaw : Prop :=
  ∀ (_ : Fact (Nat.Prime Config.p)) (rd rs1 rs2 : Reg) (s : State) (P Q : secp256k1.Point),
    (Instr.padd rd rs1 rs2).wf = true →
    Rep { x := (readReg s.snap rs1).toNat % Config.p, y := (readReg s.snap (rs1 + 1)).toNat % Config.p } P →
    Rep { x := (readReg s.snap rs2).toNat % Config.p, y := (readReg s.snap (rs2 + 1)).toNat % Config.p } Q →
    (∃ r, Rep r (P + P) ∧ exec (.pdbl rd rs1) s = .next (pointState s rd r)) ∧
    (∃ r, Rep r (-P) ∧ exec (.pneg rd rs1) s = .next (pointState s rd r)) ∧
    (P + Q = 0 → exec (.padd rd rs1 rs2) s = .next (errState s .unsupportedInfinity)) ∧
    (P + Q ≠ 0 → ∃ r, Rep r (P + Q) ∧ exec (.padd rd rs1 rs2) s = .next (pointState s rd r))

/-! ### Point decompression -/

/-- 42_codec.md R160, with the checks in the order of 60_exceptions.md R194. -/
def Obligations.PdecDecompressesOrRaises : Prop :=
  (∀ w : Word, w &&& 0x00F89FFF#32 = 0x00000024#32 → decode w = .ok (.pdec (rdOf w) (rs1Of w) (imm8Of w))) ∧
  ∀ (rd rs1 : Reg) (pfx : BitVec 8) (s : State), (Instr.pdec rd rs1 pfx).wf = true →
    let x := (readReg s.snap rs1).toNat
    let c := (x ^ 3 + Config.a * x + Config.b) % Config.p
    (pfx ≠ 0x02#8 ∧ pfx ≠ 0x03#8 → exec (.pdec rd rs1 pfx) s = .next (errState s .malformedEncoding)) ∧
    (pfx = 0x02#8 ∨ pfx = 0x03#8 → Config.p ≤ x →
      exec (.pdec rd rs1 pfx) s = .next (errState s .malformedEncoding)) ∧
    (pfx = 0x02#8 ∨ pfx = 0x03#8 → x < Config.p → (¬∃ r, r * r % Config.p = c) →
      exec (.pdec rd rs1 pfx) s = .next (errState s .noSquareRoot)) ∧
    (pfx = 0x02#8 ∨ pfx = 0x03#8 → x < Config.p → (∃ r, r * r % Config.p = c) →
      ∃ y, 0 < y ∧ y < Config.p ∧ y * y % Config.p = c ∧ y % 2 = pfx.toNat - 2 ∧
        (∀ z, z < Config.p → z * z % Config.p = c → z % 2 = pfx.toNat - 2 → z = y) ∧
        onCurve { x := x, y := y } = true ∧
        exec (.pdec rd rs1 pfx) s = .next (pointState s rd { x := x, y := y }))

/-- 42_codec.md R161: the prefix a host forms is 0x02 + y[0], and PDEC of the compressed form of any point of the curve gives
the point back. -/
def Obligations.PdecOfTheCompressedPointIsThePoint : Prop :=
  ∀ (q : Point) (rd rs1 : Reg) (s : State), onCurve q = true → rd.isPair = true → (readReg s.snap rs1).toNat = q.x →
    compressPrefix q = BitVec.ofNat 8 (2 + q.y % 2) ∧
    exec (.pdec rd rs1 (compressPrefix q)) s = .next (pointState s rd q)

/-! ### ECDSA -/

/-- 43_ecdsa.md R170, R171: SIGN, with the key's range checked first and the nonce reduced. -/
def Obligations.SignComputesTheSignature : Prop :=
  (∀ w : Word, w &&& 0xFFFFFFFF#32 = 0x00000030#32 → decode w = .ok .sign) ∧
  ∀ (_ : Fact (Nat.Prime Config.p)) (s : State),
    let d := (readReg s.snap 0).toNat
    let k := (readReg s.snap 1).toNat
    let t := (readReg s.snap 2).toNat % Config.n
    (¬(1 ≤ k ∧ k ≤ Config.n - 1) → exec .sign s = .next (errState s .noPrivateKey)) ∧
    (1 ≤ k ∧ k ≤ Config.n - 1 → t = 0 → exec .sign s = .next (errState s .zeroScalar)) ∧
    (1 ≤ k ∧ k ≤ Config.n - 1 → t ≠ 0 →
      ∃ G q S, Rep { x := Config.gx, y := Config.gy } G ∧ Rep q (t • G) ∧
        S < Config.n ∧ t * S % Config.n = (d + k * (q.x % Config.n)) % Config.n ∧
        exec .sign s = .next (okState s
          (writeReg (writeReg s.d 3 (BitVec.ofNat 256 (q.x % Config.n))) 4 (BitVec.ofNat 256 S)) false
          (BitVec.ofNat 2 (2 * (if Config.n ≤ q.x then 1 else 0) + q.y % 2)) 0#4))

/-- 43_ecdsa.md R172, on any public key: VERIFY writes VALID and DIAG only, with the code of the first step that fails, in the
order of 60_exceptions.md R194. -/
def Obligations.VerifyReportsInValidAndDiag : Prop :=
  (∀ w : Word, w &&& 0xFFFFFFFF#32 = 0x00000031#32 → decode w = .ok .verify) ∧
  ∀ s : State,
    let d := (readReg s.snap 0).toNat
    let r := (readReg s.snap 3).toNat
    let s' := (readReg s.snap 4).toNat % Config.n
    let q : Point := { x := (readReg s.snap 6).toNat % Config.p, y := (readReg s.snap 7).toNat % Config.p }
    (s' = 0 → exec .verify s = .next (okState s s.d false 0#2 ErrCode.notInvertible.code)) ∧
    (s' ≠ 0 → ∃ w, w < Config.n ∧ s' * w % Config.n = 1 ∧
      exec .verify s = .next
        (match pmulF (d * w % Config.n) { x := Config.gx, y := Config.gy } with
        | .error e => okState s s.d false 0#2 e.code
        | .ok a =>
          match pmulF (r * w % Config.n) q with
          | .error e => okState s s.d false 0#2 e.code
          | .ok b =>
            match paddF a b with
            | .error e => okState s s.d false 0#2 e.code
            | .ok c => okState s s.d (c.x % Config.n == r) 0#2 0#4)) ∧
    (s' ≠ 0 → d % Config.n = 0 → exec .verify s = .next (okState s s.d false 0#2 ErrCode.zeroScalar.code)) ∧
    (s' ≠ 0 → r % Config.n = 0 → d % Config.n ≠ 0 →
      exec .verify s = .next (okState s s.d false 0#2 ErrCode.zeroScalar.code)) ∧
    (Config.n ≤ r → ∃ diag, exec .verify s = .next (okState s s.d false 0#2 diag))

/-- 43_ecdsa.md R172 with 41_curve.md R135: on a public key of the curve VERIFY accepts exactly when the x coordinate of
u1·G + u2·Q, taken modulo n, is R. -/
def Obligations.VerifyOnTheCurveChecksTheEquation : Prop :=
  ∀ (_ : Fact (Nat.Prime Config.p)) (s : State) (G Q : secp256k1.Point) (w : Nat),
    Rep { x := Config.gx, y := Config.gy } G →
    Rep { x := (readReg s.snap 6).toNat % Config.p, y := (readReg s.snap 7).toNat % Config.p } Q →
    w < Config.n → (readReg s.snap 4).toNat % Config.n * w % Config.n = 1 →
    let d := (readReg s.snap 0).toNat
    let r := (readReg s.snap 3).toNat
    let P := (d * w % Config.n) • G + (r * w % Config.n) • Q
    d % Config.n ≠ 0 → r % Config.n ≠ 0 →
    (P = 0 → exec .verify s = .next (okState s s.d false 0#2 ErrCode.unsupportedInfinity.code)) ∧
    (P ≠ 0 → ∃ c, Rep c P ∧ exec .verify s = .next (okState s s.d (c.x % Config.n == r) 0#2 0#4))

/-- 43_ecdsa.md R174: VERIFY of what SIGN gives, with the public key PUBKEY gives. -/
def Obligations.VerifyAcceptsWhatSignGives : Prop :=
  ∀ s u v s' u' : State,
    let d := readReg s.snap 0
    let k := (readReg s.snap 1).toNat
    let t := (readReg s.snap 2).toNat
    1 ≤ k → k ≤ Config.n - 1 → t % Config.n ≠ 0 →
    exec .sign s = .next s' →
    readReg u.snap 1 = readReg s.snap 1 → exec (pubkey 6 1) u = .next u' →
    readReg v.snap 0 = d → readReg v.snap 3 = readReg s'.d 3 → readReg v.snap 4 = readReg s'.d 4 →
    readReg v.snap 6 = readReg u'.d 6 → readReg v.snap 7 = readReg u'.d 7 →
    let good := readReg s'.d 3 ≠ 0#256 ∧ readReg s'.d 4 ≠ 0#256 ∧ d.toNat % Config.n ≠ 0
    (good → exec .verify v = .next (okState v v.d true 0#2 0#4)) ∧
    (¬good → ∃ c ∈ [ErrCode.zeroScalar, .notInvertible], exec .verify v = .next (okState v v.d false 0#2 c.code))

/-- 43_ecdsa.md R172 (corner cases), on a public key of the curve: (R, n − S) verifies whenever (R, S) does, and S and S + n verify
alike. -/
def Obligations.NegatedSignatureVerifiesToo : Prop :=
  ∀ u v t : State, onCurve { x := (readReg u.snap 6).toNat % Config.p, y := (readReg u.snap 7).toNat % Config.p } = true →
    exec .verify u = .next t → t.status.valid = true →
    (∀ i : Reg, i ≠ 4 → readReg v.snap i = readReg u.snap i) →
    ((readReg v.snap 4).toNat + (readReg u.snap 4).toNat) % Config.n = 0 ∨
      (readReg v.snap 4).toNat % Config.n = (readReg u.snap 4).toNat % Config.n →
    exec .verify v = .next (okState v v.d true 0#2 0#4)

/-! ### Invariants of the block -/

/-- 10_state.md R31: the state after reset satisfies the invariant. -/
def Obligations.ResetSatisfiesInvariant : Prop := Inv State.reset

/-- The invariant of `Inv` (10_state.md R25, R26, R28, 60_exceptions.md R190, R191, R193, 43_ecdsa.md R172,
70_reset_and_hazards.md R221) is kept by every step. -/
def Obligations.EveryStepKeepsInvariant : Prop :=
  ∀ s t : State, Inv s → step s = .next t → Inv t

/-- 20_memory.md R57, 60_exceptions.md R190, 93_implementation_defined.md: no state that satisfies the invariant faults or refuses:
the model's one fault is out of reach (log 10). -/
def Obligations.InvariantStatesNeverStop : Prop := ∀ s : State, Inv s → Safe s

/-- 70_reset_and_hazards.md R225, R227: a run over a program's transactions takes every one of them and then ends with no command
in flight, in the step after the last input at the latest (log 2). -/
def Obligations.ProgramsEndWithNoCommandInFlight : Prop :=
  ∀ s : State, Inv s → ∃ t, Runs (s.events.length + 1) s t ∧ Inv t ∧ t.events = [] ∧
    t.status.busy = false ∧ t.phase = .idle

/-! ### Constants and host programs -/

/-- 00_scope.md R3, 10_state.md R27, 30_encoding.md R72: the facts about the domain parameters that the rules use. -/
def Obligations.DomainParametersAreConsistent : Prop :=
  Nat.Prime Config.p ∧ Nat.Prime Config.n ∧ Config.p = 2 ^ 256 - 2 ^ 32 - 977 ∧ Config.a = 0 ∧ Config.b = 7 ∧
  Config.p % 4 = 3 ∧ Config.n % 4 = 1 ∧ Config.p % 3 = 1 ∧ 2 ^ 256 < 2 * Config.p ∧ 2 ^ 256 < 2 * Config.n ∧
  Config.p < 2 ^ 256 ∧ Config.n < 2 ^ 256 ∧
  onCurve { x := Config.gx, y := Config.gy } = true ∧
  pmulF (Config.n - 1) { x := Config.gx, y := Config.gy } = .ok { x := Config.gx, y := Config.p - Config.gy } ∧
  pmulF Config.n { x := Config.gx, y := Config.gy } = .error .unsupportedInfinity ∧
  (¬∃ x, x ^ 3 % Config.p = Config.p - 7) ∧
  modulusOf .p = Config.p ∧ modulusOf .n = Config.n ∧ Config.idWord = 0x4D4D0001#32

/-- 30_encoding.md R78, 20_memory.md R52: LD256 puts a value into D[i], LDC puts a ROM constant there, and each changes no other
register. -/
def Obligations.LoadProgramsFillOneRegister : Prop :=
  ∀ (s : State) (i : Reg) (rest : List Event), s.rstN = true → s.status.busy = false →
    (∀ v : Value, s.events = ld256 i v ++ rest →
      Runs 8 s { s with d := writeReg s.d i v, events := rest, rdata := none }) ∧
    ∀ c : RomConst, s.events = ldc i c ++ rest →
      Runs 16 s { s with d := writeReg s.d i c.value, events := rest, rdata := none }

/-- 30_encoding.md R78, 20_memory.md R60, 60_exceptions.md R193: EXEC of a well-formed command whose completion falls after k polls
of WAITDONE ends with DONE read as 1, the command's effect in place, and the following read of a word of D returning its
result. -/
def Obligations.ExecProgramEndsWithDoneRead : Prop :=
  ∀ (s : State) (i : Instr) (k : Nat) (r : Reg) (w : WordIndex) (rest : List Event),
    i.wf = true → s.rstN = true → s.status.busy = false →
    s.events = execCmd i k ++ .read (dataAddr r w) :: rest →
    ∃ u t t' x, Runs (k + 1) s u ∧ u.status.busy = true ∧ u.snap = s.d ∧ exec i u = .next x ∧
      Runs (k + 3) s t ∧ t.status = x.status ∧ t.d = x.d ∧ t.rdata = some x.status.word ∧
      x.status.word.getLsbD 1 = true ∧
      Runs (k + 4) s t' ∧ t'.rdata = some (getWord (readReg x.d r) w)

/-- 30_encoding.md R78, 20_memory.md R52, R56: ST256, the eight reads in the order of their offsets with the words read
concatenated most significant first, gives the value of D[i] while idle and while busy, and changes nothing but the read data;
the block returns those words to the reads of `st256` one by one; after LD256 of a value it gives that value. LDC, each of
whose writes takes the word just read, puts the ROM constant into D[i] of an idle block and changes no other register. -/
def Obligations.StoreProgramsReturnTheRegister : Prop :=
  (∀ (s : State) (i : Reg), s.rstN = true →
    ∃ t, store256 i s = some (readReg s.d i, t) ∧ { t with rdata := s.rdata } = s) ∧
  (∀ (s : State) (i : Reg) (rest : List Event), s.rstN = true → s.events = st256 i ++ rest →
    ∀ w : WordIndex, ∃ t, Runs (w.val + 1) s t ∧ t.rdata = some (getWord (readReg s.d i) w) ∧
      { t with rdata := s.rdata, events := s.events } = s) ∧
  (∀ (s : State) (i : Reg) (v : Value) (rest : List Event), s.rstN = true → s.status.busy = false →
    s.events = ld256 i v ++ rest → ∃ t u, Runs 8 s t ∧ store256 i t = some (v, u)) ∧
  ∀ (s : State) (i : Reg) (c : RomConst), s.rstN = true → s.status.busy = false →
    loadConst i c s = some { s with d := writeReg s.d i c.value, rdata := none }

/-- 30_encoding.md R78, 70_reset_and_hazards.md R225, 60_exceptions.md R193: WAITDONE is left only by a poll that read DONE = 1,
whatever others do between the polls; while DONE is 0 its polls go on and change the read data alone; and EXEC of a
well-formed command on an idle block keeps polling for any number k of polls, and is left by the first poll after the
completion, with the effect of the command on the captured D in place. One step of the engine, by its turn or with no input
left, stands for LAT (log 2, 20). -/
def Obligations.WaitdoneLoopsUntilDoneIsRead : Prop :=
  (∀ (gaps : List Nat) (s u : State), waitDone gaps s = .left u →
    u.rdata = some u.status.word ∧ u.status.word.getLsbD 1 = true ∧ u.status.done = true) ∧
  (∀ (s : State) (k : Nat), s.rstN = true → s.status.done = false →
    ∃ u, waitDone (List.replicate k 0) s = .looping u ∧ { u with rdata := s.rdata } = s) ∧
  ∀ (s : State) (i : Instr) (k : Nat) (more : List Nat), i.wf = true → s.rstN = true → s.status.busy = false →
    (s.events = [] ∨ ∃ rest, s.events = .engine :: rest) →
    ∃ u v x, transact (.write cmdAddr (encode i)) s = .next u ∧ u.snap = s.d ∧ u.status.busy = true ∧
      execHost i (List.replicate k 0) s = .looping v ∧ v.status = u.status ∧
      exec i { u with events := s.events.tail } = .next x ∧
      execHost i (List.replicate k 0 ++ 1 :: more) s = .left { x with rdata := some x.status.word }
end

