-- ==== Sys2Proof/Laws/Arith.lean ====
section
/-! SUPPORT. The evaluable definitions of Field.lean compute what 40_field.md says they compute: the power is `a^e mod m`,
the difference is the residue of the exact difference, and the inverse is the inverse. -/

namespace Sys2Proof.Machine

/-! ### Residues -/

theorem addMod_lt {m : Nat} (hm : 0 < m) (a b : Nat) : addMod m a b < m := Nat.mod_lt _ hm
theorem subMod_lt {m : Nat} (hm : 0 < m) (a b : Nat) : subMod m a b < m := Nat.mod_lt _ hm
theorem mulMod_lt {m : Nat} (hm : 0 < m) (a b : Nat) : mulMod m a b < m := Nat.mod_lt _ hm

theorem addMod_cast (m a b : Nat) : ((addMod m a b : Nat) : ZMod m) = (a : ZMod m) + b := by
  rw [addMod, ZMod.natCast_mod, Nat.cast_add]

theorem mulMod_cast (m a b : Nat) : ((mulMod m a b : Nat) : ZMod m) = (a : ZMod m) * b := by
  rw [mulMod, ZMod.natCast_mod, Nat.cast_mul]

theorem subMod_cast {m : Nat} (hm : 0 < m) (a b : Nat) : ((subMod m a b : Nat) : ZMod m) = (a : ZMod m) - b := by
  have hb : b % m ≤ m := (Nat.mod_lt b hm).le
  rw [subMod, ZMod.natCast_mod, Nat.cast_add, Nat.cast_sub hb, ZMod.natCast_mod, ZMod.natCast_self]
  ring

/-- The difference is the least non-negative residue of the exact difference (00_scope.md R8). -/
theorem subMod_int {m : Nat} (hm : 0 < m) (a b : Nat) : ((subMod m a b : Nat) : Int) = ((a : Int) - b) % m := by
  have hb : b % m ≤ m := (Nat.mod_lt b hm).le
  have e : ((m - b % m : Nat) : Int) = (m : Int) - (b : Int) % m := by rw [Nat.cast_sub hb, Int.natCast_mod]
  rw [subMod, Int.natCast_mod, Nat.cast_add, e, Int.emod_def (b : Int)]
  have : (a : Int) + (m - (b - m * (b / m))) = (a - b) + m * (1 + b / m) := by ring
  rw [this, Int.add_mul_emod_self_left]

/-! ### The constants R2P and R2N -/

/-- R2P is 2^512 mod p (10_state.md R27). -/
theorem r2p_eq : 2 ^ 512 % Config.p = Config.r2p := by decide +kernel

/-- R2N is 2^512 mod n (10_state.md R27). -/
theorem r2n_eq : 2 ^ 512 % Config.n = Config.r2n := by decide +kernel

/-! ### Power -/

/-- The bits of k from i on are twice those from i + 1 on, and bit i. -/
theorem shiftRight_split (k i : Nat) : k >>> i = 2 * (k >>> (i + 1)) + (k.testBit i).toNat := by
  rw [Nat.shiftRight_succ, Nat.testBit_eq_decide_div_mod_eq, ← Nat.shiftRight_eq_div_pow]
  rcases Nat.mod_two_eq_zero_or_one (k >>> i) with h0 | h0 <;> simp [h0] <;> omega

/-- The accumulator of the loop is the power by the bits of the exponent taken so far. -/
theorem powLoop_eq (m a e : Nat) (bits : Nat) :
    ∀ acc, acc = a ^ (e >>> bits) % m → powLoop m a e bits acc = a ^ e % m := by
  induction bits with
  | zero => intro acc h; simpa [powLoop] using h
  | succ bits ih =>
    intro acc h
    have hsq : acc * acc % m = a ^ (2 * (e >>> (bits + 1))) % m := by
      rw [h, ← Nat.mul_mod, ← pow_add, two_mul]
    rw [powLoop]
    split
    · next h0 =>
      have hd : m ∣ a ^ (e >>> (bits + 1)) := Nat.dvd_of_mod_eq_zero (by rw [← h, h0])
      have hle : e >>> (bits + 1) ≤ e := by rw [Nat.shiftRight_eq_div_pow]; exact Nat.div_le_self _ _
      exact (Nat.mod_eq_zero_of_dvd (hd.trans (pow_dvd_pow a hle))).symm
    · refine ih _ ?_
      rw [shiftRight_split e bits]
      cases e.testBit bits with
      | false => simpa using hsq
      | true => rw [if_pos rfl, hsq, Nat.mod_mul_mod, ← pow_succ]; rfl

/-- `a^e mod m` for every 256-bit exponent (40_field.md R105). -/
theorem powMod_eq (m a : Nat) {e : Nat} (he : e < 2 ^ 256) : powMod m a e = a ^ e % m := by
  refine powLoop_eq m a e 256 _ ?_
  rw [Nat.shiftRight_eq_div_pow, Nat.div_eq_of_lt he, pow_zero]

/-! ### Inverse -/

/-- The invariant of the extended Euclidean algorithm: with enough fuel it ends at the gcd, with its coefficient. -/
theorem euclid_spec (m a : Nat) (hm : 1 < m) (fuel : Nat) :
    ∀ r0 t0 r1 t1 : Nat, 0 < r0 → r1 ≤ r0 → r0 * r1 < 2 ^ fuel → t0 < m → t1 < m →
      (t0 * a : ZMod m) = r0 → (t1 * a : ZMod m) = r1 →
      euclid m fuel r0 t0 r1 t1 < m ∧
      ((euclid m fuel r0 t0 r1 t1 : Nat) * a : ZMod m) = (Nat.gcd r0 r1 : Nat) := by
  induction fuel with
  | zero =>
    intro r0 t0 r1 t1 h0 _ hf ht0 _ e0 _
    have : r1 = 0 := by
      rcases Nat.eq_zero_or_pos r1 with h | h
      · exact h
      · have := Nat.mul_pos h0 h; omega
    subst this
    simpa [euclid] using And.intro ht0 e0
  | succ fuel ih =>
    intro r0 t0 r1 t1 h0 hle hf ht0 ht1 e0 e1
    rw [euclid]
    split
    · next h => subst h; simpa using And.intro ht0 e0
    · next h =>
      have h1 : 0 < r1 := Nat.pos_of_ne_zero h
      have hmod : r0 % r1 < r1 := Nat.mod_lt _ h1
      have hdiv := Nat.div_add_mod r0 r1
      have hq : 1 ≤ r0 / r1 := Nat.div_pos hle h1
      have hhalf : 2 * (r0 % r1) ≤ r0 := by nlinarith
      have hprod : r1 * (r0 % r1) < 2 ^ fuel := by
        have : r1 * (2 * (r0 % r1)) ≤ r1 * r0 := Nat.mul_le_mul_left _ hhalf
        rw [pow_succ] at hf
        nlinarith
      have hnew : ((subMod m t0 (r0 / r1 * t1) : Nat) * a : ZMod m) = (r0 % r1 : Nat) := by
        rw [subMod_cast (by omega), sub_mul, e0, Nat.cast_mul, mul_assoc, e1]
        have := congrArg (Nat.cast : Nat → ZMod m) hdiv
        push_cast at this
        rw [← this]; ring
      have := ih r1 t1 (r0 % r1) _ h1 hmod.le hprod ht1 (subMod_lt (by omega) _ _) e1 hnew
      rwa [Nat.gcd_comm r0 r1, Nat.gcd_rec r1 r0, Nat.gcd_comm]

/-- `inv_m(a)` is the inverse of a modulo m (00_scope.md R8, 40_field.md R106). -/
theorem invMod_spec {m a : Nat} (hm : 1 < m) (hb : m < 2 ^ 256) (hg : Nat.gcd a m = 1) :
    invMod m a < m ∧ (invMod m a : ZMod m) * a = 1 := by
  have hlt : a % m < m := Nat.mod_lt _ (by omega)
  have hf : m * (a % m) < 2 ^ 512 := by
    have : m * (a % m) < 2 ^ 256 * 2 ^ 256 := Nat.mul_lt_mul'' hb (by omega)
    calc _ < _ := this
      _ = 2 ^ 512 := by rw [← pow_add]
  have h := euclid_spec m (a % m) hm 512 m 0 (a % m) 1 (by omega) hlt.le hf (by omega) hm (by simp) (by simp)
  have hg' : Nat.gcd m (a % m) = 1 := by rw [Nat.gcd_comm, ← Nat.gcd_rec, Nat.gcd_comm]; exact hg
  refine ⟨h.1, ?_⟩
  have h2 := h.2
  rw [hg', ZMod.natCast_mod] at h2
  simpa [invMod] using h2

/-- The same, in natural numbers. -/
theorem invMod_mul {m a : Nat} (hm : 1 < m) (hb : m < 2 ^ 256) (hg : Nat.gcd a m = 1) :
    a * invMod m a % m = 1 := by
  have h := (invMod_spec hm hb hg).2
  have : ((a * invMod m a : Nat) : ZMod m) = (1 : Nat) := by push_cast; rw [mul_comm]; simpa using h
  rw [ZMod.natCast_eq_natCast_iff, Nat.ModEq, Nat.mod_eq_of_lt hm] at this
  exact this

/-- The inverse lies in [1, m − 1] (00_scope.md R8). -/
theorem invMod_pos {m a : Nat} (hm : 1 < m) (hb : m < 2 ^ 256) (hg : Nat.gcd a m = 1) : 0 < invMod m a := by
  rcases Nat.eq_zero_or_pos (invMod m a) with h | h
  · have := invMod_mul hm hb hg; rw [h] at this; simp at this
  · exact h

end Sys2Proof.Machine
end

