-- ==== Sys2Proof/Laws/Primes.lean ====
section
/-! SUPPORT. p and n are prime (00_scope.md R3), each by a Lucas certificate: an element of order m − 1 modulo m, the prime
factors of m − 1, and certificates for those. The powers are computed by the model's own `powMod`. -/

namespace Sys2Proof.Machine

set_option Elab.async false

/-- The checks of a Lucas certificate: the factors multiply to m − 1, and `a` has order exactly m − 1. -/
def lucasCheck (m a : Nat) (fs : List Nat) : Bool :=
  fs.prod == m - 1 && powMod m a (m - 1) == 1 && fs.all (fun q => powMod m a ((m - 1) / q) != 1)

/-- A certificate whose factors are prime proves its number prime. -/
theorem prime_of_lucas {m a : Nat} {fs : List Nat} (hm : 1 < m) (hb : m < 2 ^ 256) (hp : ∀ q ∈ fs, q.Prime)
    (hc : lucasCheck m a fs = true) : m.Prime := by
  simp only [lucasCheck, Bool.and_eq_true, beq_iff_eq, List.all_eq_true, bne_iff_ne, ne_eq] at hc
  obtain ⟨⟨hprod, h1⟩, h2⟩ := hc
  have hpow : ∀ e, e < 2 ^ 256 → ((a : ZMod m) ^ e = 1 ↔ powMod m a e = 1) := by
    intro e he
    rw [powMod_eq m a he, ← Nat.cast_pow, ← Nat.cast_one, ZMod.natCast_eq_natCast_iff, Nat.ModEq,
      Nat.mod_eq_of_lt hm]
  refine lucas_primality m (a : ZMod m) ((hpow _ (by omega)).2 h1) fun q hq hd => ?_
  rw [← hprod] at hd
  obtain ⟨r, hr, hqr⟩ := (hq.prime.dvd_prod_iff).1 hd
  obtain rfl := (Nat.prime_dvd_prime_iff_eq hq (hp r hr)).1 hqr
  have hle : (m - 1) / q ≤ m - 1 := Nat.div_le_self _ _
  exact fun h => h2 q hr ((hpow _ (by omega)).1 h)

theorem prime_173378833005251801 : Nat.Prime 173378833005251801 := by
  refine prime_of_lucas (a := 6)
    (fs := [2, 2, 2, 5, 5, 2621, 24809, 13331831])
    (by decide +kernel) (by decide +kernel) ?_ (by decide +kernel)
  simp only [List.forall_mem_cons, List.not_mem_nil, false_implies, implies_true, and_true]
  exact ⟨by norm_num, by norm_num, by norm_num, by norm_num, by norm_num, by norm_num, by norm_num, by norm_num⟩

theorem prime_22149492674086928081353 : Nat.Prime 22149492674086928081353 := by
  refine prime_of_lucas (a := 5)
    (fs := [2, 2, 2, 3, 5323, 173378833005251801])
    (by decide +kernel) (by decide +kernel) ?_ (by decide +kernel)
  simp only [List.forall_mem_cons, List.not_mem_nil, false_implies, implies_true, and_true]
  exact ⟨by norm_num, by norm_num, by norm_num, by norm_num, by norm_num, prime_173378833005251801⟩

theorem prime_132896956044521568488119 : Nat.Prime 132896956044521568488119 := by
  refine prime_of_lucas (a := 6)
    (fs := [2, 3, 22149492674086928081353])
    (by decide +kernel) (by decide +kernel) ?_ (by decide +kernel)
  simp only [List.forall_mem_cons, List.not_mem_nil, false_implies, implies_true, and_true]
  exact ⟨by norm_num, by norm_num, prime_22149492674086928081353⟩

theorem prime_255515944373312847190720520512484175977 : Nat.Prime 255515944373312847190720520512484175977 := by
  refine prime_of_lucas (a := 3)
    (fs := [2, 2, 2, 7, 7, 11, 1627, 2657, 4423, 41201, 96557, 7240687, 107590001])
    (by decide +kernel) (by decide +kernel) ?_ (by decide +kernel)
  simp only [List.forall_mem_cons, List.not_mem_nil, false_implies, implies_true, and_true]
  exact ⟨by norm_num, by norm_num, by norm_num, by norm_num, by norm_num, by norm_num, by norm_num, by norm_num,
    by norm_num, by norm_num, by norm_num, by norm_num, by norm_num⟩

theorem prime_205115282021455665897114700593932402728804164701536103180137503955397371 :
    Nat.Prime 205115282021455665897114700593932402728804164701536103180137503955397371 := by
  refine prime_of_lucas (a := 10)
    (fs := [2, 3, 5, 29, 29, 31, 7723, 132896956044521568488119, 255515944373312847190720520512484175977])
    (by decide +kernel) (by decide +kernel) ?_ (by decide +kernel)
  simp only [List.forall_mem_cons, List.not_mem_nil, false_implies, implies_true, and_true]
  exact ⟨by norm_num, by norm_num, by norm_num, by norm_num, by norm_num, by norm_num, by norm_num,
    prime_132896956044521568488119, prime_255515944373312847190720520512484175977⟩

/-- The field modulus is prime (00_scope.md R3). -/
theorem p_prime : Config.p.Prime := by
  refine prime_of_lucas (a := 3)
    (fs := [2, 3, 7, 13441, 205115282021455665897114700593932402728804164701536103180137503955397371])
    (by decide +kernel) (by decide +kernel) ?_ (by decide +kernel)
  simp only [List.forall_mem_cons, List.not_mem_nil, false_implies, implies_true, and_true]
  exact ⟨by norm_num, by norm_num, by norm_num, by norm_num,
    prime_205115282021455665897114700593932402728804164701536103180137503955397371⟩

theorem prime_107361793816595537 : Nat.Prime 107361793816595537 := by
  refine prime_of_lucas (a := 3)
    (fs := [2, 2, 2, 2, 16699, 85831, 4681609])
    (by decide +kernel) (by decide +kernel) ?_ (by decide +kernel)
  simp only [List.forall_mem_cons, List.not_mem_nil, false_implies, implies_true, and_true]
  exact ⟨by norm_num, by norm_num, by norm_num, by norm_num, by norm_num, by norm_num, by norm_num⟩

theorem prime_174723607534414371449 : Nat.Prime 174723607534414371449 := by
  refine prime_of_lucas (a := 3)
    (fs := [2, 2, 2, 17, 59, 4051, 120233, 44706919])
    (by decide +kernel) (by decide +kernel) ?_ (by decide +kernel)
  simp only [List.forall_mem_cons, List.not_mem_nil, false_implies, implies_true, and_true]
  exact ⟨by norm_num, by norm_num, by norm_num, by norm_num, by norm_num, by norm_num, by norm_num, by norm_num⟩

theorem prime_545358713 : Nat.Prime 545358713 := by
  refine prime_of_lucas (a := 5)
    (fs := [2, 2, 2, 41, 59, 28181])
    (by decide +kernel) (by decide +kernel) ?_ (by decide +kernel)
  simp only [List.forall_mem_cons, List.not_mem_nil, false_implies, implies_true, and_true]
  exact ⟨by norm_num, by norm_num, by norm_num, by norm_num, by norm_num, by norm_num⟩

theorem prime_297159362677 : Nat.Prime 297159362677 := by
  refine prime_of_lucas (a := 2)
    (fs := [2, 2, 3, 3, 11, 461, 1627771])
    (by decide +kernel) (by decide +kernel) ?_ (by decide +kernel)
  simp only [List.forall_mem_cons, List.not_mem_nil, false_implies, implies_true, and_true]
  exact ⟨by norm_num, by norm_num, by norm_num, by norm_num, by norm_num, by norm_num, by norm_num⟩

theorem prime_29047611873442575647497758179 : Nat.Prime 29047611873442575647497758179 := by
  refine prime_of_lucas (a := 2)
    (fs := [2, 293, 305873, 545358713, 297159362677])
    (by decide +kernel) (by decide +kernel) ?_ (by decide +kernel)
  simp only [List.forall_mem_cons, List.not_mem_nil, false_implies, implies_true, and_true]
  exact ⟨by norm_num, by norm_num, by norm_num, prime_545358713, prime_297159362677⟩

theorem prime_341948486974166000522343609283189 : Nat.Prime 341948486974166000522343609283189 := by
  refine prime_of_lucas (a := 2)
    (fs := [2, 2, 3, 3, 3, 109, 29047611873442575647497758179])
    (by decide +kernel) (by decide +kernel) ?_ (by decide +kernel)
  simp only [List.forall_mem_cons, List.not_mem_nil, false_implies, implies_true, and_true]
  exact ⟨by norm_num, by norm_num, by norm_num, by norm_num, by norm_num, by norm_num,
    prime_29047611873442575647497758179⟩

/-- The group order is prime (00_scope.md R3). -/
theorem n_prime : Config.n.Prime := by
  refine prime_of_lucas (a := 7)
    (fs := [2, 2, 2, 2, 2, 2, 3, 149, 631, 107361793816595537, 174723607534414371449,
      341948486974166000522343609283189])
    (by decide +kernel) (by decide +kernel) ?_ (by decide +kernel)
  simp only [List.forall_mem_cons, List.not_mem_nil, false_implies, implies_true, and_true]
  exact ⟨by norm_num, by norm_num, by norm_num, by norm_num, by norm_num, by norm_num, by norm_num, by norm_num,
    by norm_num, prime_107361793816595537, prime_174723607534414371449, prime_341948486974166000522343609283189⟩

end Sys2Proof.Machine
end

