-- ==== Sys2Proof/Laws/Group.lean ====
section
/-! SUPPORT. The point functions of Curve.lean against Mathlib's group of the curve y² = x³ + 7 over the field of p
elements: on points of the curve PDBL_f doubles, PADD_f adds, PNEG_f negates and PMUL_f multiplies, and they fail exactly
where the result would be the point at infinity. The group has n elements (41_curve.md R135). -/

namespace Sys2Proof.Machine

set_option Elab.async false

open WeierstrassCurve.Affine

theorem p_pos : 0 < Config.p := by decide
theorem one_lt_p : 1 < Config.p := by decide
theorem p_lt : Config.p < 2 ^ 256 := by decide
theorem n_pos : 0 < Config.n := by decide
theorem one_lt_n : 1 < Config.n := by decide
theorem n_lt : Config.n < 2 ^ 256 := by decide
theorem n_lt_p : Config.n < Config.p := by decide

theorem Rep.ne_zero {q : Point} {P : secp256k1.Point} (h : Rep q P) : P ≠ 0 := by
  obtain ⟨-, -, hn, rfl⟩ := h
  exact Point.some_ne_zero hn

theorem Rep.inj {q : Point} {P Q : secp256k1.Point} (hP : Rep q P) (hQ : Rep q Q) : P = Q := by
  obtain ⟨-, -, hn, rfl⟩ := hP
  obtain ⟨-, -, hn', rfl⟩ := hQ
  rfl

section

variable [Fact (Nat.Prime Config.p)]

theorem two_ne_zero_p : (2 : ZMod Config.p) ≠ 0 := by
  have h : ((2 : Nat) : ZMod Config.p) ≠ 0 := by
    rw [Ne, ZMod.natCast_eq_zero_iff]; decide
  exact_mod_cast h

theorem cast_eq_iff {a b : Nat} (ha : a < Config.p) (hb : b < Config.p) :
    (a : ZMod Config.p) = b ↔ a = b := by
  rw [ZMod.natCast_eq_natCast_iff, Nat.ModEq, Nat.mod_eq_of_lt ha, Nat.mod_eq_of_lt hb]

theorem cast_eq_zero {a : Nat} (ha : a < Config.p) : (a : ZMod Config.p) = 0 ↔ a = 0 := by
  simpa using cast_eq_iff ha p_pos

theorem gcd_p {a : Nat} (ha : (a : ZMod Config.p) ≠ 0) : Nat.gcd a Config.p = 1 := by
  rw [Nat.gcd_comm]
  refine (Nat.coprime_or_dvd_of_prime p_prime a).resolve_right fun h => ha ?_
  rwa [ZMod.natCast_eq_zero_iff]

theorem invMod_cast {a : Nat} (ha : (a : ZMod Config.p) ≠ 0) :
    (invMod Config.p a : ZMod Config.p) = (a : ZMod Config.p)⁻¹ :=
  eq_inv_of_mul_eq_one_left (invMod_spec one_lt_p p_lt (gcd_p ha)).2

theorem negY_secp (x y : ZMod Config.p) : secp256k1.negY x y = -y := by
  simp [WeierstrassCurve.Affine.negY, secp256k1]

theorem equation_secp (x y : ZMod Config.p) : secp256k1.Equation x y ↔ y * y = x * x * x + 7 := by
  rw [equation_iff]; simp [secp256k1]; constructor <;> intro h <;> linear_combination h

/-- No point of the curve has y = 0: −7 is not a cube modulo p (00_scope.md R3). -/
theorem y_ne_zero {x y : ZMod Config.p} (h : secp256k1.Equation x y) : y ≠ 0 := by
  rintro rfl
  rw [equation_secp] at h
  have h3 : x ^ 3 = (Config.p - 7 : Nat) := by
    rw [Nat.cast_sub (by decide), ZMod.natCast_self]
    push_cast; linear_combination -h
  have hx : x ≠ 0 := by
    rintro rfl
    have : ((7 : Nat) : ZMod Config.p) = 0 := by push_cast; linear_combination -h
    rw [ZMod.natCast_eq_zero_iff] at this
    revert this; decide
  have hf : x ^ (Config.p - 1) = 1 := ZMod.pow_card_sub_one_eq_one hx
  have he : Config.p - 1 = 3 * ((Config.p - 1) / 3) := by decide
  rw [he, pow_mul, h3, ← Nat.cast_pow] at hf
  have hf1 : (((Config.p - 7) ^ ((Config.p - 1) / 3) : Nat) : ZMod Config.p) = (1 : Nat) := hf.trans Nat.cast_one.symm
  rw [ZMod.natCast_eq_natCast_iff, Nat.ModEq, ← powMod_eq _ _ (by decide)] at hf1
  revert hf1
  decide +kernel

theorem nonsingular_secp {x y : ZMod Config.p} (h : secp256k1.Equation x y) : secp256k1.Nonsingular x y := by
  rw [nonsingular_iff]
  refine ⟨h, .inr fun hy => y_ne_zero h ?_⟩
  simp only [secp256k1, zero_mul, sub_zero] at hy
  have : 2 * y = 0 := by linear_combination hy
  exact (mul_eq_zero.1 this).resolve_left two_ne_zero_p

/-! ### Representation -/

theorem onCurve_iff (q : Point) : onCurve q = true ↔
    q.x < Config.p ∧ q.y < Config.p ∧ secp256k1.Equation (q.x : ZMod Config.p) q.y := by
  simp only [onCurve, Bool.and_eq_true, decide_eq_true_eq, beq_iff_eq, and_assoc]
  rw [equation_secp]
  have : q.y * q.y % Config.p = (q.x * q.x * q.x + Config.a * q.x + Config.b) % Config.p ↔
      (q.y * q.y : ZMod Config.p) = q.x * q.x * q.x + 7 := by
    rw [← Nat.ModEq, ← ZMod.natCast_eq_natCast_iff]
    simp [Config.a, Config.b]
  rw [this]

theorem exists_rep {q : Point} (h : onCurve q = true) : ∃ P, Rep q P := by
  obtain ⟨hx, hy, he⟩ := (onCurve_iff q).1 h
  exact ⟨_, hx, hy, nonsingular_secp he, rfl⟩

theorem Rep.onCurve {q : Point} {P : secp256k1.Point} (h : Rep q P) : onCurve q = true := by
  obtain ⟨hx, hy, hn, -⟩ := h
  exact (onCurve_iff q).2 ⟨hx, hy, hn.1⟩

theorem Rep.unique {q r : Point} {P : secp256k1.Point} (hq : Rep q P) (hr : Rep r P) : q = r := by
  obtain ⟨hx, hy, hn, rfl⟩ := hq
  obtain ⟨hx', hy', hn', e⟩ := hr
  rw [Point.some.injEq, cast_eq_iff hx hx', cast_eq_iff hy hy'] at e
  cases q; cases r; simp_all

/-- Every point but the one at infinity has an affine pair. -/
theorem exists_affine {P : secp256k1.Point} (h : P ≠ 0) : ∃ q, Rep q P := by
  cases P with
  | zero => exact absurd rfl h
  | some x y hn =>
    refine ⟨⟨x.val, y.val⟩, ZMod.val_lt x, ZMod.val_lt y, ?_⟩
    simpa only [ZMod.natCast_val, ZMod.cast_id', id_eq, exists_prop, and_true] using hn

/-! ### Negation, doubling, addition -/

theorem pnegF_rep {q : Point} {P : secp256k1.Point} (h : Rep q P) : Rep (pnegF q) (-P) := by
  obtain ⟨hx, hy, hn, rfl⟩ := h
  have hc : (((Config.p - q.y) % Config.p : Nat) : ZMod Config.p) = secp256k1.negY q.x q.y := by
    rw [ZMod.natCast_mod, Nat.cast_sub hy.le, ZMod.natCast_self, negY_secp, zero_sub]
  refine ⟨hx, Nat.mod_lt _ p_pos, ?_⟩
  simp only [pnegF, hc]
  exact ⟨(nonsingular_neg ..).2 hn, rfl⟩

/-- The last two lines of doubling and addition are Mathlib's, for the slope of the two points. -/
theorem chord_rep {lam : Nat} {q1 q2 : Point} {h1 : secp256k1.Nonsingular (q1.x : ZMod Config.p) q1.y}
    {h2 : secp256k1.Nonsingular (q2.x : ZMod Config.p) q2.y}
    (hxy : ¬((q1.x : ZMod Config.p) = q2.x ∧ (q1.y : ZMod Config.p) = secp256k1.negY q2.x q2.y))
    (hl : (lam : ZMod Config.p) = secp256k1.slope q1.x q2.x q1.y q2.y) :
    Rep (chord lam q1 q2.x) (.some _ _ h1 + .some _ _ h2) := by
  have hx : ((chord lam q1 q2.x).x : ZMod Config.p) =
      secp256k1.addX q1.x q2.x (secp256k1.slope q1.x q2.x q1.y q2.y) := by
    rw [chord, subMod_cast p_pos, ← hl]
    simp [secp256k1]; ring
  have hy : ((chord lam q1 q2.x).y : ZMod Config.p) =
      secp256k1.addY q1.x q2.x q1.y (secp256k1.slope q1.x q2.x q1.y q2.y) := by
    have hx' := hx
    rw [chord] at hx' ⊢
    rw [subMod_cast p_pos, Nat.cast_mul, subMod_cast p_pos, hx', WeierstrassCurve.Affine.addY, negY_secp,
      WeierstrassCurve.Affine.negAddY, ← hl]
    ring
  refine ⟨subMod_lt p_pos _ _, subMod_lt p_pos _ _, ?_⟩
  rw [hx, hy]
  exact ⟨_, Point.add_some hxy⟩

theorem pdblF_rep {q : Point} {P : secp256k1.Point} (h : Rep q P) :
    ∃ r, pdblF q = .ok r ∧ Rep r (P + P) := by
  obtain ⟨hx, hy, hn, rfl⟩ := h
  have hy0 : (q.y : ZMod Config.p) ≠ 0 := y_ne_zero hn.1
  have hq0 : q.y ≠ 0 := fun e => hy0 (by simp [e])
  have h2y : ((2 * q.y : Nat) : ZMod Config.p) ≠ 0 := by
    push_cast; exact mul_ne_zero two_ne_zero_p hy0
  have hyn : (q.y : ZMod Config.p) ≠ secp256k1.negY q.x q.y := by
    rw [negY_secp]; intro e
    exact h2y (by push_cast; linear_combination e)
  rw [pdblF, if_neg hq0]
  refine ⟨_, rfl, chord_rep (fun c => hyn c.2) ?_⟩
  rw [slope_of_Y_ne rfl hyn, negY_secp, ZMod.natCast_mod, Nat.cast_mul, invMod_cast h2y, ← div_eq_mul_inv]
  simp only [secp256k1, Config.a]
  push_cast
  congr 1 <;> ring

theorem paddF_rep {q1 q2 : Point} {P1 P2 : secp256k1.Point} (h1 : Rep q1 P1) (h2 : Rep q2 P2) :
    (P1 + P2 = 0 → paddF q1 q2 = .error .unsupportedInfinity) ∧
    (P1 + P2 ≠ 0 → ∃ r, paddF q1 q2 = .ok r ∧ Rep r (P1 + P2)) := by
  have h1' := h1
  obtain ⟨hx1, hy1, hn1, rfl⟩ := h1
  obtain ⟨hx2, hy2, hn2, rfl⟩ := h2
  by_cases hx : q1.x = q2.x
  · by_cases hy : q1.y = q2.y
    · have e : q1 = q2 := by cases q1; cases q2; simp_all
      subst e
      obtain ⟨r, hr, hrep⟩ := pdblF_rep h1'
      have hp : paddF q1 q1 = .ok r := by rw [paddF, if_pos ⟨rfl, rfl⟩, hr]
      exact ⟨fun h => absurd h hrep.ne_zero, fun _ => ⟨r, hp, hrep⟩⟩
    · have hyc : (q1.y : ZMod Config.p) = secp256k1.negY q2.x q2.y := by
        refine (Y_eq_of_X_eq hn1.1 hn2.1 (by rw [hx])).resolve_left fun e => hy ?_
        exact (cast_eq_iff hy1 hy2).1 e
      have hsum : (q1.y + q2.y) % Config.p = 0 := by
        refine Nat.mod_eq_zero_of_dvd ((ZMod.natCast_eq_zero_iff _ _).1 ?_)
        rw [negY_secp] at hyc
        push_cast; rw [hyc]; ring
      have hz : (Point.some _ _ hn1 + Point.some _ _ hn2 : secp256k1.Point) = 0 :=
        Point.add_of_Y_eq (by rw [hx]) hyc
      refine ⟨fun _ => ?_, fun h => absurd hz h⟩
      rw [paddF, if_neg (fun c => hy c.2), if_pos ⟨hx, hsum⟩]
  · have hxc : (q1.x : ZMod Config.p) ≠ q2.x := fun e => hx ((cast_eq_iff hx1 hx2).1 e)
    have hd : ((subMod Config.p q1.x q2.x : Nat) : ZMod Config.p) ≠ 0 := by
      rw [subMod_cast p_pos]; exact sub_ne_zero_of_ne hxc
    have hd' : ((subMod Config.p q2.x q1.x : Nat) : ZMod Config.p) ≠ 0 := by
      rw [subMod_cast p_pos]; exact sub_ne_zero_of_ne hxc.symm
    have hrep : Rep (chord (subMod Config.p q2.y q1.y * invMod Config.p (subMod Config.p q2.x q1.x) % Config.p)
        q1 q2.x) (.some _ _ hn1 + .some _ _ hn2) := by
      refine chord_rep (fun c => hxc c.1) ?_
      rw [slope_of_X_ne hxc, ZMod.natCast_mod, Nat.cast_mul, invMod_cast hd', subMod_cast p_pos,
        subMod_cast p_pos, ← div_eq_mul_inv, ← neg_sub, ← neg_sub (q1.x : ZMod Config.p), neg_div_neg_eq]
    refine ⟨fun h => absurd h hrep.ne_zero, fun _ => ⟨_, ?_, hrep⟩⟩
    rw [paddF, if_neg (fun c => hx c.1), if_neg (fun c => hx c.1), if_neg (by simpa using gcd_p hd)]

end

end Sys2Proof.Machine
end

