-- ==== Sys2Proof/Laws/GroupOrder.lean ====
section
/-! SUPPORT. The order of the group of secp256k1 and what PMUL_f gives for every scalar (41_curve.md R134, R135): the group
has exactly n elements, and on a point of the curve PMUL_f fails for k = 0 and k = n only. -/

namespace Sys2Proof.Machine

set_option Elab.async false

open WeierstrassCurve.Affine

theorem generator_onCurve : onCurve generator = true := by decide +kernel

/-- (n − 1)·G = −G, computed by the model's own PMUL_f (00_scope.md R3, 95_test_vectors.md VC19). -/
theorem pmulF_n_sub_one : pmulF (Config.n - 1) generator = .ok (pnegF generator) := by decide +kernel

section

variable [Fact (Nat.Prime Config.p)]

/-! ### The loop of PMUL_f -/

theorem pmulBit_rep {q acc : Point} {P A : secp256k1.Point} (hq : Rep q P) (ha : Rep acc A) (bit : Bool) :
    (∃ r, pmulBit bit q acc = .ok r ∧ Rep r (A + A + if bit then P else 0)) ∨
    (bit = true ∧ A + A + P = 0 ∧ pmulBit bit q acc = .error .unsupportedInfinity) := by
  obtain ⟨d, hd, hrep⟩ := pdblF_rep ha
  cases bit with
  | false => exact .inl ⟨d, by simp [pmulBit, hd], by simpa using hrep⟩
  | true =>
    obtain ⟨hz, hn⟩ := paddF_rep hrep hq
    by_cases h0 : A + A + P = 0
    · exact .inr ⟨rfl, h0, by simp [pmulBit, hd, hz h0]⟩
    · obtain ⟨r, hr, hr'⟩ := hn h0
      exact .inl ⟨r, by simp [pmulBit, hd, hr], by simpa using hr'⟩

/-- The loop started at the prefix `k >>> i` ends at `k·P`, or fails at a prefix that is a multiple of the order of P. -/
theorem pmulLoop_rep {q : Point} {P : secp256k1.Point} (hq : Rep q P) (k : Nat) (i : Nat) :
    ∀ acc, Rep acc ((k >>> i) • P) →
      (∃ r, pmulLoop k q i acc = .ok r ∧ Rep r (k • P)) ∨
      (pmulLoop k q i acc = .error .unsupportedInfinity ∧ ∃ j < i, (k >>> j) • P = 0) := by
  induction i with
  | zero => intro acc h; exact .inl ⟨acc, rfl, by simpa using h⟩
  | succ i ih =>
    intro acc h
    have hsum : (k >>> (i + 1)) • P + (k >>> (i + 1)) • P + (if k.testBit i then P else 0) = (k >>> i) • P := by
      rw [shiftRight_split k i, add_smul, two_mul, add_smul]
      cases k.testBit i <;> simp
    rcases pmulBit_rep hq h (k.testBit i) with ⟨r, hr, hrep⟩ | ⟨hb, hz, he⟩
    · rw [hsum] at hrep
      rcases ih r hrep with ⟨r', hr', h'⟩ | ⟨he, j, hj, hz⟩
      · exact .inl ⟨r', by simp [pmulLoop, hr, hr'], h'⟩
      · exact .inr ⟨by simp [pmulLoop, hr, he], j, by omega, hz⟩
    · refine .inr ⟨by simp [pmulLoop, he], i, by omega, ?_⟩
      rw [← hsum, hb]; simpa using hz

/-- PMUL_f of a nonzero scalar gives `k·P` or fails at a prefix of k that is a multiple of the order of P. -/
theorem pmulF_rep {q : Point} {P : secp256k1.Point} (hq : Rep q P) {k : Nat} (hk : k ≠ 0) :
    (∃ r, pmulF k q = .ok r ∧ Rep r (k • P)) ∨
    (pmulF k q = .error .unsupportedInfinity ∧ ∃ j < Nat.log2 k, (k >>> j) • P = 0) := by
  have h1 : k >>> Nat.log2 k = 1 := by
    rw [Nat.shiftRight_eq_div_pow]
    have h2 := Nat.log2_self_le hk
    have h3 := Nat.lt_log2_self (n := k)
    have hp : 0 < 2 ^ Nat.log2 k := by positivity
    refine Nat.div_eq_of_lt_le (by simpa using h2) ?_
    rw [pow_succ] at h3; omega
  have := pmulLoop_rep hq k (Nat.log2 k) q (by rw [h1, one_smul]; exact hq)
  simpa [pmulF, hk] using this

/-! ### The generator and the order of the group -/

theorem addOrderOf_generator {P : secp256k1.Point} (h : Rep generator P) : addOrderOf P = Config.n := by
  have : Fact (Nat.Prime Config.n) := ⟨n_prime⟩
  refine addOrderOf_eq_prime ?_ h.ne_zero
  rcases pmulF_rep h (k := Config.n - 1) (by decide) with ⟨r, hr, hrep⟩ | ⟨he, -⟩
  · rw [pmulF_n_sub_one, Except.ok.injEq] at hr
    subst hr
    have e := hrep.inj (pnegF_rep h)
    have : Config.n = (Config.n - 1) + 1 := by decide
    rw [this, add_smul, one_smul, e, neg_add_cancel]
  · rw [pmulF_n_sub_one] at he; simp at he

/-- A point is known by its x and the parity of its y: the two points with one x have opposite y, and p is odd. -/
noncomputable def pointKey : secp256k1.Point → Option (ZMod Config.p × Bool)
  | .zero => none
  | .some x y _ => some (x, decide (y.val % 2 = 1))

theorem pointKey_injective : Function.Injective pointKey := by
  intro P Q h
  cases P with
  | zero => cases Q with
    | zero => rfl
    | some => simp [pointKey] at h
  | some x y hn => cases Q with
    | zero => simp [pointKey] at h
    | some x' y' hn' =>
      simp only [pointKey, Option.some.injEq, Prod.mk.injEq, decide_eq_decide] at h
      obtain ⟨rfl, hp⟩ := h
      rcases Y_eq_of_X_eq hn.1 hn'.1 rfl with e | e
      · simp [e]
      · exfalso
        rw [negY_secp] at e
        have hy' := y_ne_zero hn'.1
        have hv : y.val = Config.p - y'.val := by rw [e, ZMod.neg_val, if_neg hy']
        have hlt := ZMod.val_lt y'
        have hodd : Config.p % 2 = 1 := by decide
        omega

theorem point_finite : Finite secp256k1.Point := Finite.of_injective _ pointKey_injective

theorem card_point_le : Nat.card secp256k1.Point ≤ 2 * Config.p + 1 := by
  have : NeZero Config.p := ⟨by decide⟩
  have h := Nat.card_le_card_of_injective _ pointKey_injective
  have e : Nat.card (Option (ZMod Config.p × Bool)) = 2 * Config.p + 1 := by
    rw [Nat.card_eq_fintype_card, Fintype.card_option, Fintype.card_prod, ZMod.card, Fintype.card_bool, mul_comm]
  omega

/-- The group of secp256k1 has n elements (41_curve.md R135). -/
theorem card_point : Nat.card secp256k1.Point = Config.n := by
  have := point_finite
  obtain ⟨P, hP⟩ := exists_rep generator_onCurve
  have hd : Config.n ∣ Nat.card secp256k1.Point := addOrderOf_generator hP ▸ addOrderOf_dvd_natCard P
  obtain ⟨c, hc⟩ := hd
  have hpos : 0 < Nat.card secp256k1.Point := Nat.card_pos
  have hle := card_point_le
  have h3 : 2 * Config.p + 1 < Config.n * 3 := by decide
  have hc3 : c < 3 := by
    refine Nat.lt_of_mul_lt_mul_left (a := Config.n) ?_
    omega
  have hc0 : c ≠ 0 := by rintro rfl; omega
  have hc2 : c ≠ 2 := by
    rintro rfl
    obtain ⟨T, hT⟩ := exists_prime_addOrderOf_dvd_card' (G := secp256k1.Point) 2 ⟨Config.n, by rw [hc, mul_comm]⟩
    have hT0 : T ≠ 0 := by rintro rfl; simp at hT
    obtain ⟨q, hq⟩ := exists_affine hT0
    obtain ⟨r, -, hr⟩ := pdblF_rep hq
    refine hr.ne_zero ?_
    have := addOrderOf_nsmul_eq_zero T
    rwa [hT, two_smul] at this
  obtain rfl : c = 1 := by omega
  simpa using hc

theorem n_smul (P : secp256k1.Point) : Config.n • P = 0 := by
  rw [← card_point]; exact card_nsmul_eq_zero'

/-- Every point of the curve but the one at infinity has order n (41_curve.md R135). -/
theorem smul_eq_zero_iff {P : secp256k1.Point} (hP : P ≠ 0) (k : Nat) : k • P = 0 ↔ Config.n ∣ k := by
  have : Fact (Nat.Prime Config.n) := ⟨n_prime⟩
  rw [← addOrderOf_eq_prime (n_smul P) hP, addOrderOf_dvd_iff_nsmul_eq_zero]

/-- What PMUL_f gives on a point of the curve, for every 256-bit scalar (41_curve.md R135). -/
theorem pmulF_onCurve {q : Point} {P : secp256k1.Point} (hq : Rep q P) {k : Nat} (hk : k < 2 ^ 256) :
    (k = 0 ∧ pmulF k q = .error .zeroScalar) ∨
    (k = Config.n ∧ pmulF k q = .error .unsupportedInfinity) ∨
    (k ≠ 0 ∧ k ≠ Config.n ∧ ∃ r, pmulF k q = .ok r ∧ Rep r (k • P)) := by
  by_cases h0 : k = 0
  · exact .inl ⟨h0, by rw [pmulF, if_pos h0]⟩
  refine .inr ?_
  have hmul : ∀ j < Nat.log2 k, (k >>> j) • P = 0 → k = Config.n := by
    intro j hj hz
    obtain ⟨c, hc⟩ := (smul_eq_zero_iff hq.ne_zero _).1 hz
    have hne : k >>> j ≠ 0 := by
      rw [Nat.shiftRight_eq_div_pow]
      have h2 := Nat.log2_self_le h0
      have h3 : 2 ^ j ≤ 2 ^ Nat.log2 k := Nat.pow_le_pow_right (by norm_num) hj.le
      exact (Nat.div_pos (h3.trans h2) (by positivity)).ne'
    have hc1 : 1 ≤ c := Nat.one_le_iff_ne_zero.2 (by rintro rfl; simp at hc; exact hne hc)
    have hn2 : 2 ^ 255 < Config.n := by decide
    have hge : Config.n ≤ k >>> j := by rw [hc]; exact Nat.le_mul_of_pos_right _ hc1
    rcases Nat.eq_zero_or_pos j with rfl | hj0
    · rw [Nat.shiftRight_zero] at hc
      have : c < 2 := by
        refine Nat.lt_of_mul_lt_mul_left (a := Config.n) ?_
        omega
      obtain rfl : c = 1 := by omega
      omega
    · exfalso
      obtain ⟨j, rfl⟩ : ∃ j', j = j' + 1 := ⟨j - 1, by omega⟩
      have hle : k >>> (j + 1) ≤ k / 2 := by
        rw [Nat.shiftRight_eq_div_pow, pow_succ, mul_comm, ← Nat.div_div_eq_div_mul]
        exact Nat.div_le_self _ _
      omega
  rcases pmulF_rep hq h0 with ⟨r, hr, hrep⟩ | ⟨he, j, hj, hz⟩
  · refine .inr ⟨h0, ?_, r, hr, hrep⟩
    rintro rfl
    exact hrep.ne_zero (n_smul P)
  · exact .inl ⟨hmul j hj hz, he⟩

end

end Sys2Proof.Machine
end

