-- ==== Sys2Proof/Laws/Encoding.lean ====
section
/-! SUPPORT. The command word: the fields of a packed word are the ones packed, and what the decoder answers. -/

namespace Sys2Proof

set_option Elab.async false

/-! ### The fields of a packed word -/

section

variable (imm8 : BitVec 8) (rs2 rs1 rd : Reg) (g m : BitVec 1) (opc : BitVec 8)

@[simp] theorem opcOf_packWord : opcOf (packWord imm8 rs2 rs1 rd g m opc) = opc := by
  rw [opcOf, packWord, BitVec.extractLsb'_append_eq_of_add_le (by decide), packLow,
    BitVec.extractLsb'_append_eq_right]

@[simp] theorem imm8Of_packWord : imm8Of (packWord imm8 rs2 rs1 rd g m opc) = imm8 := by
  rw [imm8Of, packWord, BitVec.extractLsb'_append_eq_left]

@[simp] theorem mBitOf_packWord : mBitOf (packWord imm8 rs2 rs1 rd g m opc) = m.getLsbD 0 := by
  rw [mBitOf, packWord, BitVec.getLsbD_append, if_pos (by decide), packLow, BitVec.getLsbD_append,
    if_neg (by decide), BitVec.getLsbD_append, if_pos (by decide)]

@[simp] theorem gBitOf_packWord : gBitOf (packWord imm8 rs2 rs1 rd g m opc) = g.getLsbD 0 := by
  rw [gBitOf, packWord, BitVec.getLsbD_append, if_pos (by decide), packLow, BitVec.getLsbD_append,
    if_neg (by decide), BitVec.getLsbD_append, if_neg (by decide), BitVec.getLsbD_append, if_pos (by decide)]

@[simp] theorem rdOf_packWord : rdOf (packWord imm8 rs2 rs1 rd g m opc) = rd := by
  rw [rdOf, regAt, packWord, BitVec.extractLsb'_append_eq_of_add_le (by decide), packLow]
  iterate 4 rw [BitVec.extractLsb'_append_eq_of_le (by decide)]
  rw [BitVec.extractLsb'_append_eq_right]; rfl

@[simp] theorem rs1Of_packWord : rs1Of (packWord imm8 rs2 rs1 rd g m opc) = rs1 := by
  rw [rs1Of, regAt, packWord, BitVec.extractLsb'_append_eq_of_add_le (by decide), packLow]
  iterate 6 rw [BitVec.extractLsb'_append_eq_of_le (by decide)]
  rw [BitVec.extractLsb'_append_eq_right]; rfl

@[simp] theorem rs2Of_packWord : rs2Of (packWord imm8 rs2 rs1 rd g m opc) = rs2 := by
  rw [rs2Of, regAt, packWord, BitVec.extractLsb'_append_eq_of_add_le (by decide), packLow]
  iterate 8 rw [BitVec.extractLsb'_append_eq_of_le (by decide)]
  rw [BitVec.extractLsb'_append_eq_right]; rfl

/-- A row whose mask leaves IMM8 free looks at the low 24 bits only. -/
theorem packWord_and_low (mask : BitVec 24) :
    packWord imm8 rs2 rs1 rd g m opc &&& (0#8 ++ mask : BitVec 32) = 0#8 ++ (packLow rs2 rs1 rd g m opc &&& mask) := by
  rw [packWord]
  exact BitVec.and_append.trans (by rw [BitVec.and_zero])

end

@[simp] theorem Modulus.ofBit_bit (m : Modulus) : Modulus.ofBit m.bit[0] = m := by cases m <;> rfl

/-! ### The decoder -/

/-- Decoding accepts exactly the legal words (30_encoding.md R75). -/
theorem decode_isOk_iff_legal (w : Word) : (∃ i, decode w = .ok i) ↔ legal w = true := by
  unfold decode legal
  cases h : Op.all.find? (fun o => o.matchesWord w) with
  | none => simpa using List.find?_eq_none.1 h
  | some o => simpa using ⟨o, List.mem_of_find?_eq_some h, by simpa using List.find?_some h⟩

theorem decode_of_legal {w : Word} (h : legal w = true) : ∃ i, decode w = .ok i := (decode_isOk_iff_legal w).2 h

/-- A word that decodes matches the row it is built from. -/
theorem decode_ok {w : Word} {i : Instr} (h : decode w = .ok i) : ∃ o : Op, o.matchesWord w = true ∧ o.build w = i := by
  unfold decode at h
  cases hf : Op.all.find? (fun o => o.matchesWord w) with
  | none => rw [hf] at h; simp at h
  | some o => rw [hf] at h; exact ⟨o, by simpa using List.find?_some hf, by simpa using h⟩

/-! ### Rows of the table -/

/-- Matching a row is the equation of 30_encoding.md R74. -/
theorem matchesWord_iff (o : Op) (w : Word) : o.matchesWord w = true ↔ w &&& o.mask = o.pattern := by
  simp [Op.matchesWord]

/-- Every row is in the list of rows. -/
theorem Op.mem_all (o : Op) : o ∈ Op.all := by cases o <;> decide

/-- No two rows of the table match one word: they differ where both fix a bit (30_encoding.md R74). -/
theorem rows_disjoint : ∀ o o' : Op, o.pattern &&& o'.mask = o'.pattern &&& o.mask → o = o' := by
  intro o o'; cases o <;> cases o' <;> decide

/-- A word matches at most one row (30_encoding.md R74). -/
theorem row_unique {o o' : Op} {w : Word} (h : w &&& o.mask = o.pattern) (h' : w &&& o'.mask = o'.pattern) : o = o' := by
  refine rows_disjoint o o' ?_
  rw [← h, ← h', BitVec.and_assoc, BitVec.and_assoc, BitVec.and_comm o.mask]

/-- A word that matches a row decodes to the command of that row (30_encoding.md R74). -/
theorem decode_of_row {o : Op} {w : Word} (h : w &&& o.mask = o.pattern) : decode w = .ok (o.build w) := by
  unfold decode
  cases hf : Op.all.find? (fun o => o.matchesWord w) with
  | none => exact absurd ((matchesWord_iff o w).2 h) (List.find?_eq_none.1 hf o o.mem_all)
  | some o' =>
    obtain rfl := row_unique ((matchesWord_iff o' w).1 (by simpa using List.find?_some hf)) h
    rfl

/-- A word is legal when it matches some row (30_encoding.md R75). -/
theorem legal_iff_row (w : Word) : legal w = true ↔ ∃ o : Op, w &&& o.mask = o.pattern := by
  simp [legal, Op.mem_all, matchesWord_iff]

/-- A row fixes, in each field, the bits its mask has there. -/
theorem field_of_row {w mask pat : Word} (h : w &&& mask = pat) (lo n : Nat) :
    w.extractLsb' lo n &&& mask.extractLsb' lo n = pat.extractLsb' lo n := by
  rw [← BitVec.extractLsb'_and, h]

/-- A row fixes the bits its mask has. -/
theorem bit_of_row {w mask pat : Word} (h : w &&& mask = pat) (k : Nat) (hk : mask.getLsbD k = true) :
    w.getLsbD k = pat.getLsbD k := by
  rw [← h, BitVec.getLsbD_and, hk, Bool.and_true]

/-- A word whose reserved bits are 0 is its fields, packed (30_encoding.md R70). -/
theorem packWord_fields (w : Word) (h : w &&& 0x00888C00#32 = 0#32) :
    packWord (imm8Of w) (rs2Of w) (rs1Of w) (rdOf w) (BitVec.ofBool (gBitOf w)) (BitVec.ofBool (mBitOf w)) (opcOf w) = w := by
  have hr : ∀ r : BitVec 3, Reg.bits r.toFin = r := fun r => rfl
  have hb : ∀ k, BitVec.ofBool (w.getLsbD k) = w.extractLsb' k 1 := by
    intro k; refine BitVec.eq_of_getLsbD_eq fun j hj => ?_
    obtain rfl : j = 0 := by omega
    cases h : w.getLsbD k <;> simp_all
  have b := fun k hk => bit_of_row h k hk
  have b10 := b 10 rfl
  have b11 := b 11 rfl
  have b15 := b 15 rfl
  have b19 := b 19 rfl
  have b23 := b 23 rfl
  rw [BitVec.getLsbD_zero] at b10 b11 b15 b19 b23
  have z2 : w.extractLsb' 10 2 = 0#2 := by
    refine BitVec.eq_of_getLsbD_eq fun j hj => ?_
    rw [BitVec.getLsbD_extractLsb']
    obtain rfl | rfl : j = 0 ∨ j = 1 := by omega
    · exact (Bool.true_and _).trans b10
    · exact (Bool.true_and _).trans b11
  have z1 : ∀ k, w.getLsbD k = false → w.extractLsb' k 1 = 0#1 := by
    intro k hk; rw [← hb, hk]; rfl
  simp only [imm8Of, rs2Of, rs1Of, rdOf, regAt, gBitOf, mBitOf, opcOf, packWord, packLow, hr, hb, ← z2]
  rw [show (0#1 : BitVec 1) = w.extractLsb' 23 1 from (z1 23 b23).symm]
  have e : ∀ lo a b, (w.extractLsb' (lo + b) a ++ w.extractLsb' lo b) = w.extractLsb' lo (a + b) := by
    intro lo a b
    refine BitVec.eq_of_getLsbD_eq fun j hj => ?_
    rw [BitVec.getLsbD_append]
    simp only [BitVec.getLsbD_extractLsb']
    split
    · simp_all
    · rw [show lo + b + (j - b) = lo + j by omega]; simp [hj]; intro; omega
  have e1 := e 20 1 3
  have e2 := e 19 4 1
  have e3 := e 16 5 3
  have e4 := e 15 8 1
  have e5 := e 12 9 3
  have e6 := e 10 12 2
  have e7 := e 9 14 1
  have e8 := e 8 15 1
  have e9 := e 0 16 8
  have e10 := e 0 8 24
  simp only [Nat.reduceAdd, z1 23 b23, z1 19 b19, z1 15 b15, z2] at e1 e2 e3 e4 e5 e6 e7 e8 e9 e10 ⊢
  rw [e1, e2, e3, e4, e5, e6, e7, e8, e9, e10]
  simp

/-- The modulus of a word gives its bit M back (30_encoding.md R72). -/
theorem modOf_bit (w : Word) : (modOf w).bit = BitVec.ofBool (mBitOf w) := by
  unfold modOf; cases mBitOf w <;> rfl

/-- What a row fixes under a smaller mask. -/
theorem low_and {w mask pat sub x : Word} (h : w &&& mask = pat) (hs : mask &&& sub = sub) (hx : pat &&& sub = x) :
    w &&& sub = x := by
  rw [← hs, ← BitVec.and_assoc, h, hx]

/-- A byte that a row's mask covers whole has the row's value. -/
theorem byte_of_row {w mask pat : Word} (h : w &&& mask = pat) (lo : Nat) (hm : mask.extractLsb' lo 8 = BitVec.allOnes 8) :
    w.extractLsb' lo 8 = pat.extractLsb' lo 8 := by
  have := field_of_row h lo 8; rwa [hm, BitVec.and_allOnes] at this

/-- A register field that a row's mask covers whole is the row's 0: an unused field (30_encoding.md R73). -/
theorem reg_of_row {w mask pat : Word} (h : w &&& mask = pat) (lo : Nat) (hm : mask.extractLsb' lo 3 = BitVec.allOnes 3)
    (hp : pat.extractLsb' lo 3 = 0#3) : regAt lo w = 0 := by
  have := field_of_row h lo 3; rw [hm, BitVec.and_allOnes, hp] at this
  rw [regAt, this]; rfl

/-- A register field whose lowest bit alone is masked names an even register: a point field (30_encoding.md R73). -/
theorem pair_of_row {w mask pat : Word} (h : w &&& mask = pat) (lo : Nat) (hm : mask.extractLsb' lo 3 = 1#3)
    (hp : pat.extractLsb' lo 3 = 0#3) : (regAt lo w).isPair = true := by
  have := field_of_row h lo 3; rw [hm, hp] at this
  unfold regAt
  generalize w.extractLsb' lo 3 = v at this
  revert v; decide

/-- The command built from a word of a row is well-formed, and its word is that word. -/
theorem encode_build (o : Op) (w : Word) (h : w &&& o.mask = o.pattern) :
    (o.build w).wf = true ∧ encode (o.build w) = w := by
  have hp := packWord_fields w (low_and h (by cases o <;> rfl) (by cases o <;> rfl))
  have hopc : opcOf w = o.pattern.extractLsb' 0 8 := byte_of_row h 0 (by cases o <;> rfl)
  have hm : ∀ {b}, o.mask.getLsbD 8 = true → o.pattern.getLsbD 8 = b → mBitOf w = b := fun hm hb => by
    rw [← hb]; exact bit_of_row h 8 hm
  have hg : ∀ {b}, o.pattern.getLsbD 9 = b → gBitOf w = b := fun hb => by
    rw [← hb]; exact bit_of_row h 9 (by cases o <;> rfl)
  have hi : o.mask.extractLsb' 24 8 = BitVec.allOnes 8 → imm8Of w = o.pattern.extractLsb' 24 8 := byte_of_row h 24
  have h2 : o.mask.extractLsb' 20 3 = BitVec.allOnes 3 → o.pattern.extractLsb' 20 3 = 0#3 → rs2Of w = 0 := reg_of_row h 20
  have h1 : o.mask.extractLsb' 16 3 = BitVec.allOnes 3 → o.pattern.extractLsb' 16 3 = 0#3 → rs1Of w = 0 := reg_of_row h 16
  have hd : o.mask.extractLsb' 12 3 = BitVec.allOnes 3 → o.pattern.extractLsb' 12 3 = 0#3 → rdOf w = 0 := reg_of_row h 12
  have p2 : o.mask.extractLsb' 20 3 = 1#3 → o.pattern.extractLsb' 20 3 = 0#3 → (rs2Of w).isPair = true := pair_of_row h 20
  have p1 : o.mask.extractLsb' 16 3 = 1#3 → o.pattern.extractLsb' 16 3 = 0#3 → (rs1Of w).isPair = true := pair_of_row h 16
  have pd : o.mask.extractLsb' 12 3 = 1#3 → o.pattern.extractLsb' 12 3 = 0#3 → (rdOf w).isPair = true := pair_of_row h 12
  rw [hopc] at hp
  cases o
  case fadd | fsub | fmul | mmul | fpow =>
    rw [hg rfl, hi rfl] at hp
    exact ⟨rfl, by rw [Op.build, encode, modOf_bit]; exact hp⟩
  case finv =>
    rw [hg rfl, hi rfl, h2 rfl rfl] at hp
    exact ⟨rfl, by rw [Op.build, encode, modOf_bit]; exact hp⟩
  case fsqrt =>
    rw [hg rfl, hi rfl, h2 rfl rfl, hm rfl rfl] at hp
    exact ⟨rfl, hp⟩
  case pdbl | pneg =>
    rw [hg rfl, hi rfl, h2 rfl rfl, hm rfl rfl] at hp
    exact ⟨by simp [Op.build, Instr.wf, p1 rfl rfl, pd rfl rfl], hp⟩
  case padd =>
    rw [hg rfl, hi rfl, hm rfl rfl] at hp
    exact ⟨by simp [Op.build, Instr.wf, p1 rfl rfl, pd rfl rfl, p2 rfl rfl], hp⟩
  case pmul =>
    rw [hg rfl, hi rfl, hm rfl rfl] at hp
    exact ⟨by simp [Op.build, Instr.wf, p1 rfl rfl, pd rfl rfl], hp⟩
  case pmulG =>
    rw [hg rfl, hi rfl, hm rfl rfl, h1 rfl rfl] at hp
    exact ⟨by simp [Op.build, Instr.wf, pd rfl rfl], hp⟩
  case pdec =>
    rw [hg rfl, hm rfl rfl, h2 rfl rfl] at hp
    exact ⟨by simp [Op.build, Instr.wf, pd rfl rfl], hp⟩
  case sign | verify =>
    rw [hg rfl, hi rfl, hm rfl rfl, h2 rfl rfl, h1 rfl rfl, hd rfl rfl] at hp
    exact ⟨rfl, hp⟩

/-- The row of a command rebuilds the command from its word. -/
theorem build_encode (i : Instr) : i.op.build (encode i) = i := by
  cases i <;> simp [Instr.op, Op.build, encode, modOf]

end Sys2Proof
end

