-- ==== Sys2Proof/Laws/State.lean ====
section
/-! SUPPORT. One lemma per field per update of STATUS and of State, each true by unfolding once, so that no later proof
unfolds a record update. -/

namespace Sys2Proof.Machine

/-! ### STATUS -/

@[simp] theorem Status.w1c_busy (st : Status) (v : Word) : (st.w1c v).busy = st.busy := rfl
@[simp] theorem Status.w1c_done (st : Status) (v : Word) : (st.w1c v).done = (st.done && !v.getLsbD 1) := rfl
@[simp] theorem Status.w1c_err (st : Status) (v : Word) : (st.w1c v).err = st.err := rfl
@[simp] theorem Status.w1c_valid (st : Status) (v : Word) : (st.w1c v).valid = st.valid := rfl
@[simp] theorem Status.w1c_werr (st : Status) (v : Word) : (st.w1c v).werr = (st.werr && !v.getLsbD 4) := rfl
@[simp] theorem Status.w1c_errcode (st : Status) (v : Word) : (st.w1c v).errcode = st.errcode := rfl
@[simp] theorem Status.w1c_recid (st : Status) (v : Word) : (st.w1c v).recid = st.recid := rfl
@[simp] theorem Status.w1c_diag (st : Status) (v : Word) : (st.w1c v).diag = st.diag := rfl

@[simp] theorem Status.accepted_busy (st : Status) : (st.accepted).busy = st.busy := rfl
@[simp] theorem Status.accepted_done (st : Status) : (st.accepted).done = false := rfl
@[simp] theorem Status.accepted_err (st : Status) : (st.accepted).err = false := rfl
@[simp] theorem Status.accepted_valid (st : Status) : (st.accepted).valid = false := rfl
@[simp] theorem Status.accepted_werr (st : Status) : (st.accepted).werr = st.werr := rfl
@[simp] theorem Status.accepted_errcode (st : Status) : (st.accepted).errcode = 0#4 := rfl
@[simp] theorem Status.accepted_recid (st : Status) : (st.accepted).recid = 0#2 := rfl
@[simp] theorem Status.accepted_diag (st : Status) : (st.accepted).diag = 0#4 := rfl

@[simp] theorem Status.illegal_busy (st : Status) : (st.illegal).busy = st.busy := rfl
@[simp] theorem Status.illegal_done (st : Status) : (st.illegal).done = true := rfl
@[simp] theorem Status.illegal_err (st : Status) : (st.illegal).err = true := rfl
@[simp] theorem Status.illegal_valid (st : Status) : (st.illegal).valid = st.valid := rfl
@[simp] theorem Status.illegal_werr (st : Status) : (st.illegal).werr = st.werr := rfl
@[simp] theorem Status.illegal_errcode (st : Status) : (st.illegal).errcode = 0xF#4 := rfl
@[simp] theorem Status.illegal_recid (st : Status) : (st.illegal).recid = st.recid := rfl
@[simp] theorem Status.illegal_diag (st : Status) : (st.illegal).diag = st.diag := rfl

@[simp] theorem Status.started_busy (st : Status) : (st.started).busy = true := rfl
@[simp] theorem Status.started_done (st : Status) : (st.started).done = st.done := rfl
@[simp] theorem Status.started_err (st : Status) : (st.started).err = st.err := rfl
@[simp] theorem Status.started_valid (st : Status) : (st.started).valid = st.valid := rfl
@[simp] theorem Status.started_werr (st : Status) : (st.started).werr = st.werr := rfl
@[simp] theorem Status.started_errcode (st : Status) : (st.started).errcode = st.errcode := rfl
@[simp] theorem Status.started_recid (st : Status) : (st.started).recid = st.recid := rfl
@[simp] theorem Status.started_diag (st : Status) : (st.started).diag = st.diag := rfl

@[simp] theorem Status.refusedWrite_busy (st : Status) : (st.refusedWrite).busy = st.busy := rfl
@[simp] theorem Status.refusedWrite_done (st : Status) : (st.refusedWrite).done = st.done := rfl
@[simp] theorem Status.refusedWrite_err (st : Status) : (st.refusedWrite).err = st.err := rfl
@[simp] theorem Status.refusedWrite_valid (st : Status) : (st.refusedWrite).valid = st.valid := rfl
@[simp] theorem Status.refusedWrite_werr (st : Status) : (st.refusedWrite).werr = true := rfl
@[simp] theorem Status.refusedWrite_errcode (st : Status) : (st.refusedWrite).errcode = st.errcode := rfl
@[simp] theorem Status.refusedWrite_recid (st : Status) : (st.refusedWrite).recid = st.recid := rfl
@[simp] theorem Status.refusedWrite_diag (st : Status) : (st.refusedWrite).diag = st.diag := rfl

@[simp] theorem Status.completedOk_busy (st : Status) (v : Bool) (r : BitVec 2) (g : BitVec 4) : (st.completedOk v r g).busy = false := rfl
@[simp] theorem Status.completedOk_done (st : Status) (v : Bool) (r : BitVec 2) (g : BitVec 4) : (st.completedOk v r g).done = true := rfl
@[simp] theorem Status.completedOk_err (st : Status) (v : Bool) (r : BitVec 2) (g : BitVec 4) : (st.completedOk v r g).err = st.err := rfl
@[simp] theorem Status.completedOk_valid (st : Status) (v : Bool) (r : BitVec 2) (g : BitVec 4) : (st.completedOk v r g).valid = v := rfl
@[simp] theorem Status.completedOk_werr (st : Status) (v : Bool) (r : BitVec 2) (g : BitVec 4) : (st.completedOk v r g).werr = st.werr := rfl
@[simp] theorem Status.completedOk_errcode (st : Status) (v : Bool) (r : BitVec 2) (g : BitVec 4) : (st.completedOk v r g).errcode = st.errcode := rfl
@[simp] theorem Status.completedOk_recid (st : Status) (v : Bool) (r : BitVec 2) (g : BitVec 4) : (st.completedOk v r g).recid = r := rfl
@[simp] theorem Status.completedOk_diag (st : Status) (v : Bool) (r : BitVec 2) (g : BitVec 4) : (st.completedOk v r g).diag = g := rfl

@[simp] theorem Status.completedErr_busy (st : Status) (c : ErrCode) : (st.completedErr c).busy = false := rfl
@[simp] theorem Status.completedErr_done (st : Status) (c : ErrCode) : (st.completedErr c).done = true := rfl
@[simp] theorem Status.completedErr_err (st : Status) (c : ErrCode) : (st.completedErr c).err = true := rfl
@[simp] theorem Status.completedErr_valid (st : Status) (c : ErrCode) : (st.completedErr c).valid = st.valid := rfl
@[simp] theorem Status.completedErr_werr (st : Status) (c : ErrCode) : (st.completedErr c).werr = st.werr := rfl
@[simp] theorem Status.completedErr_errcode (st : Status) (c : ErrCode) : (st.completedErr c).errcode = c.code := rfl
@[simp] theorem Status.completedErr_recid (st : Status) (c : ErrCode) : (st.completedErr c).recid = st.recid := rfl
@[simp] theorem Status.completedErr_diag (st : Status) (c : ErrCode) : (st.completedErr c).diag = st.diag := rfl

/-! ### STATUS as a word: every field at its bits (10_state.md R25) -/

theorem Status.word_busy (st : Status) : st.word.getLsbD 0 = st.busy := by
  rw [Status.word, BitVec.getLsbD_append, if_pos (by decide)]; cases st.busy <;> rfl

theorem Status.word_done (st : Status) : st.word.getLsbD 1 = st.done := by
  rw [Status.word, BitVec.getLsbD_append, if_neg (by decide), BitVec.getLsbD_append, if_pos (by decide)]
  cases st.done <;> rfl

theorem Status.word_err (st : Status) : st.word.getLsbD 2 = st.err := by
  rw [Status.word]
  iterate 2 rw [BitVec.getLsbD_append, if_neg (by decide)]
  rw [BitVec.getLsbD_append, if_pos (by decide)]; cases st.err <;> rfl

theorem Status.word_valid (st : Status) : st.word.getLsbD 3 = st.valid := by
  rw [Status.word]
  iterate 3 rw [BitVec.getLsbD_append, if_neg (by decide)]
  rw [BitVec.getLsbD_append, if_pos (by decide)]; cases st.valid <;> rfl

theorem Status.word_werr (st : Status) : st.word.getLsbD 4 = st.werr := by
  rw [Status.word]
  iterate 4 rw [BitVec.getLsbD_append, if_neg (by decide)]
  rw [BitVec.getLsbD_append, if_pos (by decide)]; cases st.werr <;> rfl

theorem Status.word_reserved5 (st : Status) : st.word.extractLsb' 5 3 = 0#3 := by
  rw [Status.word]
  iterate 5 rw [BitVec.extractLsb'_append_eq_of_le (by decide)]
  rw [BitVec.extractLsb'_append_eq_right]

theorem Status.word_errcode (st : Status) : st.word.extractLsb' 8 4 = st.errcode := by
  rw [Status.word]
  iterate 6 rw [BitVec.extractLsb'_append_eq_of_le (by decide)]
  rw [BitVec.extractLsb'_append_eq_right]

theorem Status.word_recid (st : Status) : st.word.extractLsb' 12 2 = st.recid := by
  rw [Status.word]
  iterate 7 rw [BitVec.extractLsb'_append_eq_of_le (by decide)]
  rw [BitVec.extractLsb'_append_eq_right]

theorem Status.word_reserved14 (st : Status) : st.word.extractLsb' 14 2 = 0#2 := by
  rw [Status.word]
  iterate 8 rw [BitVec.extractLsb'_append_eq_of_le (by decide)]
  rw [BitVec.extractLsb'_append_eq_right]

theorem Status.word_diag (st : Status) : st.word.extractLsb' 16 4 = st.diag := by
  rw [Status.word]
  iterate 9 rw [BitVec.extractLsb'_append_eq_of_le (by decide)]
  rw [BitVec.extractLsb'_append_eq_right]

theorem Status.word_reserved20 (st : Status) : st.word.extractLsb' 20 12 = 0#12 := by
  rw [Status.word]
  iterate 9 rw [BitVec.extractLsb'_append_eq_of_le (by decide)]
  rw [BitVec.extractLsb'_append_eq_left]

/-- The bits of STATUS above BUSY do not depend on BUSY. -/
theorem Status.word_above_busy (st : Status) (b : Bool) :
    ({ st with busy := b } : Status).word.extractLsb' 1 31 = st.word.extractLsb' 1 31 := by
  rw [Status.word, Status.word]
  conv_lhs => rw [BitVec.extractLsb'_append_eq_of_le (by decide)]
  conv_rhs => rw [BitVec.extractLsb'_append_eq_of_le (by decide)]

/-! ### The reset values -/

@[simp] theorem State.reset_d : State.reset.d = zeroRegs := rfl
@[simp] theorem State.reset_ie : State.reset.ie = false := rfl
@[simp] theorem State.reset_status : State.reset.status = Status.zero := rfl
@[simp] theorem State.reset_cmd : State.reset.cmd = 0#32 := rfl
@[simp] theorem State.reset_phase : State.reset.phase = .idle := rfl
@[simp] theorem State.reset_pending : State.reset.pending = 0#32 := rfl
@[simp] theorem State.reset_snap : State.reset.snap = zeroRegs := rfl
@[simp] theorem State.reset_rstN : State.reset.rstN = true := rfl
@[simp] theorem State.reset_rdata : State.reset.rdata = none := rfl
@[simp] theorem State.reset_events : State.reset.events = [] := rfl

@[simp] theorem resetRegisters_d (s : State) : (resetRegisters s).d = zeroRegs := rfl
@[simp] theorem resetRegisters_ie (s : State) : (resetRegisters s).ie = false := rfl
@[simp] theorem resetRegisters_status (s : State) : (resetRegisters s).status = Status.zero := rfl
@[simp] theorem resetRegisters_cmd (s : State) : (resetRegisters s).cmd = 0#32 := rfl
@[simp] theorem resetRegisters_phase (s : State) : (resetRegisters s).phase = .idle := rfl
@[simp] theorem resetRegisters_pending (s : State) : (resetRegisters s).pending = 0#32 := rfl
@[simp] theorem resetRegisters_snap (s : State) : (resetRegisters s).snap = zeroRegs := rfl
@[simp] theorem resetRegisters_rstN (s : State) : (resetRegisters s).rstN = s.rstN := rfl
@[simp] theorem resetRegisters_rdata (s : State) : (resetRegisters s).rdata = none := rfl
@[simp] theorem resetRegisters_events (s : State) : (resetRegisters s).events = s.events := rfl

@[simp] theorem State.afterInput_d (s : State) (rest : List Event) : (s.afterInput rest).d = s.d := rfl
@[simp] theorem State.afterInput_ie (s : State) (rest : List Event) : (s.afterInput rest).ie = s.ie := rfl
@[simp] theorem State.afterInput_status (s : State) (rest : List Event) : (s.afterInput rest).status = s.status := rfl
@[simp] theorem State.afterInput_cmd (s : State) (rest : List Event) : (s.afterInput rest).cmd = s.cmd := rfl
@[simp] theorem State.afterInput_phase (s : State) (rest : List Event) : (s.afterInput rest).phase = s.phase := rfl
@[simp] theorem State.afterInput_pending (s : State) (rest : List Event) : (s.afterInput rest).pending = s.pending := rfl
@[simp] theorem State.afterInput_snap (s : State) (rest : List Event) : (s.afterInput rest).snap = s.snap := rfl
@[simp] theorem State.afterInput_rstN (s : State) (rest : List Event) : (s.afterInput rest).rstN = s.rstN := rfl
@[simp] theorem State.afterInput_rdata (s : State) (rest : List Event) : (s.afterInput rest).rdata = none := rfl
@[simp] theorem State.afterInput_events (s : State) (rest : List Event) : (s.afterInput rest).events = rest := rfl

/-! ### Completion -/

@[simp] theorem commit_ie (r : ExecResult) (s : State) : (commit r s).ie = s.ie := by cases r <;> rfl
@[simp] theorem commit_cmd (r : ExecResult) (s : State) : (commit r s).cmd = s.cmd := by cases r <;> rfl
@[simp] theorem commit_pending (r : ExecResult) (s : State) : (commit r s).pending = s.pending := by cases r <;> rfl
@[simp] theorem commit_snap (r : ExecResult) (s : State) : (commit r s).snap = s.snap := by cases r <;> rfl
@[simp] theorem commit_rstN (r : ExecResult) (s : State) : (commit r s).rstN = s.rstN := by cases r <;> rfl
@[simp] theorem commit_rdata (r : ExecResult) (s : State) : (commit r s).rdata = s.rdata := by cases r <;> rfl
@[simp] theorem commit_events (r : ExecResult) (s : State) : (commit r s).events = s.events := by cases r <;> rfl
@[simp] theorem commit_phase (r : ExecResult) (s : State) : (commit r s).phase = .idle := by cases r <;> rfl
@[simp] theorem commit_busy (r : ExecResult) (s : State) : (commit r s).status.busy = false := by cases r <;> rfl
@[simp] theorem commit_done (r : ExecResult) (s : State) : (commit r s).status.done = true := by cases r <;> rfl
@[simp] theorem commit_werr (r : ExecResult) (s : State) : (commit r s).status.werr = s.status.werr := by
  cases r <;> rfl
@[simp] theorem commit_ok_d (e : Effect) (s : State) : (commit (.ok e) s).d = applyWrites e.writes s.d := rfl
@[simp] theorem commit_ok_status (e : Effect) (s : State) :
    (commit (.ok e) s).status = s.status.completedOk e.valid e.recid e.diag := rfl
@[simp] theorem commit_error_d (c : ErrCode) (s : State) : (commit (.error c) s).d = s.d := rfl
@[simp] theorem commit_error_status (c : ErrCode) (s : State) :
    (commit (.error c) s).status = s.status.completedErr c := rfl

/-! ### Acceptance -/

@[simp] theorem acceptCommand_d (w : Word) (s : State) : (acceptCommand w s).d = s.d := by
  unfold acceptCommand; split <;> [rfl; split <;> rfl]
@[simp] theorem acceptCommand_ie (w : Word) (s : State) : (acceptCommand w s).ie = s.ie := by
  unfold acceptCommand; split <;> [rfl; split <;> rfl]
@[simp] theorem acceptCommand_rstN (w : Word) (s : State) : (acceptCommand w s).rstN = s.rstN := by
  unfold acceptCommand; split <;> [rfl; split <;> rfl]
@[simp] theorem acceptCommand_rdata (w : Word) (s : State) : (acceptCommand w s).rdata = s.rdata := by
  unfold acceptCommand; split <;> [rfl; split <;> rfl]
@[simp] theorem acceptCommand_events (w : Word) (s : State) : (acceptCommand w s).events = s.events := by
  unfold acceptCommand; split <;> [rfl; split <;> rfl]

/-! ### Writes of the window -/

@[simp] theorem zeroize_ie (s : State) : (zeroize s).ie = s.ie := by
  unfold zeroize; split <;> rfl
@[simp] theorem zeroize_cmd (s : State) : (zeroize s).cmd = s.cmd := by
  unfold zeroize; split <;> rfl
@[simp] theorem zeroize_phase (s : State) : (zeroize s).phase = s.phase := by
  unfold zeroize; split <;> rfl
@[simp] theorem zeroize_pending (s : State) : (zeroize s).pending = s.pending := by
  unfold zeroize; split <;> rfl
@[simp] theorem zeroize_snap (s : State) : (zeroize s).snap = s.snap := by
  unfold zeroize; split <;> rfl
@[simp] theorem zeroize_rstN (s : State) : (zeroize s).rstN = s.rstN := by
  unfold zeroize; split <;> rfl
@[simp] theorem zeroize_rdata (s : State) : (zeroize s).rdata = s.rdata := by
  unfold zeroize; split <;> rfl
@[simp] theorem zeroize_events (s : State) : (zeroize s).events = s.events := by
  unfold zeroize; split <;> rfl
@[simp] theorem writeCtrl_cmd (v : Word) (s : State) : (writeCtrl v s).cmd = s.cmd := by
  unfold writeCtrl; dsimp only; split <;> simp
@[simp] theorem writeCtrl_phase (v : Word) (s : State) : (writeCtrl v s).phase = s.phase := by
  unfold writeCtrl; dsimp only; split <;> simp
@[simp] theorem writeCtrl_pending (v : Word) (s : State) : (writeCtrl v s).pending = s.pending := by
  unfold writeCtrl; dsimp only; split <;> simp
@[simp] theorem writeCtrl_snap (v : Word) (s : State) : (writeCtrl v s).snap = s.snap := by
  unfold writeCtrl; dsimp only; split <;> simp
@[simp] theorem writeCtrl_rstN (v : Word) (s : State) : (writeCtrl v s).rstN = s.rstN := by
  unfold writeCtrl; dsimp only; split <;> simp
@[simp] theorem writeCtrl_rdata (v : Word) (s : State) : (writeCtrl v s).rdata = s.rdata := by
  unfold writeCtrl; dsimp only; split <;> simp
@[simp] theorem writeCtrl_events (v : Word) (s : State) : (writeCtrl v s).events = s.events := by
  unfold writeCtrl; dsimp only; split <;> simp
@[simp] theorem writeData_ie (i : Reg) (w : WordIndex) (v : Word) (s : State) : (writeData i w v s).ie = s.ie := by
  unfold writeData; split <;> rfl
@[simp] theorem writeData_cmd (i : Reg) (w : WordIndex) (v : Word) (s : State) : (writeData i w v s).cmd = s.cmd := by
  unfold writeData; split <;> rfl
@[simp] theorem writeData_phase (i : Reg) (w : WordIndex) (v : Word) (s : State) : (writeData i w v s).phase = s.phase := by
  unfold writeData; split <;> rfl
@[simp] theorem writeData_pending (i : Reg) (w : WordIndex) (v : Word) (s : State) : (writeData i w v s).pending = s.pending := by
  unfold writeData; split <;> rfl
@[simp] theorem writeData_snap (i : Reg) (w : WordIndex) (v : Word) (s : State) : (writeData i w v s).snap = s.snap := by
  unfold writeData; split <;> rfl
@[simp] theorem writeData_rstN (i : Reg) (w : WordIndex) (v : Word) (s : State) : (writeData i w v s).rstN = s.rstN := by
  unfold writeData; split <;> rfl
@[simp] theorem writeData_rdata (i : Reg) (w : WordIndex) (v : Word) (s : State) : (writeData i w v s).rdata = s.rdata := by
  unfold writeData; split <;> rfl
@[simp] theorem writeData_events (i : Reg) (w : WordIndex) (v : Word) (s : State) : (writeData i w v s).events = s.events := by
  unfold writeData; split <;> rfl
@[simp] theorem busWrite_rstN (a : WordAddr) (v : Word) (s : State) : (busWrite a v s).rstN = s.rstN := by
  unfold busWrite; split <;> simp
@[simp] theorem busWrite_rdata (a : WordAddr) (v : Word) (s : State) : (busWrite a v s).rdata = s.rdata := by
  unfold busWrite; split <;> simp
@[simp] theorem busWrite_events (a : WordAddr) (v : Word) (s : State) : (busWrite a v s).events = s.events := by
  unfold busWrite; split <;> simp
@[simp] theorem writeCtrl_ie (v : Word) (s : State) : (writeCtrl v s).ie = v.getLsbD 0 := by
  unfold writeCtrl; dsimp only; split <;> simp

end Sys2Proof.Machine
end

