-- ==== Sys2Proof/Laws/Ops.lean ====
section
/-! SUPPORT. The laws of the named operations: a register or a word written is the one read back and no other changes;
the address map and its inverse; what a read, a write, an acceptance and a completion can do. -/

namespace Sys2Proof.Machine

/-! ### Data registers -/

theorem readReg_writeReg (d : RegFile) (i j : Reg) (v : Value) :
    readReg (writeReg d i v) j = if i = j then v else readReg d j := by
  simp only [readReg, writeReg, Vector.getElem_set, Fin.ext_iff]

@[simp] theorem readReg_writeReg_same (d : RegFile) (i : Reg) (v : Value) :
    readReg (writeReg d i v) i = v := by simp [readReg_writeReg]

theorem readReg_writeReg_ne (d : RegFile) {i j : Reg} (v : Value) (h : j ≠ i) :
    readReg (writeReg d i v) j = readReg d j := by simp [readReg_writeReg, h.symm]

@[simp] theorem readReg_zeroRegs (i : Reg) : readReg zeroRegs i = 0#256 := by
  simp [readReg, zeroRegs]

/-- Two register files are equal when all their registers are. -/
theorem regFile_ext {d e : RegFile} (h : ∀ i, readReg d i = readReg e i) : d = e := by
  apply Vector.ext
  intro i hi
  exact h ⟨i, hi⟩

theorem rawOperand_lt (snap : RegFile) (i : Reg) : rawOperand snap i < 2 ^ 256 := (readReg snap i).isLt

theorem toValue_toNat {v : Nat} (h : v < 2 ^ 256) : (toValue v).toNat = v := by
  rw [toValue, BitVec.toNat_ofNat, Nat.mod_eq_of_lt h]

@[simp] theorem toValue_of_toNat (v : Value) : toValue v.toNat = v := by simp [toValue]

/-! ### Words of a 256-bit value -/

theorem wordLo_le (w : WordIndex) : wordLo w + 32 ≤ 256 := by unfold wordLo; omega

/-- Two different words of a value have no bit in common. -/
theorem wordLo_disjoint {w w' : WordIndex} (h : w ≠ w') : wordLo w + 32 ≤ wordLo w' ∨ wordLo w' + 32 ≤ wordLo w := by
  have h' : w.val ≠ w'.val := fun e => h (Fin.ext e)
  unfold wordLo; omega

theorem getLsbD_getWord (v : Value) (w : WordIndex) (j : Nat) :
    (getWord v w).getLsbD j = (decide (j < 32) && v.getLsbD (wordLo w + j)) := by
  simp [getWord, BitVec.getLsbD_extractLsb']

/-- Word w of V is `V[255 − 32·w : 224 − 32·w]`, in natural numbers (20_memory.md R52). -/
theorem getWord_toNat (v : Value) (w : WordIndex) : (getWord v w).toNat = v.toNat / 2 ^ (224 - 32 * w.val) % 2 ^ 32 := by
  rw [getWord, BitVec.extractLsb'_toNat, Nat.shiftRight_eq_div_pow]; rfl

/-- A word write replaces exactly the bits of its word (20_memory.md R52). -/
theorem getLsbD_setWord (v : Value) (w : WordIndex) (x : Word) (j : Nat) :
    (setWord v w x).getLsbD j =
      if wordLo w ≤ j ∧ j < wordLo w + 32 then x.getLsbD (j - wordLo w) else v.getLsbD j := by
  have hle := wordLo_le w
  by_cases hj : j < 256
  · simp only [setWord, BitVec.getLsbD_or, BitVec.getLsbD_and, BitVec.getLsbD_not, BitVec.getLsbD_shiftLeft,
      BitVec.getLsbD_setWidth, BitVec.getLsbD_allOnes, hj, decide_true, Bool.true_and]
    by_cases h1 : wordLo w ≤ j
    · by_cases h2 : j < wordLo w + 32
      · have h3 : j - wordLo w < 32 := by omega
        have h4 : j - wordLo w < 256 := by omega
        simp [h1, h2, h3, h4, Nat.not_lt.mpr h1]
      · have h3 : ¬ j - wordLo w < 32 := by omega
        simp [h2, h3, BitVec.getLsbD_of_ge x _ (by omega : 32 ≤ j - wordLo w)]
    · simp [h1, Nat.lt_of_not_le h1]
  · rw [BitVec.getLsbD_of_ge _ _ (by omega), BitVec.getLsbD_of_ge v _ (by omega), if_neg (by omega)]

theorem getWord_setWord_same (v : Value) (w : WordIndex) (x : Word) : getWord (setWord v w x) w = x := by
  refine BitVec.eq_of_getLsbD_eq fun j hj => ?_
  rw [getLsbD_getWord, getLsbD_setWord, if_pos ⟨by omega, by omega⟩]
  simp [hj]

theorem getWord_setWord_ne (v : Value) {w w' : WordIndex} (x : Word) (h : w' ≠ w) :
    getWord (setWord v w x) w' = getWord v w' := by
  refine BitVec.eq_of_getLsbD_eq fun j hj => ?_
  have := wordLo_disjoint h
  rw [getLsbD_getWord, getLsbD_getWord, getLsbD_setWord, if_neg (by omega)]

/-- Two 256-bit values are equal when all their words are. -/
theorem value_ext_words {v v' : Value} (h : ∀ w, getWord v w = getWord v' w) : v = v' := by
  refine BitVec.eq_of_getLsbD_eq fun j hj => ?_
  have hw := congrArg (fun x : Word => x.getLsbD (j % 32)) (h ⟨7 - j / 32, by omega⟩)
  simp only [getLsbD_getWord, wordLo] at hw
  have h1 : j % 32 < 32 := Nat.mod_lt _ (by omega)
  have h2 : 224 - 32 * (7 - j / 32) + j % 32 = j := by omega
  simpa [h1, h2] using hw

/-! ### The address map -/

@[simp] theorem locate_idAddr : locate idAddr = .id := rfl
@[simp] theorem locate_ctrlAddr : locate ctrlAddr = .ctrl := rfl
@[simp] theorem locate_statusAddr : locate statusAddr = .status := rfl
@[simp] theorem locate_cmdAddr : locate cmdAddr = .cmd := rfl

@[simp] theorem locate_dataAddr (i : Reg) (w : WordIndex) : locate (dataAddr i w) = .data i w := by
  revert i w; decide

@[simp] theorem locate_romAddr (c : RomConst) (w : WordIndex) : locate (romAddr c w) = .rom c w := by
  cases c <;> revert w <;> decide

/-- The byte offset of a word (20_memory.md R50). -/
theorem byteOffset_toNat (a : WordAddr) : (byteOffset a).toNat = 4 * a.toNat := by
  revert a; decide +kernel

/-- The one address of a place of the map, if it is not reserved. -/
def Loc.addr : Loc → Option WordAddr
  | .id => some idAddr
  | .ctrl => some ctrlAddr
  | .status => some statusAddr
  | .cmd => some cmdAddr
  | .data i w => some (dataAddr i w)
  | .rom c w => some (romAddr c w)
  | .reserved => none

/-- The inverse of the address map: each place but the reserved ones has one address. -/
theorem addr_locate (a : WordAddr) : locate a = .reserved ∨ (locate a).addr = some a := by
  revert a; decide +kernel

theorem addr_of_locate {a : WordAddr} {l : Loc} (h : locate a = l) (hl : l ≠ .reserved) : l.addr = some a := by
  have := addr_locate a; rw [h] at this; exact this.resolve_left hl

theorem addr_of_data {a : WordAddr} {i : Reg} {w : WordIndex} (h : locate a = .data i w) : a = dataAddr i w := by
  simpa [Loc.addr, eq_comm] using addr_of_locate h (by simp)

theorem addr_of_status {a : WordAddr} (h : locate a = .status) : a = statusAddr := by
  simpa [Loc.addr, eq_comm] using addr_of_locate h (by simp)

theorem addr_of_cmd {a : WordAddr} (h : locate a = .cmd) : a = cmdAddr := by
  simpa [Loc.addr, eq_comm] using addr_of_locate h (by simp)

theorem addr_of_ctrl {a : WordAddr} (h : locate a = .ctrl) : a = ctrlAddr := by
  simpa [Loc.addr, eq_comm] using addr_of_locate h (by simp)

/-- The one address of a data register's word (20_memory.md R51). -/
theorem dataAddr_of_offset {a : WordAddr} {i : Reg} {w : WordIndex} 
    (h : (byteOffset a).toNat = 0x100 + 0x20 * i.val + 4 * w.val) :
    a = dataAddr i w := by
  rw [byteOffset_toNat] at h; unfold dataAddr; apply BitVec.eq_of_toNat_eq; simp; omega

/-- The one address of a ROM constant's word (20_memory.md R51). -/
theorem romAddr_of_offset {a : WordAddr} {c : RomConst} {w : WordIndex} 
    (h : (byteOffset a).toNat = 0x200 + 0x20 * c.index + 4 * w.val) :
    a = romAddr c w := by
  rw [byteOffset_toNat] at h; unfold romAddr; apply BitVec.eq_of_toNat_eq
  have : c.index ≤ 5 := by cases c <;> decide
  simp; omega

/-- An address is its byte offset divided by 4 (20_memory.md R50). -/
theorem addr_of_offset {a : WordAddr} (k : Nat) (hk : k < 1024)
    (h : (byteOffset a).toNat = 4 * k) : a = BitVec.ofNat 10 k := by
  rw [byteOffset_toNat] at h; apply BitVec.eq_of_toNat_eq; simp; omega

/-- The reserved offsets of the map (20_memory.md R51). -/
theorem locate_reserved (a : WordAddr) 
    (h : 0x010 ≤ (byteOffset a).toNat ∧ (byteOffset a).toNat ≤ 0x0FC ∨ 0x2C0 ≤ (byteOffset a).toNat) :
    locate a = .reserved := by
  revert h; revert a; decide +kernel
/-- The platform's address of a word of the window selects that word, wherever BASE is (20_memory.md R50). -/
theorem selectWord_platformAddress (a : WordAddr) : selectWord (platformAddress a) = some a := by
  have ha := a.isLt
  have hc : Config.base ≤ platformAddress a ∧ platformAddress a < Config.base + 4096 ∧ platformAddress a % 4 = 0 := by
    unfold platformAddress Config.base; omega
  rw [selectWord, if_pos hc]
  simp [platformAddress]

/-! ### Reads of the window -/

@[simp] theorem busRead_id (s : State) : busRead s idAddr = Config.idWord := rfl
@[simp] theorem busRead_ctrl (s : State) : busRead s ctrlAddr = ctrlWord s := rfl
@[simp] theorem busRead_status (s : State) : busRead s statusAddr = s.status.word := rfl
@[simp] theorem busRead_cmd (s : State) : busRead s cmdAddr = s.cmd := rfl

@[simp] theorem busRead_data (s : State) (i : Reg) (w : WordIndex) :
    busRead s (dataAddr i w) = getWord (readReg s.d i) w := by simp [busRead]

@[simp] theorem busRead_rom (s : State) (c : RomConst) (w : WordIndex) :
    busRead s (romAddr c w) = getWord c.value w := by simp [busRead]

theorem busRead_reserved (s : State) {a : WordAddr} (h : locate a = .reserved) : busRead s a = 0#32 := by
  simp [busRead, h]

/-- What a read of the window depends on: D, IE, STATUS and CMD. -/
theorem busRead_congr {s t : State} (hd : s.d = t.d) (hi : s.ie = t.ie) (hs : s.status = t.status)
    (hc : s.cmd = t.cmd) (a : WordAddr) : busRead s a = busRead t a := by
  unfold busRead ctrlWord; rw [hd, hi, hs, hc]

/-! ### Writes of the window -/

@[simp] theorem busWrite_ctrl (v : Word) (s : State) : busWrite ctrlAddr v s = writeCtrl v s := rfl
@[simp] theorem busWrite_status (v : Word) (s : State) :
    busWrite statusAddr v s = { s with status := s.status.w1c v } := rfl
@[simp] theorem busWrite_cmd (v : Word) (s : State) : busWrite cmdAddr v s = acceptCommand v s := rfl

@[simp] theorem busWrite_data (i : Reg) (w : WordIndex) (v : Word) (s : State) :
    busWrite (dataAddr i w) v s = writeData i w v s := by simp [busWrite]

/-- Everything a write to the window can do (20_memory.md R51, R56 to R58). -/
theorem busWrite_cases (a : WordAddr) (v : Word) (s : State) :
    (a = ctrlAddr ∧ busWrite a v s = writeCtrl v s) ∨
    (a = statusAddr ∧ busWrite a v s = { s with status := s.status.w1c v }) ∨
    (a = cmdAddr ∧ busWrite a v s = acceptCommand v s) ∨
    (∃ i w, a = dataAddr i w ∧ busWrite a v s = writeData i w v s) ∨
    ((locate a = .id ∨ (∃ c w, locate a = .rom c w) ∨ locate a = .reserved) ∧ busWrite a v s = s) := by
  cases h : locate a with
  | ctrl => exact .inl ⟨addr_of_ctrl h, by simp [busWrite, h]⟩
  | status => exact .inr (.inl ⟨addr_of_status h, by simp [busWrite, h]⟩)
  | cmd => exact .inr (.inr (.inl ⟨addr_of_cmd h, by simp [busWrite, h]⟩))
  | data i w => exact .inr (.inr (.inr (.inl ⟨i, w, addr_of_data h, by simp [busWrite, h]⟩)))
  | _ => exact .inr (.inr (.inr (.inr ⟨by simp, by simp [busWrite, h]⟩)))

/-- Everything a write to CMD can do (10_state.md R26). -/
theorem acceptCommand_cases (w : Word) (s : State) :
    (s.status.busy = true ∧ acceptCommand w s = { s with status := s.status.refusedWrite }) ∨
    (s.status.busy = false ∧ legal w = true ∧
      acceptCommand w s = { s with cmd := w, status := s.status.accepted.started,
                                   phase := .running, pending := w, snap := s.d }) ∨
    (s.status.busy = false ∧ legal w = false ∧
      acceptCommand w s = { s with cmd := w, status := s.status.accepted.illegal }) := by
  unfold acceptCommand
  cases s.status.busy <;> cases legal w <;> simp

/-- Everything a completion can do (60_exceptions.md R193). -/
theorem commit_cases (r : ExecResult) (s : State) :
    (∃ e, r = .ok e ∧ commit r s = { s with d := applyWrites e.writes s.d,
                                            status := s.status.completedOk e.valid e.recid e.diag,
                                            phase := .idle }) ∨
    (∃ c, r = .error c ∧ commit r s = { s with status := s.status.completedErr c, phase := .idle }) := by
  cases r with
  | ok e => exact .inl ⟨e, rfl, rfl⟩
  | error c => exact .inr ⟨c, rfl, rfl⟩

@[simp] theorem applyWrites_nil (d : RegFile) : applyWrites [] d = d := rfl
@[simp] theorem applyWrites_cons (r : Reg) (v : Value) (ws : List (Reg × Value)) (d : RegFile) :
    applyWrites ((r, v) :: ws) d = applyWrites ws (writeReg d r v) := rfl

/-- A register that no write names keeps its value. -/
theorem readReg_applyWrites_of_not_mem (ws : List (Reg × Value)) (d : RegFile) (i : Reg)
    (h : ∀ rv ∈ ws, rv.1 ≠ i) : readReg (applyWrites ws d) i = readReg d i := by
  induction ws generalizing d with
  | nil => rfl
  | cons rv ws ih =>
    obtain ⟨r, v⟩ := rv
    rw [applyWrites_cons, ih _ fun q hq => h q (List.mem_cons_of_mem _ hq),
      readReg_writeReg_ne _ _ (h (r, v) List.mem_cons_self).symm]

end Sys2Proof.Machine
end

