-- ==== Sys2Proof/Laws/Step.lean ====
section
/-! SUPPORT. Once and for all what a step can do: `exec` is a completion of a function of the command and the snapshot, and
a step takes one input or is the engine's turn. -/

namespace Sys2Proof.Machine

/-! ### Every command is a completion -/

/-- `Exec(pending, snap)` of 60_exceptions.md R193, as one function of the command and the snapshot. -/
def execResult (i : Instr) (snap : RegFile) : ExecResult :=
  match i with
  | .fadd m rd rs1 rs2 => faddResult m rd rs1 rs2 snap
  | .fsub m rd rs1 rs2 => fsubResult m rd rs1 rs2 snap
  | .fmul m rd rs1 rs2 => fmulResult m rd rs1 rs2 snap
  | .mmul m rd rs1 rs2 => mmulResult m rd rs1 rs2 snap
  | .fpow m rd rs1 rs2 => fpowResult m rd rs1 rs2 snap
  | .finv m rd rs1 => finvResult m rd rs1 snap
  | .fsqrt rd rs1 => fsqrtResult rd rs1 snap
  | .pdbl rd rs1 => pdblResult rd rs1 snap
  | .padd rd rs1 rs2 => paddResult rd rs1 rs2 snap
  | .pneg rd rs1 => pnegResult rd rs1 snap
  | .pmul rd rs1 rs2 => pmulResult rd rs1 rs2 snap
  | .pmulG rd rs2 => pmulGResult rd rs2 snap
  | .pdec rd rs1 pfx => pdecResult rd rs1 pfx snap
  | .sign => signResult snap
  | .verify => verifyResult snap

/-- Every command completes, by one commit of its result (60_exceptions.md R193). -/
theorem exec_eq_commit (i : Instr) (s : State) : exec i s = .next (commit (execResult i s.snap) s) := by
  cases i <;> rfl

theorem commit_ok_eq_okState (e : Effect) (s : State) :
    commit (.ok e) s = okState s (applyWrites e.writes s.d) e.valid e.recid e.diag := rfl

theorem commit_error_eq_errState (c : ErrCode) (s : State) : commit (.error c) s = errState s c := rfl

theorem commit_scalarEffect (rd : Reg) (v : Nat) (s : State) :
    commit (.ok (scalarEffect rd v)) s = scalarState s rd v := rfl

theorem commit_pointEffect (rd : Reg) (q : Point) (s : State) :
    commit (.ok (pointEffect rd q)) s = pointState s rd q := rfl

theorem commit_scalarResult (rd : Reg) (r : Except ErrCode Nat) (s : State) :
    commit (scalarResult rd r) s = match r with
      | .ok v => scalarState s rd v
      | .error c => errState s c := by cases r <;> rfl

theorem commit_pointResult (rd : Reg) (r : Except ErrCode Point) (s : State) :
    commit (pointResult rd r) s = match r with
      | .ok q => pointState s rd q
      | .error c => errState s c := by cases r <;> rfl

/-! ### The engine's turn and the step -/

theorem engineEnabled_iff (s : State) : engineEnabled s = true ↔ s.rstN = true ∧ s.phase = .running := by
  simp [engineEnabled]

/-- Everything the engine's turn can do. -/
theorem engineTurn_cases (s : State) :
    (engineEnabled s = false ∧ engineTurn s = .next s) ∨
    (engineEnabled s = true ∧ ∃ i, decode s.pending = .ok i ∧ engineTurn s = .next (commit (execResult i s.snap) s)) ∨
    (engineEnabled s = true ∧ legal s.pending = false ∧ engineTurn s = .fault .illegalInFlight) := by
  unfold engineTurn
  cases he : engineEnabled s with
  | false => exact .inl ⟨rfl, by simp⟩
  | true =>
    refine .inr ?_
    cases hd : decode s.pending with
    | ok i => exact .inl ⟨rfl, i, rfl, by simp [exec_eq_commit]⟩
    | error r =>
      refine .inr ⟨rfl, ?_, by simp⟩
      by_contra h
      obtain ⟨i, hi⟩ := decode_of_legal (by simpa using h)
      rw [hd] at hi; simp at hi

/-- A step is the engine's turn, after the input that gives it has been taken, or the taking of one other input. -/
theorem step_cases (s : State) :
    (∃ rest, (s.events = [] ∧ rest = [] ∨ s.events = .engine :: rest) ∧ step s = engineTurn (s.afterInput rest)) ∨
    (∃ e rest, s.events = e :: rest ∧ e ≠ .engine ∧ step s = .next (takeInput e (s.afterInput rest))) := by
  unfold step
  cases h : s.events with
  | nil => exact .inl ⟨[], .inl ⟨rfl, rfl⟩, rfl⟩
  | cons e rest =>
    cases e with
    | engine => exact .inl ⟨rest, .inr rfl, rfl⟩
    | _ => exact .inr ⟨_, rest, rfl, by simp, rfl⟩

theorem step_engine {s : State} {rest : List Event} (h : s.events = .engine :: rest) :
    step s = engineTurn (s.afterInput rest) := by unfold step; rw [h]

theorem step_nil {s : State} (h : s.events = []) : step s = engineTurn (s.afterInput []) := by unfold step; rw [h]

theorem step_read {s : State} {a : WordAddr} {rest : List Event} (h : s.events = .read a :: rest) :
    step s = .next (takeInput (.read a) (s.afterInput rest)) := by unfold step; rw [h]

theorem step_write {s : State} {a : WordAddr} {v : Word} {rest : List Event} (h : s.events = .write a v :: rest) :
    step s = .next (takeInput (.write a v) (s.afterInput rest)) := by unfold step; rw [h]

/-- The engine's turn with a command in flight is the execution of that command (60_exceptions.md R193). -/
theorem engineTurn_running {s : State} {i : Instr} (hr : s.rstN = true) (hp : s.phase = .running)
    (hd : decode s.pending = .ok i) : engineTurn s = exec i s := by
  unfold engineTurn; rw [if_pos ((engineEnabled_iff s).2 ⟨hr, hp⟩), hd]

/-- Everything a step that answers a next state can do: a command completes; or the registers keep their values; or a write
of the host is taken; or everything is reset. -/
theorem step_next_cases {s t : State} (h : step s = .next t) :
    (completesNext s = true ∧ ∃ rest i, decode s.pending = .ok i ∧
      t = commit (execResult i s.snap) (s.afterInput rest)) ∨
    (∃ rest rd rn, (rn = s.rstN ∨ rn = true) ∧ t = { s with events := rest, rdata := rd, rstN := rn }) ∨
    (∃ rest a v, writesNext s a v ∧ t = busWrite a v (s.afterInput rest)) ∨
    (∃ rest rn, resetsNext s ∧ t = { State.reset with events := rest, rstN := rn }) := by
  rcases step_cases s with ⟨rest, hr, hs⟩ | ⟨e, rest, he, hne, hs⟩
  · rw [hs] at h
    rcases engineTurn_cases (s.afterInput rest) with ⟨-, hn⟩ | ⟨he, i, hi, hn⟩ | ⟨-, -, hn⟩
    · rw [hn, Host.Outcome.next.injEq] at h
      exact .inr (.inl ⟨rest, none, s.rstN, .inl rfl, h.symm⟩)
    · rw [hn, Host.Outcome.next.injEq] at h
      refine .inl ⟨?_, rest, i, hi, h.symm⟩
      have : engineEnabled s = true := he
      rcases hr with ⟨hr, -⟩ | hr <;> simp [completesNext, this, hr]
    · rw [hn] at h; simp at h
  · rw [hs, Host.Outcome.next.injEq] at h
    subst h
    cases e with
    | read a =>
      simp only [takeInput]
      split
      · exact .inr (.inl ⟨rest, _, s.rstN, .inl rfl, rfl⟩)
      · exact .inr (.inl ⟨rest, none, s.rstN, .inl rfl, rfl⟩)
    | write a v =>
      simp only [takeInput]
      split
      · exact .inr (.inr (.inl ⟨rest, a, v, ⟨‹_›, by rw [he]; rfl⟩, rfl⟩))
      · exact .inr (.inl ⟨rest, none, s.rstN, .inl rfl, rfl⟩)
    | engine => exact absurd rfl hne
    | rst level =>
      cases level with
      | true => exact .inr (.inl ⟨rest, none, true, .inr rfl, rfl⟩)
      | false => exact .inr (.inr (.inr ⟨rest, false, ⟨_, by rw [he]; rfl, rfl⟩, rfl⟩))
    | powerCycle => exact .inr (.inr (.inr ⟨rest, s.rstN, ⟨_, by rw [he]; rfl, rfl⟩, rfl⟩))

theorem engineEnabled_of_completesNext {s : State} (hc : completesNext s = true) :
    s.rstN = true ∧ s.phase = .running := by
  have : engineEnabled s = true := by
    unfold completesNext at hc; simp at hc; exact hc.1
  exact (engineEnabled_iff s).1 this

/-! ### Runs -/

theorem run_succ (M : Host.Core) {k : Nat} {s u : M.State} (h : M.step s = .next u) :
    M.run (k + 1) s = M.run k u := by
  rw [Host.Core.run, h]

theorem Runs_zero (s t : State) : Runs 0 s t ↔ s = t := by
  show (Host.Outcome.next s : Host.Outcome State Fault Refusal) = .next t ↔ s = t
  exact ⟨fun h => by injection h, fun h => by rw [h]⟩

theorem Runs_succ {k : Nat} {s u t : State} (h : step s = .next u) : Runs (k + 1) s t ↔ Runs k u t := by
  have := run_succ Sys2Proof.core (k := k) (s := s) (u := u) h
  unfold Runs; rw [this]

/-- Every step takes the next input, if there is one. -/
theorem step_events {s t : State} (h : step s = .next t) : t.events = s.events.tail := by
  rcases step_cases s with ⟨rest, hr, hs⟩ | ⟨e, rest, he, hne, hs⟩
  · have : rest = s.events.tail := by rcases hr with ⟨h, rfl⟩ | h <;> simp [h]
    rw [hs] at h
    rcases engineTurn_cases (s.afterInput rest) with ⟨-, hn⟩ | ⟨he, i, hi, hn⟩ | ⟨he, hl, hn⟩ <;> rw [hn] at h
    · rw [Host.Outcome.next.injEq] at h; subst h; exact this
    · rw [Host.Outcome.next.injEq] at h; subst h; simpa using this
    · simp at h
  · rw [hs, Host.Outcome.next.injEq] at h; subst h
    rw [he]
    cases e with
    | read | write => simp only [takeInput]; split <;> simp
    | engine => rfl
    | rst l => cases l <;> simp [takeInput]
    | powerCycle => rfl

/-- The first of several steps. -/
theorem run_succ_inv (M : Host.Core) {k : Nat} {s t : M.State} (h : M.run (k + 1) s = .next t) :
    ∃ u, M.step s = .next u ∧ M.run k u = .next t := by
  rw [Host.Core.run] at h
  split at h
  · next u hu => exact ⟨u, hu, h⟩
  · simp at h
  · simp at h

theorem Runs_add {j k : Nat} {s u t : State} (h : Runs j s u) (h' : Runs k u t) : Runs (j + k) s t := by
  induction j generalizing s with
  | zero => rw [(Runs_zero s u).1 h, Nat.zero_add]; exact h'
  | succ j ih =>
    obtain ⟨v, hv, h⟩ := run_succ_inv Sys2Proof.core h
    rw [Nat.succ_add, Runs_succ hv]
    exact ih h

end Sys2Proof.Machine
end

