-- ==== Sys2Proof/Laws/Outcome.lean ====
section
/-! SUPPORT. What the outcome of a command can be: the registers it writes, the flags it sets, the codes it raises. -/

namespace Sys2Proof.Machine

/-- The registers a completion writes are the destinations of the command (60_exceptions.md R193). -/
theorem execResult_ok {i : Instr} {snap : RegFile} {e : Effect} (h : execResult i snap = .ok e) :
    e.writes.map (fun x => x.1) = dests i := by
  have hs : ∀ rd r, scalarResult rd r = .ok e → e.writes.map (fun x => x.1) = [rd] := by
    intro rd r h; cases r <;> simp [scalarResult] at h; subst h; rfl
  have hp : ∀ rd r, pointResult rd r = .ok e → e.writes.map (fun x => x.1) = [rd, pairY rd] := by
    intro rd r h; cases r <;> simp [pointResult] at h; subst h; rfl
  cases i with
  | fadd | fsub | fmul | mmul | fpow | pneg => cases h; rfl
  | finv | fsqrt => exact hs _ _ h
  | pdbl | padd | pmul | pmulG | pdec => exact hp _ _ h
  | sign =>
    simp only [execResult, signResult] at h
    split at h
    · simp at h
    · cases h; rfl
  | verify =>
    simp only [execResult, verifyResult] at h
    split at h <;> cases h <;> rfl

/-- The flags beside DONE: RECID is SIGN's, VALID and DIAG are VERIFY's, and DIAG goes with VALID = 0 (10_state.md R25). -/
theorem execResult_flags {i : Instr} {snap : RegFile} {e : Effect} (h : execResult i snap = .ok e) :
    (e.valid = true → i = .verify ∧ e.diag = 0#4) ∧ (e.recid ≠ 0#2 → i = .sign) ∧
    (e.diag ≠ 0#4 → i = .verify) := by
  have hs : ∀ rd r, scalarResult rd r = .ok e → e.valid = false ∧ e.recid = 0#2 ∧ e.diag = 0#4 := by
    intro rd r h; cases r <;> simp [scalarResult] at h; subst h; exact ⟨rfl, rfl, rfl⟩
  have hp : ∀ rd r, pointResult rd r = .ok e → e.valid = false ∧ e.recid = 0#2 ∧ e.diag = 0#4 := by
    intro rd r h; cases r <;> simp [pointResult] at h; subst h; exact ⟨rfl, rfl, rfl⟩
  have hz : e.valid = false ∧ e.recid = 0#2 ∧ e.diag = 0#4 → (e.valid = true → i = .verify ∧ e.diag = 0#4) ∧
      (e.recid ≠ 0#2 → i = .sign) ∧ (e.diag ≠ 0#4 → i = .verify) := by
    rintro ⟨a, b, c⟩; simp [a, b, c]
  cases i with
  | fadd | fsub | fmul | mmul | fpow | pneg => cases h; exact hz ⟨rfl, rfl, rfl⟩
  | finv | fsqrt => exact hz (hs _ _ h)
  | pdbl | padd | pmul | pmulG | pdec => exact hz (hp _ _ h)
  | sign =>
    simp only [execResult, signResult] at h
    split at h
    · simp at h
    · cases h; simp
  | verify =>
    simp only [execResult, verifyResult] at h
    split at h <;> cases h <;> simp

/-! ### Which errors each function raises (60_exceptions.md R191) -/

theorem pdblF_error {q : Point} {c : ErrCode} (h : pdblF q = .error c) : c = .unsupportedInfinity := by
  unfold pdblF at h; split at h <;> simp_all

theorem paddF_error {q1 q2 : Point} {c : ErrCode} (h : paddF q1 q2 = .error c) : c = .unsupportedInfinity := by
  unfold paddF at h
  repeat' split at h
  · exact pdblF_error h
  all_goals simp_all

theorem pmulLoop_error (k : Nat) (q : Point) {c : ErrCode} (i : Nat) :
    ∀ acc, pmulLoop k q i acc = .error c → c = .unsupportedInfinity := by
  induction i with
  | zero => intro acc h; simp [pmulLoop] at h
  | succ i ih =>
    intro acc h
    rw [pmulLoop] at h
    split at h
    · next c' hb =>
      obtain rfl : c' = c := by simpa using h
      unfold pmulBit at hb
      split at hb
      · next hd => cases hb; exact pdblF_error hd
      · split at hb
        · exact paddF_error hb
        · simp at hb
    · exact ih _ h

theorem pmulF_error {k : Nat} {q : Point} {c : ErrCode} (h : pmulF k q = .error c) :
    c = .unsupportedInfinity ∨ c = .zeroScalar := by
  unfold pmulF at h
  split at h
  · exact .inr (by simpa using h.symm)
  · exact .inl (pmulLoop_error _ _ _ _ h)

/-- SIGN's scalar multiplication cannot fail (43_ecdsa.md R170). -/
theorem pmulF_generator {t : Nat} (h0 : t % Config.n ≠ 0) (h : t < Config.n) :
    ∃ q, pmulF t generator = .ok q := by
  have : Fact (Nat.Prime Config.p) := ⟨p_prime⟩
  obtain ⟨P, hP⟩ := exists_rep generator_onCurve
  rcases pmulF_onCurve hP (k := t) (h.trans n_lt) with ⟨h1, -⟩ | ⟨h1, -⟩ | ⟨-, -, r, hr, -⟩
  · exact absurd (by rw [h1]; rfl) h0
  · omega
  · exact ⟨r, hr⟩

theorem fsqrtF_error {a : Nat} {c : ErrCode} (h : fsqrtF a = .error c) : c = .noSquareRoot := by
  unfold fsqrtF at h; dsimp only at h; split at h <;> simp_all

theorem pdecF_error {pfx : BitVec 8} {x : Nat} {c : ErrCode} (h : pdecF pfx x = .error c) :
    c = .noSquareRoot ∨ c = .malformedEncoding := by
  unfold pdecF at h
  split at h
  · exact .inr (by simpa using h.symm)
  · split at h
    · exact .inr (by simpa using h.symm)
    · split at h
      · next hq => obtain rfl := by simpa using h
                   exact .inl (fsqrtF_error hq)
      · split at h
        · simp at h
        · split at h
          · exact .inl (by simpa using h.symm)
          · simp at h

/-- The codes a command raises are those of the column "raised by" (60_exceptions.md R191). -/
theorem execResult_error {i : Instr} {snap : RegFile} {c : ErrCode} (h : execResult i snap = .error c) :
    c ∈ mayRaise i := by
  have hs : ∀ rd r, scalarResult rd r = .error c → r = .error c := by
    intro rd r h; cases r <;> simp [scalarResult] at h; rw [h]
  have hp : ∀ rd r, pointResult rd r = .error c → r = .error c := by
    intro rd r h; cases r <;> simp [pointResult] at h; rw [h]
  cases i with
  | fadd | fsub | fmul | mmul | fpow | pneg => cases h
  | finv m rd rs1 =>
    have := hs _ _ h
    unfold finvF at this; split at this <;> simp at this; subst this; simp [mayRaise]
  | fsqrt rd rs1 =>
    have := fsqrtF_error (hs _ _ h); subst this; simp [mayRaise]
  | pdbl => have := pdblF_error (hp _ _ h); subst this; simp [mayRaise]
  | padd => have := paddF_error (hp _ _ h); subst this; simp [mayRaise]
  | pmul | pmulG => have := pmulF_error (hp _ _ h); simpa [mayRaise] using this
  | pdec => have := pdecF_error (hp _ _ h); simpa [mayRaise] using this
  | sign =>
    simp only [execResult, signResult] at h
    split at h
    · next c' hsig =>
      obtain rfl : c' = c := by simpa using h
      unfold signF at hsig
      split at hsig
      · simp at hsig; subst hsig; simp [mayRaise]
      · dsimp only at hsig
        split at hsig
        · simp at hsig; subst hsig; simp [mayRaise]
        · next h0 =>
          obtain ⟨q, hq⟩ := pmulF_generator (t := rawOperand snap 2 % Config.n) (by rwa [Nat.mod_mod]) (Nat.mod_lt _ n_pos)
          rw [hq] at hsig; simp at hsig
    · simp at h
  | verify =>
    simp only [execResult, verifyResult] at h
    split at h <;> simp at h

/-- The failures of VERIFY's steps (43_ecdsa.md R172). -/
theorem verifyPoint_error {d r s : Nat} {q : Point} {c : ErrCode} (h : verifyPoint d r s q = .error c) :
    c = .notInvertible ∨ c = .unsupportedInfinity ∨ c = .zeroScalar := by
  unfold verifyPoint at h
  dsimp only at h
  split at h
  · exact .inl (by simpa using h.symm)
  · split at h
    · next hp => obtain rfl := by simpa using h
                 exact .inr (pmulF_error hp)
    · split at h
      · next hp => obtain rfl := by simpa using h
                   exact .inr (pmulF_error hp)
      · exact .inr (.inl (paddF_error h))

/-- DIAG takes one of the codes VERIFY records (43_ecdsa.md R172, 60_exceptions.md R191). -/
theorem execResult_diag {i : Instr} {snap : RegFile} {e : Effect} (h : execResult i snap = .ok e) :
    e.diag ∈ diagcodes := by
  by_cases hd : e.diag = 0#4
  · rw [hd]; decide
  · obtain rfl := (execResult_flags h).2.2 hd
    simp only [execResult, verifyResult] at h
    split at h
    · next hv =>
      cases h
      rcases verifyPoint_error hv with rfl | rfl | rfl <;> decide
    · cases h; exact absurd rfl hd

/-- The codes commands raise are not 0, and ERRCODE can hold them (60_exceptions.md R191). -/
theorem mayRaise_code {i : Instr} {c : ErrCode} (h : c ∈ mayRaise i) : c.code ≠ 0#4 ∧ c.code ∈ errcodes := by
  cases i <;> simp [mayRaise] at h <;> rcases h with rfl | rfl <;> decide

end Sys2Proof.Machine
end

