-- ==== Sys2Proof/Laws/Field.lean ====
section
/-! SUPPORT. The laws of the field functions that need p and n prime: inverses, the Montgomery product, the square root. -/

namespace Sys2Proof.Machine

/-- Both moduli are prime (00_scope.md R3). -/
theorem modulus_prime (m : Modulus) : (modulusOf m).Prime := by cases m; exacts [p_prime, n_prime]
theorem modulus_pos (m : Modulus) : 0 < modulusOf m := (modulus_prime m).pos
theorem one_lt_modulus (m : Modulus) : 1 < modulusOf m := (modulus_prime m).one_lt
theorem modulus_lt (m : Modulus) : modulusOf m < 2 ^ 256 := by cases m; exacts [p_lt, n_lt]

/-- Every reduced operand but 0 is invertible (40_field.md R106). -/
theorem gcd_modulus {m : Modulus} {a : Nat} (h0 : a ≠ 0) (h : a < modulusOf m) : Nat.gcd a (modulusOf m) = 1 :=
  (Nat.coprime_of_lt_prime h0 h (modulus_prime m)).symm

/-- Multiplication by an invertible number can be undone modulo m. -/
theorem mul_right_cancel_mod {m c u v : Nat} (hc : Nat.gcd c m = 1) (hu : u < m) (hv : v < m)
    (h : u * c % m = v * c % m) : u = v := by
  have : u ≡ v [MOD m] := Nat.ModEq.cancel_right_of_coprime (by rwa [Nat.gcd_comm]) h
  rwa [Nat.ModEq, Nat.mod_eq_of_lt hu, Nat.mod_eq_of_lt hv] at this

/-- 2^256 is invertible modulo p and n (40_field.md R104). -/
theorem gcd_radix (m : Modulus) : Nat.gcd (2 ^ 256) (modulusOf m) = 1 := by cases m <;> decide +kernel

/-- What defines the Montgomery product (40_field.md R104). -/
theorem montMul_spec (m : Modulus) (a b : Nat) : montMul (modulusOf m) a b < modulusOf m ∧
    montMul (modulusOf m) a b * 2 ^ 256 % modulusOf m = a * b % modulusOf m := by
  refine ⟨Nat.mod_lt _ (modulus_pos m), ?_⟩
  have h := invMod_mul (one_lt_modulus m) (modulus_lt m) (gcd_radix m)
  rw [montMul, Config.montRadix, Nat.mod_mul_mod, mul_assoc, mul_comm (invMod _ _), Nat.mul_mod, h, Nat.mul_one, Nat.mod_mod]

/-- The Montgomery product is the only such value. -/
theorem montMul_eq {m : Modulus} {a b v : Nat} (hv : v < modulusOf m)
    (h : v * 2 ^ 256 % modulusOf m = a * b % modulusOf m) : montMul (modulusOf m) a b = v :=
  mul_right_cancel_mod (gcd_radix m) (montMul_spec m a b).1 hv ((montMul_spec m a b).2.trans h.symm)

/-- The least non-negative residue of an integer (00_scope.md R8). -/
theorem residue_eq {v : Nat} {x : Int} {m : Nat} (h : (v : Int) = x % m) : residue x m = v := by
  rw [residue, ← h]; rfl

theorem subMod_eq_residue {m : Nat} (hm : 0 < m) (a b : Nat) : residue ((a : Int) - b) m = subMod m a b :=
  residue_eq (subMod_int hm a b)

/-- Euler's criterion for p ≡ 3 (mod 4): the candidate squares to a exactly when a is a square (40_field.md R107). -/
theorem sqrt_candidate {a e : Nat} (he : 4 * e = Config.p + 1) :
    (a ^ e % Config.p) * (a ^ e % Config.p) % Config.p = a ↔ ∃ r, r * r % Config.p = a := by
  refine ⟨fun h => ⟨_, h⟩, ?_⟩
  rintro ⟨r, hr⟩
  have : Fact (Nat.Prime Config.p) := ⟨p_prime⟩
  have h1 := p_pos
  rw [← Nat.mul_mod, ← pow_add, ← hr, ← Nat.pow_mod, ← pow_two, ← pow_mul,
    show 2 * (e + e) = (Config.p - 1) + 2 by omega, pow_add]
  have : ((r ^ (Config.p - 1) * r ^ 2 : Nat) : ZMod Config.p) = (r ^ 2 : Nat) := by
    push_cast
    by_cases h0 : (r : ZMod Config.p) = 0
    · rw [h0]; simp
    · rw [ZMod.pow_card_sub_one_eq_one h0, one_mul]
  rw [ZMod.natCast_eq_natCast_iff] at this
  exact this

/-- FSQRT_f on a reduced operand (40_field.md R107). -/
theorem fsqrtF_eq {a e : Nat} (he : 4 * e = Config.p + 1) : fsqrtF a =
    if (a ^ e % Config.p) * (a ^ e % Config.p) % Config.p = a then .ok (a ^ e % Config.p) else .error .noSquareRoot := by
  have he' : (Config.p + 1) / 4 = e := by omega
  have h := powMod_eq Config.p a (e := e) (by have := p_lt; omega)
  unfold fsqrtF
  rw [he']
  dsimp only
  rw [h, mulMod]
  split <;> simp_all

end Sys2Proof.Machine
end

