-- ==== Sys2Proof/Laws/Points.lean ====
section
/-! SUPPORT. The point functions by their formulas: residues of integers, the last lines of doubling and addition, the steps of
scalar multiplication, multiples of a point, and decompression. -/

namespace Sys2Proof.Machine

/-! ### Residues and formulas -/

theorem residue_lt {m : Nat} (hm : 0 < m) (v : Int) : residue v m < m := by
  have := Int.emod_lt_of_pos v (b := m) (by exact_mod_cast hm)
  have := Int.emod_nonneg v (b := m) (by exact_mod_cast hm.ne')
  unfold residue; omega

theorem residue_cast {m : Nat} (hm : 0 < m) (v : Int) : ((residue v m : Nat) : ZMod m) = (v : ZMod m) := by
  have h := Int.emod_nonneg v (b := m) (by exact_mod_cast hm.ne')
  have : ((residue v m : Nat) : Int) = v % m := by unfold residue; exact Int.toNat_of_nonneg h
  rw [← Int.cast_natCast, this, ZMod.intCast_mod]

/-- Two residues are equal when their values are equal modulo m. -/
theorem eq_residue {m : Nat} (hm : 0 < m) {u : Nat} (hu : u < m) {v : Int} (h : (u : ZMod m) = (v : ZMod m)) :
    residue v m = u := by
  have := residue_cast hm v
  rw [← h, ZMod.natCast_eq_natCast_iff, Nat.ModEq, Nat.mod_eq_of_lt hu, Nat.mod_eq_of_lt (residue_lt hm v)] at this
  exact this

/-- The last two lines of doubling and addition as integer formulas (41_curve.md R131, R132). -/
theorem chord_eq (lam : Nat) (q : Point) (x2 : Nat) :
    chord lam q x2 =
      { x := residue ((lam : Int) ^ 2 - q.x - x2) Config.p,
        y := residue ((lam : Int) * ((q.x : Int) - residue ((lam : Int) ^ 2 - q.x - x2) Config.p) - q.y) Config.p } := by
  have hcx : (chord lam q x2).x = subMod Config.p (lam * lam) (q.x + x2) := rfl
  have hcy : (chord lam q x2).y = subMod Config.p (lam * subMod Config.p q.x (chord lam q x2).x) q.y := rfl
  have hx : residue ((lam : Int) ^ 2 - q.x - x2) Config.p = (chord lam q x2).x := by
    refine eq_residue p_pos (subMod_lt p_pos _ _) ?_
    rw [← hcx, hcx, subMod_cast p_pos]; push_cast; ring
  rw [hx]
  have hy : residue ((lam : Int) * ((q.x : Int) - (chord lam q x2).x) - q.y) Config.p = (chord lam q x2).y := by
    rw [hcy]
    refine eq_residue p_pos (subMod_lt p_pos _ _) ?_
    rw [subMod_cast p_pos, Nat.cast_mul, subMod_cast p_pos]; push_cast; ring
  rw [hy]

/-! ### Scalar multiplication -/

/-- The loop over one more bit, a 0: one more doubling (41_curve.md R134). -/
theorem pmulLoop_add (k : Nat) (q : Point) (i : Nat) : ∀ acc, pmulLoop (2 * k) q (i + 1) acc = (pmulLoop k q i acc).bind pdblF := by
  induction i with
  | zero =>
    intro acc
    have : (2 * k).testBit 0 = false := by simp [Nat.testBit_zero]
    show (match pmulBit ((2 * k).testBit 0) q acc with
      | .error c => .error c
      | .ok a => pmulLoop (2 * k) q 0 a) = pdblF acc
    rw [this, pmulBit]
    cases pdblF acc <;> rfl
  | succ i ih =>
    intro acc
    rw [pmulLoop, pmulLoop]
    have : (2 * k).testBit (i + 1) = k.testBit i := by
      rw [Nat.testBit_succ]; congr 1; omega
    rw [this]
    cases pmulBit (k.testBit i) q acc with
    | error c => rfl
    | ok a => exact ih a

/-- The loop over one more bit, a 1: one more doubling and an addition (41_curve.md R134). -/
theorem pmulLoop_add_one (k : Nat) (q : Point) (i : Nat) : ∀ acc, pmulLoop (2 * k + 1) q (i + 1) acc =
    ((pmulLoop k q i acc).bind pdblF).bind (fun d => paddF d q) := by
  induction i with
  | zero =>
    intro acc
    have : (2 * k + 1).testBit 0 = true := by simp [Nat.testBit_zero]
    show (match pmulBit ((2 * k + 1).testBit 0) q acc with
      | .error c => .error c
      | .ok a => pmulLoop (2 * k + 1) q 0 a) = (pdblF acc).bind (fun d => paddF d q)
    rw [this, pmulBit]
    cases pdblF acc with
    | error c => rfl
    | ok d => simp only [if_true, Except.bind]; cases paddF d q <;> rfl
  | succ i ih =>
    intro acc
    rw [pmulLoop, pmulLoop]
    have : (2 * k + 1).testBit (i + 1) = k.testBit i := by
      rw [Nat.testBit_succ]; congr 1; omega
    rw [this]
    cases pmulBit (k.testBit i) q acc with
    | error c => rfl
    | ok a => exact ih a

theorem log2_double {k : Nat} (h : k ≠ 0) : Nat.log2 (2 * k) = Nat.log2 k + 1 ∧ Nat.log2 (2 * k + 1) = Nat.log2 k + 1 := by
  have h1 := Nat.log2_self_le h
  have h2 := Nat.lt_log2_self (n := k)
  constructor
  · rw [Nat.log2_eq_iff (by omega)]; constructor <;> rw [pow_succ] at * <;> omega
  · rw [Nat.log2_eq_iff (by omega)]; constructor <;> rw [pow_succ] at * <;> omega

/-- Every point but the one at infinity has order n (41_curve.md R135). -/
theorem addOrderOf_point [Fact (Nat.Prime Config.p)] {P : secp256k1.Point} (h : P ≠ 0) : addOrderOf P = Config.n := by
  have : Fact (Nat.Prime Config.n) := ⟨n_prime⟩
  exact addOrderOf_eq_prime (n_smul P) h

theorem mod_n_smul [Fact (Nat.Prime Config.p)] (k : Nat) (P : secp256k1.Point) : (k % Config.n) • P = k • P := by
  conv_rhs => rw [← Nat.div_add_mod k Config.n, add_smul, mul_comm, mul_smul, n_smul, nsmul_zero, zero_add]

/-- n is the only nonzero multiple of n below 2^256 (41_curve.md R135). -/
theorem multiple_of_n {k : Nat} (h0 : k ≠ 0) (hk : k < 2 ^ 256) (h : Config.n ∣ k) : k = Config.n := by
  obtain ⟨c, rfl⟩ := h
  have h2 : 2 ^ 256 < Config.n * 2 := by decide
  have : c < 2 := Nat.lt_of_mul_lt_mul_left (a := Config.n) (by omega)
  have : c ≠ 0 := by rintro rfl; simp at h0
  obtain rfl : c = 1 := by omega
  rw [Nat.mul_one]

/-! ### Decompression -/

/-- A square root below p of a nonzero square, of given parity, is the only one (42_codec.md R160). -/
theorem root_unique {c y z : Nat} (hy : y < Config.p) (hz : z < Config.p) (hyc : y * y % Config.p = c) (hzc : z * z % Config.p = c)
    (hpar : y % 2 = z % 2) : y = z := by
  have : Fact (Nat.Prime Config.p) := ⟨p_prime⟩
  have h : ((y : ZMod Config.p)) * y = z * z := by
    have : y * y ≡ z * z [MOD Config.p] := by rw [Nat.ModEq, hyc, hzc]
    rw [← ZMod.natCast_eq_natCast_iff] at this
    exact_mod_cast this
  rcases mul_self_eq_mul_self_iff.1 h with e | e
  · exact (cast_eq_iff hy hz).1 e
  · by_cases h0 : z = 0
    · subst h0; rw [Nat.cast_zero, neg_zero] at e; exact (cast_eq_zero hy).1 e
    · have : (y : ZMod Config.p) = ((Config.p - z : Nat) : ZMod Config.p) := by
        rw [Nat.cast_sub hz.le, ZMod.natCast_self, zero_sub, e]
      have := (cast_eq_iff hy (by omega)).1 this
      have : Config.p % 2 = 1 := by decide
      omega

/-- A root of x³ + 7 makes a point of the curve (42_codec.md R160). -/
theorem onCurve_of_root {x y : Nat} (hx : x < Config.p) (hy : y < Config.p)
    (h : y * y % Config.p = (x ^ 3 + Config.a * x + Config.b) % Config.p) : onCurve { x := x, y := y } = true := by
  have e : x * x * x = x ^ 3 := by ring
  simp only [onCurve, Bool.and_eq_true, decide_eq_true_eq, beq_iff_eq]
  exact ⟨⟨hx, hy⟩, by rw [e]; exact h⟩

/-- The coordinates of a point of the curve; y is not 0 (00_scope.md R3). -/
theorem root_of_onCurve {x y : Nat} (h : onCurve { x := x, y := y } = true) :
    x < Config.p ∧ y < Config.p ∧ y * y % Config.p = (x ^ 3 + Config.a * x + Config.b) % Config.p ∧ y ≠ 0 := by
  have : Fact (Nat.Prime Config.p) := ⟨p_prime⟩
  have hP := exists_rep h
  have e : x * x * x = x ^ 3 := by ring
  simp only [onCurve, Bool.and_eq_true, decide_eq_true_eq, beq_iff_eq] at h
  refine ⟨h.1.1, h.1.2, by rw [h.2, e], ?_⟩
  rintro rfl
  obtain ⟨P, -, -, hn, -⟩ := hP
  exact y_ne_zero hn.1 (by simp)

/-- What PDEC_f gives for a legal prefix and an x in range (42_codec.md R160). -/
theorem pdecF_spec {pfx : BitVec 8} {x : Nat} (hp : pfx = 0x02#8 ∨ pfx = 0x03#8) (hx : x < Config.p) :
    ((¬∃ r, r * r % Config.p = (x ^ 3 + Config.a * x + Config.b) % Config.p) → pdecF pfx x = .error .noSquareRoot) ∧
    ((∃ r, r * r % Config.p = (x ^ 3 + Config.a * x + Config.b) % Config.p) →
      ∃ y, 0 < y ∧ y < Config.p ∧ y * y % Config.p = (x ^ 3 + Config.a * x + Config.b) % Config.p ∧ y % 2 = pfx.toNat - 2 ∧
        pdecF pfx x = .ok { x := x, y := y }) := by
  have e : x * x * x = x ^ 3 := by ring
  have he : 4 * ((Config.p + 1) / 4) = Config.p + 1 := by decide
  have hs := sqrt_candidate (a := (x ^ 3 + Config.a * x + Config.b) % Config.p) he
  have hn : ¬(pfx ≠ 0x02#8 ∧ pfx ≠ 0x03#8) := by tauto
  have hf : pdecF pfx x = match fsqrtF ((x ^ 3 + Config.a * x + Config.b) % Config.p) with
      | .error c => .error c
      | .ok y0 =>
        if y0 % 2 = pfx.toNat - 2 then .ok { x := x, y := y0 }
        else if y0 = 0 then .error .noSquareRoot
        else .ok { x := x, y := Config.p - y0 } := by
    cases hq : fsqrtF ((x ^ 3 + Config.a * x + Config.b) % Config.p) <;> simp only [pdecF, if_neg hn, if_neg hx.not_ge, e, hq]
  rw [fsqrtF_eq he] at hf
  generalize (Config.p + 1) / 4 = k at *
  constructor
  · intro hr
    rw [hf, if_neg (fun h => hr (hs.1 h))]
  · intro hr
    have hc := hs.2 hr
    rw [if_pos hc] at hf
    dsimp only at hf
    have hlt := Nat.mod_lt (((x ^ 3 + Config.a * x + Config.b) % Config.p) ^ k) p_pos
    generalize (((x ^ 3 + Config.a * x + Config.b) % Config.p) ^ k) % Config.p = y0 at *
    obtain ⟨-, -, -, h0⟩ := root_of_onCurve (onCurve_of_root hx hlt hc)
    have hpn : pfx.toNat - 2 = 0 ∨ pfx.toNat - 2 = 1 := by rcases hp with rfl | rfl <;> decide
    split at hf
    · next hpar => exact ⟨y0, by omega, hlt, hc, hpar, hf⟩
    · next hpar =>
      refine ⟨Config.p - y0, by omega, by omega, ?_, ?_, hf⟩
      · rw [← hc]
        have : ((Config.p - y0) * (Config.p - y0) : Nat) ≡ y0 * y0 [MOD Config.p] := by
          rw [← ZMod.natCast_eq_natCast_iff]
          push_cast [Nat.cast_sub hlt.le]
          rw [ZMod.natCast_self]; ring
        exact this
      · have : Config.p % 2 = 1 := by decide
        omega

end Sys2Proof.Machine
end

