-- ==== Sys2Proof/Laws/Ecdsa.lean ====
section
/-! SUPPORT. What VERIFY's computation gives, in terms of the curve group (R172). -/

namespace Sys2Proof.Machine

/-- A scalar that is not 0 modulo `n` gives a point: PMUL by it never raises. -/
theorem pmulF_affine [Fact (Nat.Prime Config.p)] {q : Point} {P : secp256k1.Point} (hq : Rep q P) {k : Nat} (h0 : k ≠ 0) (hk : k < Config.n) :
    ∃ r, pmulF k q = .ok r ∧ Rep r (k • P) := by
  rcases pmulF_onCurve hq (k := k) (hk.trans n_lt) with ⟨h1, -⟩ | ⟨h1, -⟩ | ⟨-, -, h⟩
  · exact absurd h1 h0
  · omega
  · exact h

/-- VERIFY's effect as a state. -/
theorem exec_verify (s : State) : exec .verify s = .next
    (match verifyPoint (readReg s.snap 0).toNat (readReg s.snap 3).toNat (readReg s.snap 4).toNat
        { x := (readReg s.snap 6).toNat % Config.p, y := (readReg s.snap 7).toNat % Config.p } with
      | .error c => okState s s.d false 0#2 c.code
      | .ok q => okState s s.d (q.x % Config.n == (readReg s.snap 3).toNat) 0#2 0#4) := by
  have hx : exec .verify s = .next (commit (verifyResult s.snap) s) := rfl
  have hv : verifyResult s.snap = match verifyPoint (readReg s.snap 0).toNat (readReg s.snap 3).toNat (readReg s.snap 4).toNat
        { x := (readReg s.snap 6).toNat % Config.p, y := (readReg s.snap 7).toNat % Config.p } with
      | .error c => .ok { writes := [], valid := false, recid := 0#2, diag := c.code }
      | .ok q => .ok { writes := [], valid := q.x % Config.n == (readReg s.snap 3).toNat, recid := 0#2, diag := 0#4 } := rfl
  rw [hx, hv]
  cases verifyPoint _ _ _ _ <;> rfl

/-- VERIFY's intermediate point, with any inverse of `S` modulo `n` in place of the computed one (R172). -/
theorem verifyPoint_eq {d r S w : Nat} {q : Point} (h0 : S % Config.n ≠ 0) (hw : w < Config.n) (h1 : S % Config.n * w % Config.n = 1) :
    verifyPoint d r S q = (pmulF (d * w % Config.n) generator).bind fun a =>
      (pmulF (r * w % Config.n) q).bind fun b => paddF a b := by
  have hg : Nat.gcd (S % Config.n) Config.n = 1 := gcd_modulus (m := .n) h0 (Nat.mod_lt _ n_pos)
  have hi : invMod Config.n (S % Config.n) = w := by
    refine mul_right_cancel_mod hg (invMod_spec one_lt_n n_lt hg).1 hw ?_
    rw [mul_comm, invMod_mul one_lt_n n_lt hg, mul_comm, h1]
  rw [verifyPoint]
  dsimp only
  rw [if_neg h0, hi]
  cases pmulF (d * w % Config.n) generator with
  | error c => rfl
  | ok a => simp only [Except.bind]; cases pmulF (r * w % Config.n) q <;> rfl

/-- A value that is not 0 modulo `n` has an inverse below `n`. -/
theorem exists_inverse {S : Nat} (h0 : S % Config.n ≠ 0) : ∃ w, w < Config.n ∧ S % Config.n * w % Config.n = 1 := by
  have hg : Nat.gcd (S % Config.n) Config.n = 1 := gcd_modulus (m := .n) h0 (Nat.mod_lt _ n_pos)
  exact ⟨_, (invMod_spec one_lt_n n_lt hg).1, invMod_mul one_lt_n n_lt hg⟩

/-- A product with an inverse is 0 modulo `n` only where the other factor is. -/
theorem mul_ne_zero_n {a w : Nat} (ha : a % Config.n ≠ 0) (S : Nat) (h1 : S % Config.n * w % Config.n = 1) : a * w % Config.n ≠ 0 := by
  intro h
  have hd := (n_prime.dvd_mul).1 (Nat.dvd_of_mod_eq_zero h)
  rcases hd with hd | hd
  · exact ha (Nat.mod_eq_zero_of_dvd hd)
  · have := Nat.mod_eq_zero_of_dvd (Dvd.dvd.mul_left hd (S % Config.n))
    omega

/-- VERIFY's intermediate point for a public key on the curve: the group's combination, or ERR.INF where that is the identity. -/
theorem verify_onCurve [Fact (Nat.Prime Config.p)] {d r S w : Nat} {q : Point} {G Q : secp256k1.Point} (hG : Rep generator G) (hQ : Rep q Q)
    (hw : w < Config.n) (h1 : S % Config.n * w % Config.n = 1) (hd : d % Config.n ≠ 0) (hr : r % Config.n ≠ 0) :
    ((d * w % Config.n) • G + (r * w % Config.n) • Q = 0 → verifyPoint d r S q = .error .unsupportedInfinity) ∧
    ((d * w % Config.n) • G + (r * w % Config.n) • Q ≠ 0 → ∃ c, verifyPoint d r S q = .ok c ∧
      Rep c ((d * w % Config.n) • G + (r * w % Config.n) • Q)) := by
  have h0 : S % Config.n ≠ 0 := by intro h; rw [h, Nat.zero_mul, Nat.zero_mod] at h1; omega
  obtain ⟨a, ha, hra⟩ := pmulF_affine hG (mul_ne_zero_n hd S h1) (Nat.mod_lt _ n_pos)
  obtain ⟨b, hb, hrb⟩ := pmulF_affine hQ (mul_ne_zero_n hr S h1) (Nat.mod_lt _ n_pos)
  rw [verifyPoint_eq h0 hw h1, ha, hb]
  exact paddF_rep hra hrb

/-- Scalars that agree modulo `n` give the same multiple. -/
theorem smul_congr [Fact (Nat.Prime Config.p)] {a b : Nat} (P : secp256k1.Point) (h : a % Config.n = b % Config.n) : a • P = b • P := by
  rw [← mod_n_smul a, h, mod_n_smul]

/-- A value below 2^256 is stored as 0 only where it is 0. -/
theorem toValue_eq_zero {v : Nat} (h : v < 2 ^ 256) : toValue v = 0#256 ↔ v = 0 := by
  constructor
  · intro e
    have := congrArg BitVec.toNat e
    rwa [toValue_toNat h] at this
  · rintro rfl; rfl

/-- VERIFY reads `S` modulo `n` only. -/
theorem verifyPoint_congr {d r S S' : Nat} {q : Point} (h : S % Config.n = S' % Config.n) :
    verifyPoint d r S q = verifyPoint d r S' q := by
  unfold verifyPoint; rw [h]

/-- Where VERIFY's computation raises nothing, `S`, `d` and `r` are not 0 modulo `n`. -/
theorem verifyPoint_ok {d r S : Nat} {q c : Point} (h : verifyPoint d r S q = .ok c) :
    S % Config.n ≠ 0 ∧ d % Config.n ≠ 0 ∧ r % Config.n ≠ 0 := by
  have h0 : S % Config.n ≠ 0 := by
    intro hz; rw [verifyPoint] at h; dsimp only at h; rw [if_pos hz] at h; simp at h
  obtain ⟨w, h1, h2⟩ := exists_inverse h0
  rw [verifyPoint_eq h0 h1 h2] at h
  refine ⟨h0, fun hd => ?_, fun hr => ?_⟩
  · rw [Nat.mul_mod, hd, Nat.zero_mul, Nat.zero_mod, pmulF, if_pos rfl] at h; simp [Except.bind] at h
  · rw [Nat.mul_mod r, hr, Nat.zero_mul, Nat.zero_mod] at h
    rw [show pmulF 0 q = .error .zeroScalar from rfl] at h
    cases hp : pmulF (d * w % Config.n) generator <;> rw [hp] at h <;> simp [Except.bind] at h

end Sys2Proof.Machine
end

