-- ==== Sys2Proof/Laws/PerInstr.lean ====
section
/-! SUPPORT. Statements made instruction by instruction. EncodeMatches: the word of a well-formed command matches the
command's own row of the opcode table (30_encoding.md R74). -/

namespace Sys2Proof.Laws.EncodeMatches

set_option Elab.async false

/-- The encoder keeps the fixed bits of the command's row. -/
def Statement (i : Instr) : Prop := i.wf = true → i.op.matchesWord (encode i) = true

theorem fadd (m : Modulus) (rd rs1 rs2 : Reg) : Statement (.fadd m rd rs1 rs2) := by
  cases m <;> revert rd rs1 rs2 <;> unfold Statement <;> decide +kernel

theorem fsub (m : Modulus) (rd rs1 rs2 : Reg) : Statement (.fsub m rd rs1 rs2) := by
  cases m <;> revert rd rs1 rs2 <;> unfold Statement <;> decide +kernel

theorem fmul (m : Modulus) (rd rs1 rs2 : Reg) : Statement (.fmul m rd rs1 rs2) := by
  cases m <;> revert rd rs1 rs2 <;> unfold Statement <;> decide +kernel

theorem mmul (m : Modulus) (rd rs1 rs2 : Reg) : Statement (.mmul m rd rs1 rs2) := by
  cases m <;> revert rd rs1 rs2 <;> unfold Statement <;> decide +kernel

theorem fpow (m : Modulus) (rd rs1 rs2 : Reg) : Statement (.fpow m rd rs1 rs2) := by
  cases m <;> revert rd rs1 rs2 <;> unfold Statement <;> decide +kernel

theorem finv (m : Modulus) (rd rs1 : Reg) : Statement (.finv m rd rs1) := by
  cases m <;> revert rd rs1 <;> unfold Statement <;> decide +kernel

theorem fsqrt (rd rs1 : Reg) : Statement (.fsqrt rd rs1) := by
  revert rd rs1; unfold Statement; decide +kernel

theorem pdbl (rd rs1 : Reg) : Statement (.pdbl rd rs1) := by
  revert rd rs1; unfold Statement; decide +kernel

theorem padd (rd rs1 rs2 : Reg) : Statement (.padd rd rs1 rs2) := by
  revert rd rs1 rs2; unfold Statement; decide +kernel

theorem pneg (rd rs1 : Reg) : Statement (.pneg rd rs1) := by
  revert rd rs1; unfold Statement; decide +kernel

theorem pmul (rd rs1 rs2 : Reg) : Statement (.pmul rd rs1 rs2) := by
  revert rd rs1 rs2; unfold Statement; decide +kernel

theorem pmulG (rd rs2 : Reg) : Statement (.pmulG rd rs2) := by
  revert rd rs2; unfold Statement; decide +kernel

theorem pdec (rd rs1 : Reg) (pfx : BitVec 8) : Statement (.pdec rd rs1 pfx) := by
  have h : Op.pdec.matchesWord (encode (.pdec rd rs1 pfx)) = Op.pdec.matchesWord (encode (.pdec rd rs1 0#8)) := by
    have e : Op.pdec.mask = 0#8 ++ 0xF89FFF#24 := rfl
    simp only [Op.matchesWord, encode, e, packWord_and_low]
  have h0 : ∀ rd rs1, (Instr.pdec rd rs1 0#8).wf = true → Op.pdec.matchesWord (encode (.pdec rd rs1 0#8)) = true := by
    decide +kernel
  exact fun hw => h.trans (h0 rd rs1 hw)

theorem sign : Statement .sign := by unfold Statement; decide

theorem verify : Statement .verify := by unfold Statement; decide

end Sys2Proof.Laws.EncodeMatches

namespace Sys2Proof

/-- The word of a well-formed command matches the command's own row. -/
theorem op_matches_encode {i : Instr} (h : i.wf = true) : encode i &&& i.op.mask = i.op.pattern := by
  rw [← matchesWord_iff]
  cases i with
  | fadd m rd rs1 rs2 => exact Laws.EncodeMatches.fadd m rd rs1 rs2 h
  | fsub m rd rs1 rs2 => exact Laws.EncodeMatches.fsub m rd rs1 rs2 h
  | fmul m rd rs1 rs2 => exact Laws.EncodeMatches.fmul m rd rs1 rs2 h
  | mmul m rd rs1 rs2 => exact Laws.EncodeMatches.mmul m rd rs1 rs2 h
  | fpow m rd rs1 rs2 => exact Laws.EncodeMatches.fpow m rd rs1 rs2 h
  | finv m rd rs1 => exact Laws.EncodeMatches.finv m rd rs1 h
  | fsqrt rd rs1 => exact Laws.EncodeMatches.fsqrt rd rs1 h
  | pdbl rd rs1 => exact Laws.EncodeMatches.pdbl rd rs1 h
  | padd rd rs1 rs2 => exact Laws.EncodeMatches.padd rd rs1 rs2 h
  | pneg rd rs1 => exact Laws.EncodeMatches.pneg rd rs1 h
  | pmul rd rs1 rs2 => exact Laws.EncodeMatches.pmul rd rs1 rs2 h
  | pmulG rd rs2 => exact Laws.EncodeMatches.pmulG rd rs2 h
  | pdec rd rs1 pfx => exact Laws.EncodeMatches.pdec rd rs1 pfx h
  | sign => exact Laws.EncodeMatches.sign h
  | verify => exact Laws.EncodeMatches.verify h

theorem legal_encode {i : Instr} (h : i.wf = true) : legal (encode i) = true :=
  (legal_iff_row _).2 ⟨_, op_matches_encode h⟩

end Sys2Proof
end

