-- ==== Sys2Proof/Laws/Host.lean ====
section
/-! SUPPORT. What sequences of bus transactions do: writes of the words of one register, polls of STATUS, and any transaction while
a command runs (20_memory.md R52, R58, 30_encoding.md R78). -/

namespace Sys2Proof.Machine

/-- A word write to an idle block (20_memory.md R52). -/
theorem writeWord_step {s : State} {i : Reg} {w : WordIndex} {v : Word} {rest : List Event} (h1 : s.rstN = true)
    (h2 : s.status.busy = false) (h3 : s.events = .write (dataAddr i w) v :: rest) :
    step s = .next { s with d := writeReg s.d i (setWord (readReg s.d i) w v), events := rest, rdata := none } := by
  rw [step_write h3]
  simp [takeInput, State.afterInput, writeData, h1, h2]

/-- Writing some words of a value, one after another: those words are the value's, the others stay. -/
theorem getWord_foldl (v : Value) (ws : List WordIndex) (x : Value) (u : WordIndex) :
    getWord (ws.foldl (fun x w => setWord x w (getWord v w)) x) u = if u ∈ ws then getWord v u else getWord x u := by
  induction ws generalizing x with
  | nil => simp
  | cons w ws ih =>
    rw [List.foldl_cons, ih]
    by_cases hu : u = w
    · subst hu; simp [getWord_setWord_same]
    · simp [hu, getWord_setWord_ne _ _ hu]

/-! ### The words of one register -/

theorem writeReg_self (d : RegFile) (i : Reg) : writeReg d i (readReg d i) = d :=
  regFile_ext fun j => by rw [readReg_writeReg]; split <;> simp_all

theorem writeReg_writeReg (d : RegFile) (i : Reg) (v v' : Value) : writeReg (writeReg d i v) i v' = writeReg d i v' :=
  regFile_ext fun j => by rw [readReg_writeReg, readReg_writeReg, readReg_writeReg]; split <;> simp_all

/-- The state in which the words `ws` of `v` have been put into D[i]. -/
def loaded (s : State) (i : Reg) (v : Value) (ws : List WordIndex) (rest : List Event) : State :=
  { s with d := writeReg s.d i (ws.foldl (fun x w => setWord x w (getWord v w)) (readReg s.d i)), events := rest,
           rdata := if ws = [] then s.rdata else none }

theorem loaded_cons (s : State) (i : Reg) (v : Value) (w : WordIndex) (ws : List WordIndex) (mid rest : List Event) :
    loaded { s with d := writeReg s.d i (setWord (readReg s.d i) w (getWord v w)), events := mid, rdata := none } i v ws rest =
      loaded s i v (w :: ws) rest := by
  simp [loaded, writeReg_writeReg]

/-- Writes of words of `v` to D[i] (30_encoding.md R78, LD256). -/
theorem load_words (i : Reg) (v : Value) (rest : List Event) (ws : List WordIndex) :
    ∀ s : State, s.rstN = true → s.status.busy = false →
      s.events = (ws.map fun w => Event.write (dataAddr i w) (getWord v w)) ++ rest →
      Runs ws.length s (loaded s i v ws rest) := by
  induction ws with
  | nil =>
    intro s h1 h2 h4
    refine (Runs_zero _ _).2 ?_
    obtain ⟨d,ie,st,cmd,ph,pe,sn,rn,rd,ev⟩ := s
    simp only [List.map_nil, List.nil_append] at h4
    subst h4
    simp [loaded, writeReg_self]
  | cons w ws ih =>
    intro s h1 h2 h4
    rw [List.length_cons, Runs_succ (writeWord_step h1 h2 h4), ← loaded_cons]
    exact ih _ h1 h2 rfl

/-- Reads of words of a ROM constant, each written to D[i] (30_encoding.md R78, LDC). -/
theorem ldc_words (i : Reg) (c : RomConst) (rest : List Event) (ws : List WordIndex) :
    ∀ s : State, s.rstN = true → s.status.busy = false →
      s.events = (ws.flatMap fun w => [Event.read (romAddr c w), .write (dataAddr i w) (getWord c.value w)]) ++ rest →
      Runs (2 * ws.length) s (loaded s i c.value ws rest) := by
  induction ws with
  | nil =>
    intro s h1 h2 h4
    refine (Runs_zero _ _).2 ?_
    obtain ⟨d,ie,st,cmd,ph,pe,sn,rn,rd,ev⟩ := s
    simp only [List.flatMap_nil, List.nil_append] at h4
    subst h4
    simp [loaded, writeReg_self]
  | cons w ws ih =>
    intro s h1 h2 h4
    obtain ⟨d,ie,st,cmd,ph,pe,sn,rn,rd,ev⟩ := s
    simp only at h1 h2 h4; subst h1; subst h4
    rw [List.length_cons, Nat.mul_succ, ← loaded_cons]
    refine (Runs_succ (k := 2 * ws.length + 1) (step_read rfl)).2 ?_
    refine (Runs_succ (writeWord_step (i := i) (w := w) (v := getWord c.value w) rfl h2 rfl)).2 ?_
    exact ih _ rfl h2 rfl

/-- All eight words make the value. -/
theorem all_words (v x : Value) : wordIndices.foldl (fun x w => setWord x w (getWord v w)) x = v :=
  value_ext_words fun u => by rw [getWord_foldl, if_pos (by revert u; decide)]

/-! ### While a command runs -/

/-- Polls of STATUS change the read data only (20_memory.md R56). -/
theorem busy_poll {s : State} {k : Nat} {rest : List Event} (h1 : s.rstN = true) (h : s.events = polls k ++ rest) :
    ∃ rd, Runs k s { s with events := rest, rdata := rd } := by
  induction k generalizing s with
  | zero =>
    refine ⟨s.rdata, (Runs_zero _ _).2 ?_⟩
    obtain ⟨d,ie,st,cmd,ph,pe,sn,rn,rd,ev⟩ := s
    simp only [polls, List.replicate_zero, List.nil_append] at h
    subst h; rfl
  | succ k ih =>
    obtain ⟨d,ie,st,cmd,ph,pe,sn,rn,rd,ev⟩ := s
    simp only at h1 h; subst h1; subst h
    obtain ⟨rd2, hrd⟩ := ih (s := ⟨d, ie, st, cmd, ph, pe, sn, true, some st.word, polls k ++ rest⟩) rfl rfl
    exact ⟨rd2, (Runs_succ (step_read (a := statusAddr) (rest := polls k ++ rest) rfl)).2 hrd⟩

/-- A bus transaction while a command runs leaves everything the outcome depends on. -/
theorem bus_step_running {s : State} {e : Event} {rest : List Event} (hi : Inv s) (hr : s.phase = .running) (hb : e.isBus = true)
    (he : s.events = e :: rest) :
    ∃ ie rd we, step s = .next { s with ie := ie, rdata := rd, status := { s.status with werr := we }, events := rest } := by
  have hbusy := hi.busy_iff.2 hr
  obtain ⟨n1, n2, n3, n4, n5, n6⟩ := hi.running_noOutcome hr
  cases e with
  | read a =>
    rw [step_read he]; simp only [takeInput]
    split
    · exact ⟨s.ie, _, s.status.werr, rfl⟩
    · exact ⟨s.ie, none, s.status.werr, rfl⟩
  | write a v =>
    rw [step_write he]; simp only [takeInput]
    split
    · rcases busWrite_cases a v (s.afterInput rest) with ⟨rfl, e⟩ | ⟨rfl, e⟩ | ⟨rfl, e⟩ | ⟨j, w, rfl, e⟩ | ⟨-, e⟩ <;> rw [e]
      · unfold writeCtrl zeroize; dsimp only
        split
        · rw [if_pos (show (s.afterInput rest).status.busy = true from hbusy)]; exact ⟨_, none, true, rfl⟩
        · exact ⟨_, none, s.status.werr, rfl⟩
      · refine ⟨s.ie, none, (s.status.w1c v).werr, ?_⟩
        simp [State.afterInput, Status.w1c, n1]
      · rw [acceptCommand, if_pos (show (s.afterInput rest).status.busy = true from hbusy)]; exact ⟨s.ie, none, true, rfl⟩
      · rw [writeData, if_pos (show (s.afterInput rest).status.busy = true from hbusy)]; exact ⟨s.ie, none, true, rfl⟩
      · exact ⟨s.ie, none, s.status.werr, rfl⟩
    · exact ⟨s.ie, none, s.status.werr, rfl⟩
  | _ => simp [Event.isBus] at hb

/-- The invariant of a running block does not depend on IE, the read data, WERR and the inputs to come. -/
theorem inv_of_changes {s : State} (hi : Inv s) (hr : s.phase = .running) (ie : Bool) (rd : Option Word) (we : Bool) (ev : List Event) :
    Inv { s with ie := ie, rdata := rd, status := { s.status with werr := we }, events := ev } := by
  obtain ⟨h1, h2, h3, h4, h5, h6, h7, h8, h9, h10, h11, h12⟩ := hi
  refine ⟨h1, h2, h3, h4, h5, h6, h7, h8, h9, h10, h11, fun h => ?_⟩
  have := (h12 h).2.2.2.2; rw [hr] at this; simp at this

/-! ### The host's reads, ST256, LDC and WAITDONE -/

/-- A read by the host changes the read data only: the word of the window, or none in reset (20_memory.md R56). -/
theorem transact_read_eq (a : WordAddr) (s : State) :
    transact (.read a) s = .next { s with rdata := if s.rstN then some (busRead s a) else none } := by
  rw [transact, step_read rfl, takeInput]
  split <;> simp_all [State.afterInput]
  rfl

theorem transact_read {s : State} (a : WordAddr) (h : s.rstN = true) :
    transact (.read a) s = .next { s with rdata := some (busRead s a) } := by rw [transact_read_eq, if_pos h]

theorem hostRead_eq {s : State} (a : WordAddr) (h : s.rstN = true) :
    hostRead a s = some (busRead s a, { s with rdata := some (busRead s a) }) := by
  rw [hostRead, transact_read a h]; rfl

/-- A word write by the host to an idle block. -/
theorem hostWrite_data {s : State} {i : Reg} {w : WordIndex} {v : Word} (h1 : s.rstN = true) (h2 : s.status.busy = false) :
    hostWrite (dataAddr i w) v s =
      some { s with d := writeReg s.d i (setWord (readReg s.d i) w v), rdata := none } := by
  rw [hostWrite, transact, writeWord_step (s := { s with events := .write (dataAddr i w) v :: s.events }) h1 h2 rfl]

/-- Reads of words of D[i] return them, in order. -/
theorem readWords_data (i : Reg) (ws : List WordIndex) : ∀ s : State, s.rstN = true →
    ∃ rd, readWords (ws.map (dataAddr i)) s = some (ws.map (getWord (readReg s.d i)), { s with rdata := rd }) := by
  induction ws with
  | nil => exact fun s _ => ⟨s.rdata, rfl⟩
  | cons w ws ih =>
    intro s h
    obtain ⟨rd, hr⟩ := ih { s with rdata := some (getWord (readReg s.d i) w) } h
    exact ⟨rd, by rw [List.map_cons, readWords, hostRead_eq _ h]; simp [hr]⟩

/-- One more word below those concatenated so far. -/
theorem join_step (v : Value) (w : WordIndex) :
    (v >>> (wordLo w + 32)) <<< 32 ||| (getWord v w).setWidth 256 = v >>> wordLo w := by
  refine BitVec.eq_of_getLsbD_eq fun n hn => ?_
  simp only [getWord, BitVec.getLsbD_or, BitVec.getLsbD_shiftLeft, BitVec.getLsbD_ushiftRight, BitVec.getLsbD_setWidth,
    BitVec.getLsbD_extractLsb']
  by_cases h : n < 32
  · simp [h, hn]
  · simp [h, hn, show wordLo w + 32 + (n - 32) = wordLo w + n by omega]

/-- The eight words of a value, concatenated most significant first, are the value (20_memory.md R52). -/
theorem joinWords_words (v : Value) : joinWords (wordIndices.map (getWord v)) = v := by
  have h0 : (0#256 : Value) = v >>> (wordLo 0 + 32) := by
    refine BitVec.eq_of_getLsbD_eq fun n hn => ?_
    simp [wordLo]
  have h := join_step v
  simp only [joinWords, wordIndices, List.map_cons, List.map_nil, List.foldl_cons, List.foldl_nil]
  rw [h0, h 0, show wordLo 0 = wordLo 1 + 32 from rfl, h 1, show wordLo 1 = wordLo 2 + 32 from rfl, h 2,
    show wordLo 2 = wordLo 3 + 32 from rfl, h 3, show wordLo 3 = wordLo 4 + 32 from rfl, h 4,
    show wordLo 4 = wordLo 5 + 32 from rfl, h 5, show wordLo 5 = wordLo 6 + 32 from rfl, h 6,
    show wordLo 6 = wordLo 7 + 32 from rfl, h 7, show wordLo 7 = 0 from rfl, BitVec.ushiftRight_zero]

/-- `ST256 di` gives the value of D[i] and changes the read data only. -/
theorem store256_eq {s : State} (i : Reg) (h : s.rstN = true) :
    ∃ rd, store256 i s = some (readReg s.d i, { s with rdata := rd }) := by
  obtain ⟨rd, hr⟩ := readWords_data i wordIndices s h
  exact ⟨rd, by rw [store256, hr]; simp [joinWords_words]⟩

/-- LDC's copies put the words read into D[i]. -/
theorem copyWords_eq (i : Reg) (c : RomConst) (ws : List WordIndex) : ∀ s : State, s.rstN = true → s.status.busy = false →
    copyWords i c ws s = some (loaded s i c.value ws s.events) := by
  induction ws with
  | nil => intro s _ _; simp [copyWords, loaded, writeReg_self]
  | cons w ws ih =>
    intro s h1 h2
    rw [copyWords, hostRead_eq _ h1, busRead_rom]
    dsimp only
    rw [hostWrite_data (by exact h1) (by exact h2), ← loaded_cons (mid := s.events)]
    exact ih { s with d := writeReg s.d i (setWord (readReg s.d i) w (getWord c.value w)), rdata := none } h1 h2

/-- One poll: the loop is left exactly when DONE is set. -/
theorem waitDone_poll {s : State} (gaps : List Nat) (h : s.rstN = true) : waitDone (0 :: gaps) s =
    if s.status.done then .left { s with rdata := some s.status.word } else waitDone gaps { s with rdata := some s.status.word } := by
  rw [waitDone, show Host.Core.run Sys2Proof.core 0 s = .next s from rfl]
  dsimp only
  rw [transact_read _ h, busRead_status]
  simp only [doneRead, Status.word_done]

/-- A step of the others before a poll. -/
theorem waitDone_step {s t : State} (gap : Nat) (gaps : List Nat) (h : step s = .next t) :
    waitDone ((gap + 1) :: gaps) s = waitDone (gap :: gaps) t := by
  rw [waitDone, run_succ Sys2Proof.core h, waitDone]

/-- Polls while DONE is 0 stay in the loop. -/
theorem waitDone_polls {s : State} (k : Nat) (gaps : List Nat) (h : s.rstN = true) (hd : s.status.done = false) :
    ∃ rd, waitDone (List.replicate k 0 ++ gaps) s = waitDone gaps { s with rdata := rd } := by
  induction k generalizing s with
  | zero => exact ⟨s.rdata, rfl⟩
  | succ k ih =>
    obtain ⟨rd, hr⟩ := ih (s := { s with rdata := some s.status.word }) h hd
    exact ⟨rd, by rw [List.replicate_succ, List.cons_append, waitDone_poll _ h, hd]; exact hr⟩

end Sys2Proof.Machine
end

