-- ==== Sys2Proof/Tests/Slice0.lean ====
section
/-! SUPPORT. The model's own tests: ill-formed terms, words of the encoding table, vectors of 95_test_vectors.md one step each,
and for every statement with hypotheses a witness that meets them. Expected results are taken from the spec's tables. -/

namespace Sys2Proof.Tests

set_option Elab.async false

open Sys2Proof.Machine

/-! ### WellFormed refuses an odd register in every point field (30_encoding.md R73, R75) -/

theorem test_wf_pdbl : (Instr.pdbl 1 0).wf = false ∧ (Instr.pdbl 0 3).wf = false ∧ (Instr.pdbl 6 4).wf = true := by decide
theorem test_wf_padd :
    (Instr.padd 5 0 2).wf = false ∧ (Instr.padd 4 1 2).wf = false ∧ (Instr.padd 4 0 7).wf = false ∧ (Instr.padd 4 0 2).wf = true := by
  decide
theorem test_wf_pneg : (Instr.pneg 3 0).wf = false ∧ (Instr.pneg 2 7).wf = false ∧ (Instr.pneg 2 0).wf = true := by decide
theorem test_wf_pmul : (Instr.pmul 5 2 0).wf = false ∧ (Instr.pmul 4 3 0).wf = false ∧ (Instr.pmul 4 2 7).wf = true := by decide
theorem test_wf_pmulG : (Instr.pmulG 7 0).wf = false ∧ (Instr.pmulG 6 1).wf = true := by decide
theorem test_wf_pdec : (Instr.pdec 3 0 2#8).wf = false ∧ (Instr.pdec 2 7 0#8).wf = true := by decide

/-! ### Decoding: words written out from the pattern column of 30_encoding.md R74 -/

theorem test_decode_fadd : decode 0b00000000000100000010000000010000#32 = .ok (.fadd .p 2 0 1) := by decide
theorem test_decode_fsub : decode 0b00000000011101100101000100010001#32 = .ok (.fsub .n 5 6 7) := by decide
theorem test_decode_fmul : decode 0b00000000000100100011000000010010#32 = .ok (.fmul .p 3 2 1) := by decide
theorem test_decode_mmul : decode 0b00000000010000000111000100010011#32 = .ok (.mmul .n 7 0 4) := by decide
theorem test_decode_fpow : decode 0b00000000001100010000000000010100#32 = .ok (.fpow .p 0 1 3) := by decide
theorem test_decode_finv : decode 0b00000000000001110001000100010101#32 = .ok (.finv .n 1 7) := by decide
theorem test_decode_fsqrt : decode 0b00000000000001010100000000010110#32 = .ok (.fsqrt 4 5) := by decide
theorem test_decode_pdbl : decode 0b00000000000001000010000000100000#32 = .ok (.pdbl 2 4) := by decide
theorem test_decode_padd : decode 0b00000000011000100100000000100001#32 = .ok (.padd 4 2 6) := by decide
theorem test_decode_pneg : decode 0b00000000000000100110000000100010#32 = .ok (.pneg 6 2) := by decide
theorem test_decode_pmul : decode 0b00000000010101000010000000100011#32 = .ok (.pmul 2 4 5) := by decide
theorem test_decode_pmulG : decode 0b00000000000100000110001000100011#32 = .ok (.pmulG 6 1) := by decide
theorem test_decode_pdec : decode 0b00000011000000000010000000100100#32 = .ok (.pdec 2 0 3#8) := by decide
theorem test_decode_sign : decode 0b00000000000000000000000000110000#32 = .ok .sign := by decide
theorem test_decode_verify : decode 0b00000000000000000000000000110001#32 = .ok .verify := by decide

/-- The illegal words VI1 to VI15, each with the first reason of 30_encoding.md R75 that applies to it. -/
theorem test_decode_illegal :
    decode 0x00000000#32 = .error .unassignedOpcode ∧ decode 0x00000017#32 = .error .unassignedOpcode ∧
    decode 0x000000FF#32 = .error .unassignedOpcode ∧ decode 0x00000410#32 = .error .reservedBit ∧
    decode 0x00008010#32 = .error .reservedBit ∧ decode 0x00000116#32 = .error .modulusBit ∧
    decode 0x00000121#32 = .error .modulusBit ∧ decode 0x00000210#32 = .error .generatorBit ∧
    decode 0x00001020#32 = .error .oddPair ∧ decode 0x00010022#32 = .error .oddPair ∧
    decode 0x00101015#32 = .error .unusedField ∧ decode 0x00016223#32 = .error .generatorSource ∧
    decode 0x01000010#32 = .error .immediate ∧ decode 0x00000130#32 = .error .modulusBit ∧
    decode 0x01000030#32 = .error .immediate := by decide

/-- The reserved encodings beside each opcode group are illegal (30_encoding.md R75). -/
theorem test_decode_unassigned :
    [0x0F#32, 0x17#32, 0x1F#32, 0x25#32, 0x2F#32, 0x32#32, 0xFF#32].map legal = [false, false, false, false, false, false, false] := by
  decide

/-- The three words 30_encoding.md R77 writes out, with their assembler text. -/
theorem test_asm :
    asm (.fadd .p 2 0 1) = "FADD.p d2, d0, d1" ∧ encode (.fadd .p 2 0 1) = 0x00102010#32 ∧
    asm (.pmulG 6 1) = "PMUL d6, G, d1" ∧ encode (.pmulG 6 1) = 0x00106223#32 ∧
    asm (.pdec 2 0 3#8) = "PDEC d2, d0, #0x03" ∧ encode (.pdec 2 0 3#8) = 0x03002024#32 := by decide

/-- The numbering of `decodeTableWord`: bit i of the number is bit i of the word. -/
theorem test_decodeTableWord :
    decodeTableWord 32 0x00106223 = some (.pmulG 6 1) ∧ decodeTableWord 32 0x00000000 = none := by decide

/-! ### Small states -/

/-- A register file with these registers set and the others 0. -/
def regs (l : List (Reg × Nat)) : RegFile := l.foldl (fun d x => writeReg d x.1 (toValue x.2)) zeroRegs

/-- The state after reset with these registers loaded and these inputs to come. -/
def idleWith (l : List (Reg × Nat)) (es : List Event) : State := { State.reset with d := regs l, events := es }

/-- A command in flight on these operands, with these inputs to come. -/
def inFlight (w : Word) (l : List (Reg × Nat)) (es : List Event) : State :=
  { State.reset with
    d := regs l, snap := regs l, cmd := w, pending := w, phase := .running,
    status := { Status.zero with busy := true }, events := es }

/-- The state after one step, or the state itself where the step gives none. -/
def after (s : State) : State :=
  match step s with
  | .next t => t
  | .fault _ => s
  | .refused _ => s

/-- The word `w`, fetched over the operands `l` and run by one step, leaves D with `l'` added and STATUS reading `st`. -/
def lands (w : Nat) (l l' : List (Reg × Nat)) (st : Word) : Bool :=
  match step ((idleWith l []).withFetchWord 32 w) with
  | .next t => t.d == regs (l ++ l') && t.status.word == st && t.phase == .idle
  | .fault _ => false
  | .refused _ => false

/-! ### Vectors of 95_test_vectors.md, one completion each -/

/-- The digest of the ECDSA vectors. -/
def digest : Nat := 0xBA7816BF8F01CFEA414140DE5DAE2223B00361A396177A9CB410FF61F20015AD

/-- The y coordinate of −G (section 2.1). -/
def negGy : Nat := 0xB7C52588D95C3B9AA25B0403F1EEF75702E84BB7597AABE663B82F6F04EF2777

/-- Section 2.7: the x coordinate of 2·G. -/
def g2x : Nat := 0xC6047F9441ED7D6D3045406E95C07CD85C778E4B8CEF3CA7ABAC09B95C709EE5

/-- Section 2.7: the y coordinate of 2·G. -/
def g2y : Nat := 0x1AE168FEA63DC339A3C58419466CEAEEF7F632653266D0E1236431A950CFE52A

/-- Section 2.7: the x coordinate of 3·G. -/
def g3x : Nat := 0xF9308A019258C31049344F85F89D5229B531C845836F99B08601F113BCE036F9

/-- Section 2.7: the y coordinate of 3·G. -/
def g3y : Nat := 0x388F7B0F632DE8140FE337E62A37F3566500A99934C2231B6CB9FD7584B8E672

/-- Section 2.7: the x coordinate of 4·G. -/
def g4x : Nat := 0xE493DBF1C10D80F3581E4904930B1404CC6C13900EE0758474FA94ABE8C4CD13

/-- Section 2.7: the y coordinate of 4·G. -/
def g4y : Nat := 0x51ED993EA0D455B75642E2098EA51448D967AE33BFBDFE40CFE97BDC47739922

/-- Section 2.7: the x coordinate of 6·G. -/
def g6x : Nat := 0xFFF97BD5755EEEA420453A14355235D382F6472F8568A18B2F057A1460297556

/-- Section 2.7: the y coordinate of 6·G. -/
def g6y : Nat := 0xAE12777AACFBB620F3BE96017F45C560DE80F0F6518FE4A03C870C36B075F297

/-- Section 2.7: the x coordinate of 7·G. -/
def g7x : Nat := 0x5CBDF0646E5DB4EAA398F365F2EA7A0E3D419B7E0330E39CE92BDDEDCAC4F9BC

/-- Section 2.7: the y coordinate of 7·G. -/
def g7y : Nat := 0x6AEBCA40BA255960A3178D6D861A54DBA813D0B813FDE7B5A5082628087264DA

/-- Vector VF1, FADD.p d2, d0, d1: wraps to 0. -/
theorem test_fadd_VF1 : lands 0x00102010
    [(0, Config.p - 1), (1, 0x1)]
    [(2, 0x0)]
    0x00000002#32 = true := by decide +kernel

/-- Vector VF3, FADD.n d2, d0, d1: n − 2. -/
theorem test_fadd_VF3 : lands 0x00102110
    [(0, Config.n - 1), (1, Config.n - 1)]
    [(2, 0xFFFFFFFFFFFFFFFFFFFFFFFFFFFFFFFEBAAEDCE6AF48A03BBFD25E8CD036413F)]
    0x00000002#32 = true := by decide +kernel

/-- Vector VF5, FSUB.p d2, d0, d1: p − 1, never negative. -/
theorem test_fsub_VF5 : lands 0x00102011
    [(0, 0x0), (1, 0x1)]
    [(2, Config.p - 1)]
    0x00000002#32 = true := by decide +kernel

/-- Vector VF6, FSUB.n d2, d0, d1: n − 2. -/
theorem test_fsub_VF6 : lands 0x00102111
    [(0, 0x3), (1, 0x5)]
    [(2, 0xFFFFFFFFFFFFFFFFFFFFFFFFFFFFFFFEBAAEDCE6AF48A03BBFD25E8CD036413F)]
    0x00000002#32 = true := by decide +kernel

/-- Vector VF11, FMUL.p d2, d0, d1: full 512-bit product, then reduced. -/
theorem test_fmul_VF11 : lands 0x00102012
    [(0, 2 ^ 256 - 1), (1, 2 ^ 256 - 1)]
    [(2, 0x00000001000007A0000E8900)]
    0x00000002#32 = true := by decide +kernel

/-- Vector VF10, FMUL.n d2, d0, d1: n − 2. -/
theorem test_fmul_VF10 : lands 0x00102112
    [(0, Config.n - 1), (1, 0x2)]
    [(2, 0xFFFFFFFFFFFFFFFFFFFFFFFFFFFFFFFEBAAEDCE6AF48A03BBFD25E8CD036413F)]
    0x00000002#32 = true := by decide +kernel

/-- Vector VF13, MMUL.p d2, d0, d1: = 2^−256 mod p. -/
theorem test_mmul_VF13 : lands 0x00102013
    [(0, 0x1), (1, 0x1)]
    [(2, 0xC9BD1905155383999C46C2C295F2B761BCB223FEDC24A059D838091D0868192A)]
    0x00000002#32 = true := by decide +kernel

/-- Vector VF16, MMUL.n d2, d0, d1: = 7·2^256 mod n. -/
theorem test_mmul_VF16 : lands 0x00102113
    [(0, Config.r2n), (1, 0x7)]
    [(2, 0x00000008E537F5B135039E5DC13F6A264E843739)]
    0x00000002#32 = true := by decide +kernel

/-- Vector VF19, FPOW.p d2, d0, d1: 0^0 = 1 (D15). -/
theorem test_fpow_VF19 : lands 0x00102014
    [(0, 0x0), (1, 0x0)]
    [(2, 0x1)]
    0x00000002#32 = true := by decide +kernel

/-- Vector VF23, FPOW.p d2, d0, d1: exponent not reduced. -/
theorem test_fpow_VF23 : lands 0x00102014
    [(0, 0x2), (1, 2 ^ 256 - 1)]
    [(2, 0x8DEF9A2D066170A549DA6A66080937DB048EFE08772C8F7C20E351DFB71856E0)]
    0x00000002#32 = true := by decide +kernel

/-- Vector VF25, FINV.p d2, d0: (p + 1)/2. -/
theorem test_finv_VF25 : lands 0x00002015
    [(0, 0x2)]
    [(2, 0x7FFFFFFFFFFFFFFFFFFFFFFFFFFFFFFFFFFFFFFFFFFFFFFFFFFFFFFF7FFFFE18)]
    0x00000002#32 = true := by decide +kernel

/-- Vector VF33, FINV.n d2, d0. -/
theorem test_finv_VF33 : lands 0x00002115
    [(0, Config.n)]
    []
    0x00000106#32 = true := by decide +kernel

/-- Vector VF36, FSQRT d2, d0: p − 3: the exponent picks this root, not 3. -/
theorem test_fsqrt_VF36 : lands 0x00002016
    [(0, 0x9)]
    [(2, 0xFFFFFFFFFFFFFFFFFFFFFFFFFFFFFFFFFFFFFFFFFFFFFFFFFFFFFFFEFFFFFC2C)]
    0x00000002#32 = true := by decide +kernel

/-- Vector VF40, FSQRT d2, d0: −1 is not a square since p ≡ 3 (mod 4). -/
theorem test_fsqrt_VF40 : lands 0x00002016
    [(0, Config.p - 1)]
    []
    0x00000206#32 = true := by decide +kernel

/-- Vector VC2, PDBL d2, d2: 4G, destination aliases source. -/
theorem test_pdbl_VC2 : lands 0x00022020
    [(2, g2x), (3, g2y)]
    [(2, g4x), (3, g4y)]
    0x00000002#32 = true := by decide +kernel

/-- Vector VC4, PDBL d2, d0: y = p reduces to 0. -/
theorem test_pdbl_VC4 : lands 0x00002020
    [(0, Config.gx), (1, Config.p)]
    []
    0x00000306#32 = true := by decide +kernel

/-- Vector VC5, PADD d4, d0, d2: G + 2G = 3G (case 4). -/
theorem test_padd_VC5 : lands 0x00204021
    [(0, Config.gx), (1, Config.gy), (2, g2x), (3, g2y)]
    [(4, g3x), (5, g3y)]
    0x00000002#32 = true := by decide +kernel

/-- Vector VC8, PADD d4, d0, d2: case 3: same x, unrelated y (off curve). -/
theorem test_padd_VC8 : lands 0x00204021
    [(0, Config.gx), (1, Config.gy), (2, Config.gx), (3, 0x1)]
    []
    0x00000306#32 = true := by decide +kernel

/-- Vector VC11, PNEG d2, d0: y = 0 stays 0, not p. -/
theorem test_pneg_VC11 : lands 0x00002022
    [(0, 0x5), (1, 0x0)]
    [(2, 0x5), (3, 0x0)]
    0x00000002#32 = true := by decide +kernel

/-- Vector VC12, PNEG d2, d0: x reduced. -/
theorem test_pneg_VC12 : lands 0x00002022
    [(0, 0xFFFFFFFFFFFFFFFFFFFFFFFFFFFFFFFFFFFFFFFFFFFFFFFFFFFFFFFEFFFFFC30), (1, Config.gy)]
    [(2, 0x1), (3, negGy)]
    0x00000002#32 = true := by decide +kernel

/-- Vector VC13, PMUL d4, d2, d0: 2·(3G) = 6G. -/
theorem test_pmul_VC13 : lands 0x00024023
    [(0, 0x2), (2, g3x), (3, g3y)]
    [(4, g6x), (5, g6y)]
    0x00000002#32 = true := by decide +kernel

/-- Vector VC17, PMUL d2, G, d0. -/
theorem test_pmulG_VC17 : lands 0x00002223
    [(0, 0x7)]
    [(2, g7x), (3, g7y)]
    0x00000002#32 = true := by decide +kernel

/-- Vector VC24, PMUL d2, G, d0: k = 0. -/
theorem test_pmulG_VC24 : lands 0x00002223
    [(0, 0x0)]
    []
    0x00000606#32 = true := by decide +kernel

/-- Vector VD2, PDEC d2, d0, #0x03: −G. -/
theorem test_pdec_VD2 : lands 0x03002024
    [(0, Config.gx)]
    [(2, Config.gx), (3, negGy)]
    0x00000002#32 = true := by decide +kernel

/-- Vector VD11, PDEC d2, d0, #0x02: x = p is out of range. -/
theorem test_pdec_VD11 : lands 0x02002024
    [(0, Config.p)]
    []
    0x00000406#32 = true := by decide +kernel

/-- Vector VE3, SIGN. -/
theorem test_sign_VE3 : lands 0x00000030
    [(0, digest), (1, 0x2), (2, 0x3)]
    [(3, g3x), (4, 0x399DB8EB913BC758F1389FF8C4F842288C5868206A21CF2CC025617A991C005F)]
    0x00000002#32 = true := by decide +kernel

/-- Vector VE9, SIGN: key n+1: not reduced before the check. -/
theorem test_sign_VE9 : lands 0x00000030
    [(0, digest), (1, 0xFFFFFFFFFFFFFFFFFFFFFFFFFFFFFFFEBAAEDCE6AF48A03BBFD25E8CD0364142), (2, 0x1)]
    []
    0x00000506#32 = true := by decide +kernel

/-- Vector VE20, VERIFY: S = 0: no inverse. -/
theorem test_verify_VE20 : lands 0x00000031
    [(0, digest), (3, Config.gx), (4, 0x0), (6, Config.gx), (7, Config.gy)]
    []
    0x00010002#32 = true := by decide +kernel

/-- By hand from 43_ecdsa.md R172: with d = R = S = (2G).x the scalars u1 and u2 are 1, so with Q = G the point is 2G, whose x is R. -/
theorem test_verify_accepts : lands 0x00000031
    [(0, g2x), (3, g2x), (4, g2x), (6, Config.gx), (7, Config.gy)]
    []
    0x0000000A#32 = true := by decide +kernel

/-- RECID of the nonce 6: (6G).y of section 2.7 is odd and (6G).x is below n (43_ecdsa.md R171). -/
theorem test_sign_recid : (after ((idleWith [(0, digest), (1, 1), (2, 6)] []).withFetchWord 32 0x30)).status.word = 0x00001002#32 := by
  decide +kernel

/-! ### The register window (section 2.6) -/

/-- VB3 to VB5: words of the ROM. -/
theorem test_rom_words :
    busRead State.reset 0x80#10 = 0xFFFFFFFF#32 ∧ busRead State.reset 0x87#10 = 0xFFFFFC2F#32 ∧
    busRead State.reset 0x8F#10 = 0xD0364141#32 ∧ busRead State.reset 0x90#10 = 0x79BE667E#32 ∧
    busRead State.reset 0x9F#10 = 0xFB10D4B8#32 ∧ busRead State.reset 0xA5#10 = 0x00000001#32 ∧
    busRead State.reset 0xA6#10 = 0x000007A2#32 ∧ busRead State.reset 0xA7#10 = 0x000E90A1#32 ∧
    busRead State.reset 0xA8#10 = 0x9D671CD5#32 := by decide +kernel

/-- VB8, VB9: word 0 is the most significant, and a word write changes its 32 bits only. -/
theorem test_word_write :
    readReg (busWrite 0x41#10 0xFFFFFFFF#32 (busWrite 0x47#10 0x9ABCDEF0#32 (busWrite 0x40#10 0x12345678#32 State.reset))).d 0 =
      0x12345678FFFFFFFF00000000000000000000000000000000000000009ABCDEF0#256 := by decide +kernel

/-- VB10: D7 word 7 is at 0x1FC. -/
theorem test_last_data_word : busRead (busWrite 0x7F#10 5#32 State.reset) 0x7F#10 = 5#32 := by decide +kernel

/-- VB11 to VB13: an illegal word with IE set raises `irq` at once; W1C of DONE lowers it; other STATUS bits ignore the write. -/
theorem test_illegal_irq :
    let s := busWrite cmdAddr 0#32 (busWrite ctrlAddr 1#32 State.reset)
    let t := busWrite statusAddr 2#32 s
    s.status.word = 0x00000F06#32 ∧ s.irq = true ∧ t.status.word = 0x00000F04#32 ∧ t.irq = false ∧
    (busWrite statusAddr 0xFFFFFFFD#32 t).status.word = 0x00000F04#32 := by decide +kernel

/-- VB15: ZEROIZE while idle, and CTRL reads IE alone. -/
theorem test_zeroize :
    (busWrite ctrlAddr 2#32 (idleWith [(0, 7)] [])).d = zeroRegs ∧
    busRead (busWrite ctrlAddr 2#32 (idleWith [(0, 7)] [])) ctrlAddr = 0#32 := by decide +kernel

/-- Program 4, steps 5 and 6: writes while a command runs are refused and set WERR. -/
theorem test_busy_writes :
    (busWrite cmdAddr 0x00110010#32 (inFlight 0x00102223#32 [(1, 5)] [])).status.word = 0x00000011#32 ∧
    (busWrite cmdAddr 0x00110010#32 (inFlight 0x00102223#32 [(1, 5)] [])).cmd = 0x00102223#32 ∧
    (busWrite 0x5F#10 7#32 (inFlight 0x00102223#32 [(1, 5)] [])).d = regs [(1, 5)] := by decide +kernel

/-! ### Witnesses: states and operands that meet the hypotheses of each statement, clause by clause -/

/-- The fields of `Inv`, as a test. -/
def invCheck (s : State) : Bool :=
  decide ((s.status.busy = true ↔ s.phase = .running) ∧ (s.phase = .running → legal s.pending = true) ∧
    (s.phase = .running → s.cmd = s.pending) ∧ (s.phase = .running → s.snap = s.d) ∧
    (s.phase = .running → s.status.done = false ∧ s.status.err = false ∧ s.status.valid = false ∧ s.status.errcode = 0#4 ∧
      s.status.recid = 0#2 ∧ s.status.diag = 0#4) ∧
    s.status.errcode ∈ errcodes ∧ (s.status.err = true ↔ s.status.errcode ≠ 0#4) ∧ s.status.diag ∈ diagcodes ∧
    (s.status.valid = true → s.status.diag = 0#4) ∧
    (s.status.err = true → s.status.valid = false ∧ s.status.recid = 0#2 ∧ s.status.diag = 0#4) ∧
    (s.status.recid ≠ 0#2 → s.status.valid = false ∧ s.status.diag = 0#4) ∧
    (s.rstN = false → s.d = zeroRegs ∧ s.ie = false ∧ s.status = Status.zero ∧ s.cmd = 0#32 ∧ s.phase = .idle))

theorem inv_of_check {s : State} (h : invCheck s = true) : Inv s := by
  obtain ⟨h1, h2, h3, h4, h5, h6, h7, h8, h9, h10, h11, h12⟩ := of_decide_eq_true h
  exact ⟨h1, h2, h3, h4, h5, h6, h7, h8, h9, h10, h11, h12⟩

/-- A running FADD, and the inputs to come. -/
def adding (es : List Event) : State := inFlight 0x00102010#32 [(0, 1), (1, 2)] es

theorem adding_inv (es : List Event) : Inv (adding es) := by
  have h : Inv (adding []) := inv_of_check (by decide +kernel)
  obtain ⟨h1, h2, h3, h4, h5, h6, h7, h8, h9, h10, h11, h12⟩ := h
  exact ⟨h1, h2, h3, h4, h5, h6, h7, h8, h9, h10, h11, h12⟩

/-- An idle block and the inputs to come. -/
def idle (es : List Event) : State := idleWith [(0, 1), (1, 2)] es

theorem witness_ResetLeavesTheListedValues :
    State.reset.phase = .idle ∧ ∃ t, step (idle [.write cmdAddr 0x00102010#32]) = .next t ∧
      (idle [.write cmdAddr 0x00102010#32]).phase = .idle ∧ t.phase = .running := ⟨rfl, _, rfl, rfl, rfl⟩

theorem witness_ResetAbandonsTheCommandInFlight :
    ∃ (s : State) (rest : List Event), s.phase = .running ∧ s.events = .rst false :: rest := ⟨adding [.rst false, .engine], _, rfl, rfl⟩

theorem witness_PowerLossEndsAsReset :
    ∃ (s : State) (rest : List Event), s.phase = .running ∧ s.events = .powerCycle :: rest := ⟨adding [.powerCycle], _, rfl, rfl⟩

/-- The block held in reset, and the inputs to come. -/
def held (es : List Event) : State := { State.reset with rstN := false, events := es }

theorem witness_NothingHappensWhileResetIsLow :
    (∃ (s : State) (a : WordAddr) (rest : List Event), s.rstN = false ∧ s.events = .read a :: rest) ∧ (∃ (s : State) (a : WordAddr) (v : Word) (rest : List Event), s.rstN = false ∧ s.events = .write a v :: rest) ∧
    (∃ (s : State) (rest : List Event), s.rstN = false ∧ s.events = .engine :: rest) ∧ ∃ (s : State) (rest : List Event), s.rstN = false ∧ s.events = .rst true :: rest :=
  ⟨⟨held [.read statusAddr], _, _, rfl, rfl⟩, ⟨held [.write cmdAddr 0x00000030#32], _, _, _, rfl, rfl⟩,
    ⟨held [.engine], _, rfl, rfl⟩, ⟨held [.rst true], _, rfl, rfl⟩⟩

theorem witness_BlockIsReadyAfterReset : legal 0x00102010#32 = true ∧ legal 0xFF777024#32 = false ∧ legal 0xFF076024#32 = true := by
  decide

theorem witness_DecodeOfEncodeIsTheCommand :
    (Instr.pdec 6 7 0xFF#8).wf = true ∧ (Instr.padd 0 6 6).wf = true ∧ (Instr.pmul 6 6 7).wf = true ∧ (Instr.fadd .n 7 7 7).wf = true := by
  decide

theorem witness_EncodeOfDecodeIsTheWord :
    decode 0xFF076024#32 = .ok (.pdec 6 7 0xFF#8) ∧ decode 0x00777110#32 = .ok (.fadd .n 7 7 7) := by decide

/-- A word of each row, all operands at their largest, in the table's order. -/
def lastWords : List Word :=
  [0x00777110#32, 0x00777111#32, 0x00777112#32, 0x00777113#32, 0x00777114#32, 0x00077115#32, 0x00077016#32,
    0x00066020#32, 0x00666021#32, 0x00066022#32, 0x00766023#32, 0x00706223#32, 0xFF076024#32, 0x00000030#32, 0x00000031#32]

/-- Every row is matched: the hypotheses of `LegalWordMatchesExactlyOneRow` and the first clause of every command statement. -/
theorem witness_LegalWordMatchesExactlyOneRow :
    ((Op.all.zip lastWords).map fun x => x.2 &&& x.1.mask == x.1.pattern) = List.replicate 15 true ∧ Op.all.length = 15 := by decide

/-- Each defect of the list in an illegal word that has no other one, and legal words on the edge of each clause. -/
theorem witness_IllegalWordsAreThoseTheRuleLists :
    (lastWords.map legal) = List.replicate 15 true ∧
    ([0x00000000#32, 0x00000410#32, 0x00000810#32, 0x00008010#32, 0x00080010#32, 0x00800010#32, 0x00000116#32, 0x00000120#32,
      0x00000210#32, 0x00010223#32, 0x00001024#32, 0x00010020#32, 0x00100021#32, 0x00100015#32, 0x00001030#32, 0x00010031#32,
      0x01000031#32].map legal) = List.replicate 17 false := by decide

/-- The first and the last offset of every range of the address map (20_memory.md R51). -/
theorem witness_ReadsFollowTheAddressMap :
    ([0x000#10, 0x001#10, 0x002#10, 0x003#10, 0x004#10, 0x03F#10, 0x040#10, 0x07F#10, 0x080#10, 0x087#10, 0x088#10, 0x08F#10,
      0x090#10, 0x097#10, 0x098#10, 0x09F#10, 0x0A0#10, 0x0A7#10, 0x0A8#10, 0x0AF#10, 0x0B0#10, 0x3FF#10].map
        fun a => (byteOffset a).toNat) =
    [0x000, 0x004, 0x008, 0x00C, 0x010, 0x0FC, 0x100, 0x1FC, 0x200, 0x21C, 0x220, 0x23C,
      0x240, 0x25C, 0x260, 0x27C, 0x280, 0x29C, 0x2A0, 0x2BC, 0x2C0, 0xFFC] := by decide

theorem witness_ReadsHaveNoSideEffect : ∃ (s : State) (a : WordAddr) (b : WordAddr) (rest : List Event), s.rstN = true ∧ s.status.busy = true ∧ s.events = .read a :: .read b :: rest :=
  ⟨adding [.read statusAddr, .read cmdAddr], _, _, _, rfl, rfl, rfl⟩

theorem witness_WordWriteReplacesExactlyItsWord :
    ∃ (s : State) (i : Reg) (w : WordIndex) (v : Word) (rest : List Event), s.rstN = true ∧ s.status.busy = false ∧ s.events = .write (dataAddr i w) v :: rest ∧
      ¬((7 : Reg) = i ∧ (6 : WordIndex) = w) ∧ ¬((6 : Reg) = i ∧ (7 : WordIndex) = w) :=
  ⟨idle [.write (dataAddr 7 7) 5#32], 7, 7, _, _, rfl, rfl, rfl, by decide, by decide⟩

theorem witness_ReservedAndConstantOffsetsIgnoreWrites :
    ((byteOffset 0x004#10).toNat = 0x010 ∧ (byteOffset 0x03F#10).toNat = 0x0FC ∧ (byteOffset 0x0B0#10).toNat = 0x2C0 ∧
      (byteOffset 0x3FF#10).toNat = 0xFFC) ∧
    ((byteOffset idAddr).toNat = 0 ∧ (byteOffset 0x080#10).toNat = 0x200 ∧ (byteOffset 0x0AF#10).toNat = 0x2BC) ∧
    ∃ (s : State) (e : Event) (rest : List Event), e.isBus = true ∧ s.events = e :: rest :=
  ⟨by decide, by decide, idle [.write 0x080#10 0#32], _, _, rfl, rfl⟩

theorem witness_BusyBlockKeepsItsDataRegisters :
    (Inv (adding []) ∧ (adding []).status.busy = true) ∧
    (idAddr = idAddr ∧ (idAddr = ctrlAddr → (2#32).getLsbD 1 = false)) ∧
    (ctrlAddr = ctrlAddr ∧ (1#32).getLsbD 1 = false) ∧ (statusAddr ≠ ctrlAddr ∧ romAddr .r2n 7 ≠ ctrlAddr) :=
  ⟨⟨adding_inv _, rfl⟩, by decide, by decide, by decide⟩

theorem witness_CtrlWriteSetsIeAndZeroizes :
    (byteOffset ctrlAddr).toNat = 0x004 ∧
    (∃ (s : State) (v : Word) (rest : List Event), s.rstN = true ∧ s.events = .write ctrlAddr v :: rest ∧ v.getLsbD 1 = false) ∧
    (∃ (s : State) (v : Word) (rest : List Event), s.rstN = true ∧ s.events = .write ctrlAddr v :: rest ∧ v.getLsbD 1 = true ∧ s.status.busy = false) ∧
    ∃ (s : State) (v : Word) (rest : List Event), s.rstN = true ∧ s.events = .write ctrlAddr v :: rest ∧ v.getLsbD 1 = true ∧ s.status.busy = true :=
  ⟨by decide, ⟨adding [.write ctrlAddr 0xFFFFFFFD#32], _, _, rfl, rfl, by decide⟩,
    ⟨idle [.write ctrlAddr 3#32], _, _, rfl, rfl, by decide, rfl⟩, ⟨adding [.write ctrlAddr 2#32], _, _, rfl, rfl, by decide, rfl⟩⟩

theorem witness_StatusWriteClearsOnlyDoneAndWerr : ∃ (s : State) (v : Word) (rest : List Event), s.rstN = true ∧ s.events = .write statusAddr v :: rest :=
  ⟨adding [.write statusAddr 0x12#32], _, _, rfl, rfl⟩

theorem witness_CmdWriteAcceptsCompletesOrIsRefused :
    (byteOffset cmdAddr).toNat = 0x00C ∧
    (∃ (s : State) (w : Word) (rest : List Event), s.rstN = true ∧ s.events = .write cmdAddr w :: rest ∧ s.status.busy = true) ∧
    (∃ (s : State) (w : Word) (rest : List Event), s.rstN = true ∧ s.events = .write cmdAddr w :: rest ∧ s.status.busy = false ∧ legal w = false) ∧
    ∃ (s : State) (w : Word) (rest : List Event), s.rstN = true ∧ s.events = .write cmdAddr w :: rest ∧ s.status.busy = false ∧ legal w = true :=
  ⟨by decide, ⟨adding [.write cmdAddr 0x30#32], _, _, rfl, rfl, rfl⟩, ⟨idle [.write cmdAddr 0#32], _, _, rfl, rfl, rfl, by decide⟩,
    ⟨idle [.write cmdAddr 0x30#32], _, _, rfl, rfl, rfl, by decide⟩⟩

/-- A block whose last command is done, with the interrupt enabled, and the inputs to come. -/
def finished (es : List Event) : State :=
  { idle es with ie := true, cmd := 0x00102010#32, status := { Status.zero with done := true } }

theorem witness_IrqFollowsIeAndDone :
    (∃ (s : State) (t : State) (w : Word), step s = .next t ∧ acceptsNext s w ∧ legal w = false) ∧ (∃ (s : State) (t : State) (w : Word), step s = .next t ∧ acceptsNext s w ∧ legal w = true) ∧
    (∃ (s : State) (t : State) (v : Word), step s = .next t ∧ writesNext s statusAddr v ∧ v.getLsbD 1 = true) ∧
    (∃ (s : State) (t : State) (v : Word), step s = .next t ∧ writesNext s ctrlAddr v ∧ v.getLsbD 0 = false) ∧
    ∃ (s : State) (t : State) (v : Word), step s = .next t ∧ writesNext s ctrlAddr v ∧ v.getLsbD 0 = true ∧ s.status.done = true :=
  ⟨⟨finished [.write cmdAddr 0#32], _, _, rfl, ⟨⟨rfl, rfl⟩, rfl⟩, by decide⟩,
    ⟨finished [.write cmdAddr 0x30#32], _, _, rfl, ⟨⟨rfl, rfl⟩, rfl⟩, by decide⟩,
    ⟨finished [.write statusAddr 2#32], _, _, rfl, ⟨rfl, rfl⟩, by decide⟩,
    ⟨finished [.write ctrlAddr 0#32], _, _, rfl, ⟨rfl, rfl⟩, by decide⟩,
    ⟨finished [.write ctrlAddr 1#32], _, _, rfl, ⟨rfl, rfl⟩, by decide, rfl⟩⟩

/-- The step from `s` is admitted by the invariant and ends in a state of which `f` holds. -/
def moves (s : State) (f : State → Bool) : Bool := invCheck s && (match step s with
  | .next t => f t
  | .fault _ => false
  | .refused _ => false)

theorem moves_spec {s : State} {f : State → Bool} (h : moves s f = true) : Inv s ∧ ∃ (t : State), step s = .next t ∧ f t = true := by
  obtain ⟨h1, h2⟩ := Bool.and_eq_true_iff.1 h
  refine ⟨inv_of_check h1, ?_⟩
  cases hs : step s with
  | next t => rw [hs] at h2; exact ⟨t, rfl, h2⟩
  | fault f => rw [hs] at h2; simp at h2
  | refused r => rw [hs] at h2; simp at h2

/-- A VERIFY that accepts: d = R = S = (2G).x, Q = G. -/
def verifying (es : List Event) : State := inFlight 0x31#32 [(0, g2x), (3, g2x), (4, g2x), (6, Config.gx), (7, Config.gy)] es

/-- A block with this STATUS, and the inputs to come. -/
def showing (st : Status) (es : List Event) : State := { idle es with status := st }

/-- Each bit of STATUS goes up and down in some step the invariant admits. -/
theorem witness_StatusBitsChangeOnlyAsListed :
    moves (idle [.write cmdAddr 0x30#32]) (fun t => t.status.busy && t.status != Status.zero) = true ∧
    moves (adding [.engine]) (fun t => !t.status.busy && t.status.done) = true ∧
    moves (finished [.write statusAddr 2#32]) (fun t => !t.status.done) = true ∧
    moves (inFlight 0x00002015#32 [] [.engine]) (fun t => t.status.err && t.status.errcode == 1#4) = true ∧
    moves (showing { Status.zero with done := true, err := true, errcode := 1#4 } [.write cmdAddr 0x30#32])
      (fun t => !t.status.err && t.status.errcode == 0#4) = true ∧
    moves (verifying [.engine]) (fun t => t.status.valid) = true ∧
    moves (showing { Status.zero with done := true, valid := true } [.write cmdAddr 0x30#32]) (fun t => !t.status.valid) = true ∧
    moves (adding [.write cmdAddr 0x30#32]) (fun t => t.status.werr) = true ∧
    moves (showing { Status.zero with werr := true } [.write statusAddr 0x10#32]) (fun t => !t.status.werr) = true ∧
    moves (inFlight 0x30#32 [(0, digest), (1, 1), (2, 6)] [.engine]) (fun t => t.status.recid == 1#2) = true ∧
    moves (inFlight 0x31#32 [] [.engine]) (fun t => t.status.diag == 1#4) = true := by decide +kernel

/-- `irq` rises by a completion and falls by a clear of DONE. -/
theorem witness_IrqFollowsIeAndDone_edges :
    moves { adding [.engine] with ie := true } (fun t => t.irq) = true ∧ (adding [.engine]).irq = false ∧
    moves (finished [.write statusAddr 2#32]) (fun t => !t.irq) = true ∧ (finished [.write statusAddr 2#32]).irq = true := by
  decide +kernel

theorem witness_DataRegistersChangeOnlyAsListed :
    moves (idle [.write (dataAddr 0 7) 9#32]) (fun t => readReg t.d 0 == 9#256) = true ∧
    moves (idle [.write ctrlAddr 2#32]) (fun t => readReg t.d 0 == 0#256) = true ∧
    moves (adding [.engine]) (fun t => readReg t.d 2 == 3#256) = true ∧
    moves (idle [.rst false]) (fun t => readReg t.d 0 == 0#256) = true := by decide +kernel

theorem witness_EngineStepRunsTheDecodedCommand :
    (∃ (s : State) (i : Instr) (rest : List Event), s.rstN = true ∧ s.phase = .running ∧ decode s.pending = .ok i ∧ s.events = .engine :: rest) ∧
    ∃ (s : State) (i : Instr), s.rstN = true ∧ s.phase = .running ∧ decode s.pending = .ok i ∧ s.events = [] :=
  ⟨⟨adding [.engine], _, _, rfl, rfl, rfl, rfl⟩, ⟨adding [], _, rfl, rfl, rfl, rfl⟩⟩

theorem witness_AcceptedCommandRunsToItsCompletion :
    ∃ (s : State) (i : Instr) (rest : List Event), i.wf = true ∧ s.rstN = true ∧ s.status.busy = false ∧ s.events = .write cmdAddr (encode i) :: .engine :: rest :=
  ⟨idle [.write cmdAddr (encode (.pmulG 6 1)), .engine], .pmulG 6 1, _, by decide, rfl, rfl, rfl⟩

theorem witness_FailedCommandWritesNoRegister :
    (adding []).status.err = false ∧ (adding []).status.errcode = 0#4 ∧
    (∃ (t : State), exec (.finv .p 2 0) (inFlight 0x00002015#32 [] []) = .next t ∧ t.status.err = true) ∧
    ∃ (t : State), exec (.fadd .p 2 0 1) (adding []) = .next t ∧ t.status.err = false := ⟨rfl, rfl, ⟨_, rfl, by decide +kernel⟩, ⟨_, rfl, rfl⟩⟩

theorem witness_SevenCommandsNeverRaise :
    (([.fadd .p 0 0 0, .fsub .p 0 0 0, .fmul .p 0 0 0, .mmul .p 0 0 0, .fpow .p 0 0 0, .pneg 0 0, .verify] : List Instr).map
      Instr.op) = [Op.fadd, .fsub, .fmul, .mmul, .fpow, .pneg, .verify] := by decide

theorem witness_CommandsChangeOnlyStatusAndDestinations :
    (0 : Reg) ∉ dests (.padd 2 4 6) ∧ dataAddr 4 0 ≠ statusAddr ∧ ∀ r ∈ dests (.padd 2 4 6), ∀ w, dataAddr 4 0 ≠ dataAddr r w := by
  decide

theorem witness_OutcomeIgnoresBusActivity :
    Inv (adding []) ∧ (adding []).phase = .running ∧
      ∀ e ∈ [Event.write cmdAddr 0x30#32, .write (dataAddr 0 0) 7#32, .read statusAddr, .write ctrlAddr 3#32], e.isBus = true :=
  ⟨adding_inv _, rfl, by decide⟩

/-! Field commands: operands are read from `snap`. -/

/-- A running command's registers. -/
def on (l : List (Reg × Nat)) : State := inFlight 0#32 l []

theorem witness_FsubSubtractsModuloM :
    (readReg (on [(0, 3), (1, 5)]).snap 0).toNat % modulusOf .n < (readReg (on [(0, 3), (1, 5)]).snap 1).toNat % modulusOf .n := by
  decide +kernel

theorem witness_MmulGivesTheMontgomeryProduct :
    0 < modulusOf .p ∧ 0 * 2 ^ 256 % modulusOf .p =
      ((readReg (on [(1, 5)]).snap 0).toNat % modulusOf .p) * ((readReg (on [(1, 5)]).snap 1).toNat % modulusOf .p) % modulusOf .p := by
  decide +kernel

theorem witness_MontgomeryDomainRoundTrip :
    ((readReg (on [(0, 7), (1, Config.r2n)]).snap 0).toNat % modulusOf .n = 7 % modulusOf .n ∧
      readReg (on [(0, 7), (1, Config.r2n)]).snap 1 = (radixConst .n).value) ∧
    ((readReg (on [(0, 0x1000003D1), (1, 1)]).snap 0).toNat = 1 * 2 ^ 256 % modulusOf .p ∧
      readReg (on [(0, 0x1000003D1), (1, 1)]).snap 1 = 1#256) ∧
    (readReg (on [(0, 0x2000007A2), (1, 0x300000B73)]).snap 0).toNat = 2 * 2 ^ 256 % modulusOf .p ∧
      (readReg (on [(0, 0x2000007A2), (1, 0x300000B73)]).snap 1).toNat = 3 * 2 ^ 256 % modulusOf .p := by decide +kernel

theorem witness_FpowRaisesToTheUnreducedExponent :
    (readReg (on [(0, 2)]).snap 1).toNat = 0 ∧
    ((readReg (on [(0, Config.p), (1, 5)]).snap 0).toNat % modulusOf .p = 0 ∧ (readReg (on [(0, Config.p), (1, 5)]).snap 1).toNat ≠ 0) ∧
    (readReg (on [(0, 2)]).snap 0).toNat % modulusOf .p ≠ 0 := by decide +kernel

theorem witness_FinvInvertsOrRaises :
    (readReg (on [(0, Config.n)]).snap 0).toNat % modulusOf .n = 0 ∧ (readReg (on [(0, 2)]).snap 0).toNat % modulusOf .n ≠ 0 ∧
    1 < modulusOf .n ∧ ((readReg (on [(0, 1)]).snap 0).toNat % modulusOf .n) * 1 % modulusOf .n = 1 := by decide +kernel

/-- Where the model's square root fails there is none. -/
theorem no_root {a : Nat} (h : fsqrtF a = .error .noSquareRoot) : ¬∃ r, r * r % Config.p = a := by
  obtain ⟨e, he⟩ : ∃ e, 4 * e = Config.p + 1 := ⟨(Config.p + 1) / 4, by decide⟩
  rw [fsqrtF_eq he] at h
  split at h
  · simp at h
  · next hn => exact fun hr => hn ((sqrt_candidate he).2 hr)

theorem witness_FsqrtFindsTheRootOrRaises : ∃ e, 4 * e = Config.p + 1 ∧
    (0 ^ e % Config.p) * (0 ^ e % Config.p) % Config.p = (readReg (on []).snap 0).toNat % Config.p ∧
    ¬∃ r, r * r % Config.p = (readReg (on [(0, Config.p - 1)]).snap 0).toNat % Config.p := by
  obtain ⟨e, he⟩ : ∃ e, 4 * e = Config.p + 1 := ⟨(Config.p + 1) / 4, by decide⟩
  have h0 : e ≠ 0 := by have := p_pos; omega
  exact ⟨e, he, by rw [Nat.zero_pow (Nat.pos_of_ne_zero h0)]; decide +kernel, no_root (by decide +kernel)⟩

theorem witness_FieldResultsAreCanonical :
    (adding []).status.noOutcome ∧ ∃ rs1 rs2, (Instr.fadd .p 2 0 1 = .fadd .p 2 rs1 rs2) ∧ (Instr.fsqrt 2 0 = .fsqrt 2 rs1) :=
  ⟨⟨rfl, rfl, rfl, rfl, rfl, rfl⟩, _, _, rfl, rfl⟩

/-! Curve commands. -/

/-- G in D0, D1 and these registers. -/
def onG (l : List (Reg × Nat)) : State := on ([(0, Config.gx), (1, Config.gy)] ++ l)

theorem witness_PdblDoublesByTheFormula :
    (Instr.pdbl 2 0).wf = true ∧ (readReg (on [(0, Config.gx), (1, Config.p)]).snap (0 + 1)).toNat % Config.p = 0 ∧
    (readReg (onG []).snap (0 + 1)).toNat % Config.p ≠ 0 ∧
    onCurve { x := (readReg (onG []).snap 0).toNat % Config.p, y := (readReg (onG []).snap (0 + 1)).toNat % Config.p } = true := by
  decide +kernel

/-- The four cases of PADD, on registers D0 to D3. -/
def paddCase (s : State) : Nat :=
  let x1 := (readReg s.snap 0).toNat % Config.p
  let y1 := (readReg s.snap (0 + 1)).toNat % Config.p
  let x2 := (readReg s.snap 2).toNat % Config.p
  let y2 := (readReg s.snap (2 + 1)).toNat % Config.p
  if x1 = x2 ∧ y1 = y2 then 1
  else if x1 = x2 ∧ y1 ≠ y2 ∧ (y1 + y2) % Config.p = 0 then 2
  else if x1 = x2 ∧ y1 ≠ y2 ∧ (y1 + y2) % Config.p ≠ 0 then 3
  else if x1 ≠ x2 then 4 else 0

theorem witness_PaddAddsByTheFourCases :
    (Instr.padd 4 0 2).wf = true ∧ paddCase (onG [(2, Config.gx), (3, Config.gy)]) = 1 ∧ paddCase (onG [(2, Config.gx), (3, negGy)]) = 2 ∧
    paddCase (onG [(2, Config.gx), (3, 1)]) = 3 ∧ paddCase (onG [(2, g2x), (3, g2y)]) = 4 := by decide +kernel

theorem witness_PnegNegates :
    (Instr.pneg 2 0).wf = true ∧ (readReg (on [(0, 5)]).snap (0 + 1)).toNat % Config.p = 0 ∧
    (2 : Reg).isPair = true ∧
    (readReg (onG [(2, Config.gx), (3, negGy)]).snap 2).toNat % Config.p = (readReg (onG []).snap 0).toNat % Config.p ∧
    (readReg (onG [(2, Config.gx), (3, negGy)]).snap (2 + 1)).toNat % Config.p =
      (Config.p - (readReg (onG []).snap (0 + 1)).toNat % Config.p) % Config.p := by decide +kernel

theorem witness_PmulIsDoubleAndAdd :
    (Instr.padd 4 0 2).wf = true ∧ (Instr.pmul 4 2 0).wf = true ∧ (Instr.pmulG 6 1).wf = true ∧ (2 ^ 255 - 1 : Nat) ≠ 0 := by decide

theorem witness_PmulOnTheCurveIsTheGroupMultiple :
    (∃ _ : Fact (Nat.Prime Config.p), ∃ P : secp256k1.Point, P ≠ 0) ∧
    (Config.n ≠ 0 ∧ Config.n < 2 ^ 256 ∧ Config.n ∣ Config.n) ∧
    ((Instr.pmul 4 0 2).wf = true ∧ (Instr.pmulG 4 2).wf = true ∧ onCurve { x := Config.gx, y := Config.gy } = true ∧
      Config.gx = (readReg (onG []).snap 0).toNat % Config.p ∧ Config.gy = (readReg (onG []).snap (0 + 1)).toNat % Config.p) ∧
    (readReg (onG []).snap 2).toNat = 0 ∧ (readReg (onG [(2, Config.n)]).snap 2).toNat = Config.n ∧
    (readReg (onG [(2, Config.n + 1)]).snap 2).toNat ≠ 0 ∧ (readReg (onG [(2, Config.n + 1)]).snap 2).toNat ≠ Config.n := by
  have hp : Fact (Nat.Prime Config.p) := ⟨p_prime⟩
  obtain ⟨G, hG⟩ := exists_rep generator_onCurve
  exact ⟨⟨hp, G, hG.ne_zero⟩, ⟨by decide, n_lt, dvd_rfl⟩, by decide +kernel⟩

/-- G in D0, D1 and −G in D2, D3; then G in both pairs: the sum is, and is not, the point at infinity. -/
theorem witness_PointCommandsAreTheGroupLaw :
    ∃ (_ : Fact (Nat.Prime Config.p)) (s u : State) (P Q R : secp256k1.Point), (Instr.padd 4 0 2).wf = true ∧
      Rep { x := (readReg s.snap 0).toNat % Config.p, y := (readReg s.snap (0 + 1)).toNat % Config.p } P ∧
      Rep { x := (readReg s.snap 2).toNat % Config.p, y := (readReg s.snap (2 + 1)).toNat % Config.p } Q ∧ P + Q = 0 ∧
      Rep { x := (readReg u.snap 0).toNat % Config.p, y := (readReg u.snap (0 + 1)).toNat % Config.p } P ∧
      Rep { x := (readReg u.snap 2).toNat % Config.p, y := (readReg u.snap (2 + 1)).toNat % Config.p } R ∧ P + R ≠ 0 := by
  have hp : Fact (Nat.Prime Config.p) := ⟨p_prime⟩
  obtain ⟨G, hG⟩ := exists_rep generator_onCurve
  obtain ⟨r, -, hr⟩ := pdblF_rep hG
  refine ⟨hp, onG [(2, Config.gx), (3, negGy)], onG [(2, Config.gx), (3, Config.gy)], G, -G, G, by decide, ?_, ?_, add_neg_cancel G,
    ?_, ?_, hr.ne_zero⟩
  · rw [show (⟨_, _⟩ : Point) = generator by decide +kernel]; exact hG
  · rw [show (⟨_, _⟩ : Point) = pnegF generator by decide +kernel]; exact pnegF_rep hG
  · rw [show (⟨_, _⟩ : Point) = generator by decide +kernel]; exact hG
  · rw [show (⟨_, _⟩ : Point) = generator by decide +kernel]; exact hG

theorem witness_PdecDecompressesOrRaises :
    (Instr.pdec 2 0 0x04#8).wf = true ∧ (0x04#8 ≠ 0x02#8 ∧ 0x04#8 ≠ 0x03#8) ∧ Config.p ≤ (readReg (on [(0, Config.p)]).snap 0).toNat ∧
    ((readReg (on []).snap 0).toNat < Config.p ∧
      ¬∃ r, r * r % Config.p = ((readReg (on []).snap 0).toNat ^ 3 + Config.a * (readReg (on []).snap 0).toNat + Config.b) % Config.p) ∧
    (readReg (onG []).snap 0).toNat < Config.p ∧
      ∃ r, r * r % Config.p = ((readReg (onG []).snap 0).toNat ^ 3 + Config.a * (readReg (onG []).snap 0).toNat + Config.b) % Config.p := by
  refine ⟨by decide, by decide, by decide +kernel, ⟨by decide +kernel, no_root (by decide +kernel)⟩, by decide +kernel, Config.gy, ?_⟩
  decide +kernel

theorem witness_PdecOfTheCompressedPointIsThePoint :
    onCurve { x := Config.gx, y := Config.gy } = true ∧ onCurve { x := Config.gx, y := negGy } = true ∧ (2 : Reg).isPair = true ∧
    (readReg (onG []).snap 0).toNat = Config.gx := by decide +kernel

/-! ECDSA commands. -/

theorem witness_SignComputesTheSignature :
    Nat.Prime Config.p ∧ ¬(1 ≤ (readReg (on []).snap 1).toNat ∧ (readReg (on []).snap 1).toNat ≤ Config.n - 1) ∧
    (1 ≤ (readReg (on [(1, Config.n - 1), (2, Config.n)]).snap 1).toNat ∧
      (readReg (on [(1, Config.n - 1), (2, Config.n)]).snap 1).toNat ≤ Config.n - 1 ∧
      (readReg (on [(1, Config.n - 1), (2, Config.n)]).snap 2).toNat % Config.n = 0) ∧
    1 ≤ (readReg (on [(1, 1), (2, Config.n + 1)]).snap 1).toNat ∧ (readReg (on [(1, 1), (2, Config.n + 1)]).snap 1).toNat ≤ Config.n - 1 ∧
    (readReg (on [(1, 1), (2, Config.n + 1)]).snap 2).toNat % Config.n ≠ 0 := by
  refine ⟨p_prime, ?_⟩; decide +kernel

theorem witness_VerifyReportsInValidAndDiag :
    (readReg (on [(4, Config.n)]).snap 4).toNat % Config.n = 0 ∧
    ((readReg (on [(4, 1)]).snap 4).toNat % Config.n ≠ 0 ∧ (readReg (on [(4, 1)]).snap 0).toNat % Config.n = 0) ∧
    ((readReg (on [(0, 1), (4, 1)]).snap 4).toNat % Config.n ≠ 0 ∧ (readReg (on [(0, 1), (4, 1)]).snap 3).toNat % Config.n = 0 ∧
      (readReg (on [(0, 1), (4, 1)]).snap 0).toNat % Config.n ≠ 0) ∧
    Config.n ≤ (readReg (on [(3, Config.n)]).snap 3).toNat := by decide +kernel

/-- S = 1 and Q = G: with d = 1 and R = n − 1 the sum is the point at infinity, with d = R = 1 it is 2G. -/
theorem witness_VerifyOnTheCurveChecksTheEquation :
    ∃ (_ : Fact (Nat.Prime Config.p)) (s u : State) (G Q : secp256k1.Point) (w : Nat),
      Rep { x := Config.gx, y := Config.gy } G ∧ w < Config.n ∧
      (Rep { x := (readReg s.snap 6).toNat % Config.p, y := (readReg s.snap 7).toNat % Config.p } Q ∧
        (readReg s.snap 4).toNat % Config.n * w % Config.n = 1 ∧ (readReg s.snap 0).toNat % Config.n ≠ 0 ∧
        (readReg s.snap 3).toNat % Config.n ≠ 0 ∧
        ((readReg s.snap 0).toNat * w % Config.n) • G + ((readReg s.snap 3).toNat * w % Config.n) • Q = 0) ∧
      Rep { x := (readReg u.snap 6).toNat % Config.p, y := (readReg u.snap 7).toNat % Config.p } Q ∧
        (readReg u.snap 4).toNat % Config.n * w % Config.n = 1 ∧ (readReg u.snap 0).toNat % Config.n ≠ 0 ∧
        (readReg u.snap 3).toNat % Config.n ≠ 0 ∧
        ((readReg u.snap 0).toNat * w % Config.n) • G + ((readReg u.snap 3).toNat * w % Config.n) • Q ≠ 0 := by
  have hp : Fact (Nat.Prime Config.p) := ⟨p_prime⟩
  obtain ⟨G, hG⟩ := exists_rep generator_onCurve
  obtain ⟨r, -, hr⟩ := pdblF_rep hG
  refine ⟨hp, on [(0, 1), (3, Config.n - 1), (4, 1), (6, Config.gx), (7, Config.gy)],
    on [(0, 1), (3, 1), (4, 1), (6, Config.gx), (7, Config.gy)], G, G, 1, hG, one_lt_n,
    ⟨?_, by decide +kernel, by decide +kernel, by decide +kernel, ?_⟩, ?_, by decide +kernel, by decide +kernel, by decide +kernel, ?_⟩
  · rw [show (⟨_, _⟩ : Point) = generator by decide +kernel]; exact hG
  · rw [← add_smul, show (_ + _ : Nat) = Config.n by decide +kernel]; exact n_smul G
  · rw [show (⟨_, _⟩ : Point) = generator by decide +kernel]; exact hG
  · rw [← add_smul, show (_ + _ : Nat) = 2 by decide +kernel, two_smul]; exact hr.ne_zero

/-- Registers of a VERIFY that accepts, by hand from R172: d = R = (2G).x, Q = G and this S. -/
def signed (S : Nat) : State := on [(0, g2x), (3, g2x), (4, S), (6, Config.gx), (7, Config.gy)]

/-- The premises of R174 for SIGN on `s`, PUBKEY on `u` and VERIFY on `v`. -/
def RoundTrip (s u v s' u' : State) : Prop :=
  1 ≤ (readReg s.snap 1).toNat ∧ (readReg s.snap 1).toNat ≤ Config.n - 1 ∧ (readReg s.snap 2).toNat % Config.n ≠ 0 ∧
    exec .sign s = .next s' ∧ readReg u.snap 1 = readReg s.snap 1 ∧ exec (pubkey 6 1) u = .next u' ∧
    readReg v.snap 0 = readReg s.snap 0 ∧ readReg v.snap 3 = readReg s'.d 3 ∧ readReg v.snap 4 = readReg s'.d 4 ∧
    readReg v.snap 6 = readReg u'.d 6 ∧ readReg v.snap 7 = readReg u'.d 7

/-- k = t = 1, d = 1: by hand from R170, R = Gx and S = Gx + 1, a good signature. -/
theorem witness_VerifyAcceptsWhatSignGives :
    ∃ s u v s' u' : State, RoundTrip s u v s' u' ∧
      readReg s'.d 3 ≠ 0#256 ∧ readReg s'.d 4 ≠ 0#256 ∧ (readReg s.snap 0).toNat % Config.n ≠ 0 := by
  refine ⟨on [(0, 1), (1, 1), (2, 1)], on [(1, 1)], on [(0, 1), (3, Config.gx), (4, Config.gx + 1), (6, Config.gx), (7, Config.gy)],
    _, _, ⟨by decide +kernel, by decide +kernel, by decide +kernel, exec_eq_commit _ _, by decide +kernel, exec_eq_commit _ _, ?_⟩, ?_⟩
  all_goals decide +kernel

/-- k = t = 1, d = n: by hand from R170, R = S = Gx, and d mod n = 0. -/
theorem witness_VerifyAcceptsWhatSignGives_zero_digest :
    ∃ s u v s' u' : State, RoundTrip s u v s' u' ∧
      ¬(readReg s'.d 3 ≠ 0#256 ∧ readReg s'.d 4 ≠ 0#256 ∧ (readReg s.snap 0).toNat % Config.n ≠ 0) := by
  refine ⟨on [(0, Config.n), (1, 1), (2, 1)], on [(1, 1)], on [(0, Config.n), (3, Config.gx), (4, Config.gx), (6, Config.gx), (7, Config.gy)],
    _, _, ⟨by decide +kernel, by decide +kernel, by decide +kernel, exec_eq_commit _ _, by decide +kernel, exec_eq_commit _ _, ?_⟩, ?_⟩
  all_goals decide +kernel

theorem witness_NegatedSignatureVerifiesToo :
    ∃ u v t : State, onCurve { x := (readReg u.snap 6).toNat % Config.p, y := (readReg u.snap 7).toNat % Config.p } = true ∧
      exec .verify u = .next t ∧ t.status.valid = true ∧ (∀ i : Reg, i ≠ 4 → readReg v.snap i = readReg u.snap i) ∧
      ((readReg v.snap 4).toNat + (readReg u.snap 4).toNat) % Config.n = 0 ∧
      (readReg u.snap 4).toNat % Config.n = (readReg u.snap 4).toNat % Config.n :=
  ⟨signed g2x, signed (Config.n - g2x), _, by decide +kernel, rfl, by decide +kernel, by decide +kernel, by decide +kernel, rfl⟩

/-! Invariants, runs and host programs. -/

theorem witness_EveryStepKeepsInvariant : ∃ (s : State) (t : State), Inv s ∧ s.phase = .running ∧ step s = .next t :=
  ⟨adding [.engine], _, adding_inv _, rfl, rfl⟩

theorem witness_InvariantStatesNeverStop : Inv (adding [.engine]) ∧ Inv (adding [.write cmdAddr 0#32]) := ⟨adding_inv _, adding_inv _⟩

theorem witness_ProgramsEndWithNoCommandInFlight : Inv (adding [.read statusAddr, .write cmdAddr 0x30#32]) := adding_inv _

theorem witness_LoadProgramsFillOneRegister :
    (∃ (s : State) (rest : List Event) (v : Value), s.rstN = true ∧ s.status.busy = false ∧ s.events = ld256 7 v ++ rest) ∧
    ∃ (s : State) (rest : List Event), s.rstN = true ∧ s.status.busy = false ∧ s.events = ldc 5 .r2p ++ rest :=
  ⟨⟨idle (ld256 7 (toValue 5) ++ []), _, _, rfl, rfl, rfl⟩, ⟨idle (ldc 5 .r2p ++ []), _, rfl, rfl, rfl⟩⟩

theorem witness_ExecProgramEndsWithDoneRead :
    ∃ (s : State) (i : Instr) (k : Nat) (r : Reg) (w : WordIndex) (rest : List Event), i.wf = true ∧ s.rstN = true ∧
      s.status.busy = false ∧ s.events = execCmd i k ++ .read (dataAddr r w) :: rest :=
  ⟨idle (execCmd (.fadd .p 2 0 1) 3 ++ [.read (dataAddr 2 7)]), .fadd .p 2 0 1, 3, 2, 7, [], rfl, rfl, rfl, rfl⟩

theorem witness_StoreProgramsReturnTheRegister :
    (idle []).rstN = true ∧ (adding []).rstN = true ∧ (adding []).status.busy = true ∧
    (∃ (s : State) (rest : List Event), s.rstN = true ∧ s.events = st256 7 ++ rest) ∧
    (∃ (s : State) (rest : List Event), s.rstN = true ∧ s.status.busy = false ∧ s.events = ld256 7 (toValue 5) ++ rest) ∧
    (idle []).status.busy = false :=
  ⟨rfl, rfl, rfl, ⟨idle (st256 7 ++ []), _, rfl, rfl⟩, ⟨idle (ld256 7 (toValue 5) ++ []), _, rfl, rfl, rfl⟩, rfl⟩

theorem witness_WaitdoneLoopsUntilDoneIsRead :
    (∃ (gaps : List Nat) (s u : State), waitDone gaps s = .left u) ∧
    (∃ s : State, s.rstN = true ∧ s.status.done = false) ∧
    (∃ (s : State) (i : Instr), i.wf = true ∧ s.rstN = true ∧ s.status.busy = false ∧ s.events = []) ∧
    ∃ (s : State) (i : Instr) (rest : List Event), i.wf = true ∧ s.rstN = true ∧ s.status.busy = false ∧
      s.events = .engine :: rest :=
  ⟨⟨[0], showing { Status.zero with done := true } [], _, rfl⟩, ⟨idle [], rfl, rfl⟩, ⟨idle [], .sign, rfl, rfl, rfl, rfl⟩,
    ⟨idle [.engine], .fadd .p 2 0 1, [], rfl, rfl, rfl, rfl⟩⟩

/-! ### What the host does with the words it reads (30_encoding.md R78) -/

/-- VB8's two written words in their places, most significant first: ST256 gives the value of 20_memory.md R52. -/
theorem test_store256 :
    ((hostWrite (dataAddr 0 0) 0x12345678#32 State.reset).bind (hostWrite (dataAddr 0 7) 0x9ABCDEF0#32)).bind (fun s =>
      (store256 0 s).map fun r => r.1) =
    some 0x123456780000000000000000000000000000000000000000000000009ABCDEF0#256 := by decide +kernel

/-- EXEC FADD over D0 = 2, D1 = 3: left by the second poll, with D2 = 5, when the engine's turn falls before it. -/
theorem test_execHost_left :
    (match execHost (.fadd .p 2 0 1) [0, 1] (idleWith [(0, 2), (1, 3)] []) with
      | .left u => u.rdata == some 0x00000002#32 && readReg u.d 2 == 5#256
      | .looping _ => false
      | .stopped => false) = true := by decide +kernel

/-- The same program, polled twice before the completion: BUSY is read and the loop goes on. -/
theorem test_execHost_looping :
    (match execHost (.fadd .p 2 0 1) [0, 0] (idleWith [(0, 2), (1, 3)] []) with
      | .left _ => false
      | .looping u => u.rdata == some 0x00000001#32
      | .stopped => false) = true := by decide +kernel

end Sys2Proof.Tests
end

section
/-! The consistency of the domain parameters (00_scope.md R3): the facts about the curve that the layers above do not
state by themselves, then O56. The numbers are those of Config (log 12). -/

namespace Sys2Proof.Machine

/-- A cube root of −7 would give a point of the curve with y = 0, and there is none. -/
theorem neg_seven_not_cube (x : Nat) : x ^ 3 % Config.p ≠ Config.p - 7 := by
  have : Fact (Nat.Prime Config.p) := ⟨p_prime⟩
  intro h
  have hcube : (x : ZMod Config.p) ^ 3 = -7 := by
    calc (x : ZMod Config.p) ^ 3 = ((x ^ 3 % Config.p : Nat) : ZMod Config.p) := by simp
      _ = ((Config.p - 7 : Nat) : ZMod Config.p) := by rw [h]
      _ = -7 := by rw [Nat.cast_sub (by decide), ZMod.natCast_self]; simp
  have hpoint : secp256k1.Equation (x : ZMod Config.p) 0 := by
    rw [equation_secp]; linear_combination -hcube
  exact y_ne_zero hpoint rfl

/-- −G, computed with the final reduction of PNEG_f, has the coordinates of R3: y(G) is not 0. -/
theorem pnegF_generator : pnegF generator = { x := Config.gx, y := Config.p - Config.gy } := by decide

/-- n·Q is the point at infinity for every point Q of the curve, so PMUL_f fails there (41_curve.md R135). -/
theorem pmulF_n_onCurve {q : Point} (hq : onCurve q = true) : pmulF Config.n q = .error .unsupportedInfinity := by
  have : Fact (Nat.Prime Config.p) := ⟨p_prime⟩
  obtain ⟨P, hP⟩ := exists_rep hq
  rcases pmulF_onCurve hP n_lt with ⟨h0, -⟩ | ⟨-, he⟩ | ⟨-, hn, -⟩
  · exact absurd h0 n_pos.ne'
  · exact he
  · exact absurd rfl hn

/-- Settles O56: primality and the multiples of G are the curve layer's theorems, −7 is no cube because no point has y = 0,
and the relations between the numbers are evaluated. -/
theorem domainParametersAreConsistent : Obligations.DomainParametersAreConsistent := by
  unfold Obligations.DomainParametersAreConsistent
  have hneg : pmulF (Config.n - 1) generator = .ok { x := Config.gx, y := Config.p - Config.gy } := by
    rw [pmulF_n_sub_one, pnegF_generator]
  have hp : Config.p = 2 ^ 256 - 2 ^ 32 - 977 := by decide
  have hresidues : Config.p % 4 = 3 ∧ Config.n % 4 = 1 ∧ Config.p % 3 = 1 := by decide
  have hwidth : 2 ^ 256 < 2 * Config.p ∧ 2 ^ 256 < 2 * Config.n := by decide
  obtain ⟨hp4, hn4, hp3⟩ := hresidues
  obtain ⟨hp2, hn2⟩ := hwidth
  exact ⟨p_prime, n_prime, hp, rfl, rfl, hp4, hn4, hp3, hp2, hn2, p_lt, n_lt, generator_onCurve, hneg,
    pmulF_n_onCurve generator_onCurve, fun ⟨x, hx⟩ => neg_seven_not_cube x hx, rfl, rfl, rfl⟩

end Sys2Proof.Machine
end

section
/-! What each kind of input does, one equation per case, and from these the one inversion lemma of the family: every way
a step can reach a next state, with the event that caused it (10_state.md R24 to R28). -/

namespace Sys2Proof.Machine

/-! ### One equation per case of a write -/

theorem writeCtrl_plain (s : State) {v : Word} (hz : v.getLsbD 1 = false) :
    writeCtrl v s = { s with ie := v.getLsbD 0 } := by
  simp only [writeCtrl, hz, Bool.false_eq_true, if_false]

theorem writeCtrl_zeroize_idle (s : State) {v : Word} (hz : v.getLsbD 1 = true) (hb : s.status.busy = false) :
    writeCtrl v s = { s with ie := v.getLsbD 0, d := zeroRegs } := by simp [writeCtrl, zeroize, hz, hb]

theorem writeCtrl_zeroize_busy (s : State) {v : Word} (hz : v.getLsbD 1 = true) (hb : s.status.busy = true) :
    writeCtrl v s = { s with ie := v.getLsbD 0, status := s.status.refusedWrite } := by
  simp [writeCtrl, zeroize, hz, hb]

theorem writeData_idle (s : State) (hb : s.status.busy = false) (i : Reg) (w : WordIndex) (v : Word) :
    writeData i w v s = { s with d := writeReg s.d i (setWord (readReg s.d i) w v) } := by simp [writeData, hb]

theorem writeData_busy (s : State) (hb : s.status.busy = true) (i : Reg) (w : WordIndex) (v : Word) :
    writeData i w v s = { s with status := s.status.refusedWrite } := by simp [writeData, hb]

theorem acceptCommand_busy (s : State) (hb : s.status.busy = true) (w : Word) :
    acceptCommand w s = { s with status := s.status.refusedWrite } := by simp [acceptCommand, hb]

theorem acceptCommand_legal (s : State) {w : Word} (hb : s.status.busy = false) (hl : legal w = true) :
    acceptCommand w s = { s with cmd := w, status := s.status.accepted.started,
                                 phase := .running, pending := w, snap := s.d } := by
  simp [acceptCommand, hb, hl]

theorem acceptCommand_illegal (s : State) {w : Word} (hb : s.status.busy = false) (hl : legal w = false) :
    acceptCommand w s = { s with cmd := w, status := s.status.accepted.illegal } := by
  simp [acceptCommand, hb, hl]

@[simp] theorem okState_d (s : State) (d : RegFile) (v : Bool) (r : BitVec 2) (g : BitVec 4) :
    (okState s d v r g).d = d := rfl
@[simp] theorem okState_status (s : State) (d : RegFile) (v : Bool) (r : BitVec 2) (g : BitVec 4) :
    (okState s d v r g).status = s.status.completedOk v r g := rfl
@[simp] theorem okState_phase (s : State) (d : RegFile) (v : Bool) (r : BitVec 2) (g : BitVec 4) :
    (okState s d v r g).phase = .idle := rfl
@[simp] theorem okState_rstN (s : State) (d : RegFile) (v : Bool) (r : BitVec 2) (g : BitVec 4) :
    (okState s d v r g).rstN = s.rstN := rfl
@[simp] theorem errState_d (s : State) (c : ErrCode) : (errState s c).d = s.d := rfl
@[simp] theorem errState_status (s : State) (c : ErrCode) : (errState s c).status = s.status.completedErr c := rfl
@[simp] theorem errState_phase (s : State) (c : ErrCode) : (errState s c).phase = .idle := rfl
@[simp] theorem errState_rstN (s : State) (c : ErrCode) : (errState s c).rstN = s.rstN := rfl

/-- A write that comes next while `rst_n` is high is taken by the bus. -/
theorem step_write_taken {s : State} {a : WordAddr} {v : Word} {rest : List Event} (hr : s.rstN = true)
    (he : s.events = .write a v :: rest) : step s = .next (busWrite a v (s.afterInput rest)) := by
  rw [step_write he]; simp [takeInput, hr]

/-! ### Every way a step can go -/

/-- `StepCase s t`: a step from `s` reaches `t`, one constructor for each cause. -/
inductive StepCase (s : State) : State → Prop
  /-- The command in flight completes without error. -/
  | completesOk (rest : List Event) (i : Instr) (e : Effect) (hc : completesNext s = true)
      (hd : decode s.pending = .ok i) (he : execResult i s.snap = .ok e) :
      StepCase s (okState (s.afterInput rest) (applyWrites e.writes s.d) e.valid e.recid e.diag)
  /-- The command in flight completes with an error. -/
  | completesErr (rest : List Event) (i : Instr) (c : ErrCode) (hc : completesNext s = true)
      (hd : decode s.pending = .ok i) (he : execResult i s.snap = .error c) :
      StepCase s (errState (s.afterInput rest) c)
  /-- No register changes; `rst_n` may be released. -/
  | keeps (rest : List Event) (rd : Option Word) (rn : Bool) (hrn : rn = s.rstN ∨ rn = true) :
      StepCase s { s with events := rest, rdata := rd, rstN := rn }
  /-- A write to CTRL with ZEROIZE = 0. -/
  | ctrl (rest : List Event) (v : Word) (hw : writesNext s ctrlAddr v) (hz : v.getLsbD 1 = false) :
      StepCase s { s.afterInput rest with ie := v.getLsbD 0 }
  /-- A write to CTRL with ZEROIZE = 1 while idle. -/
  | zeroize (rest : List Event) (v : Word) (hw : writesNext s ctrlAddr v) (hz : v.getLsbD 1 = true)
      (hb : s.status.busy = false) :
      StepCase s { s.afterInput rest with ie := v.getLsbD 0, d := zeroRegs }
  /-- A write to STATUS. -/
  | w1c (rest : List Event) (v : Word) (hw : writesNext s statusAddr v) :
      StepCase s { s.afterInput rest with status := s.status.w1c v }
  /-- A write to a word of a data register while idle. -/
  | data (rest : List Event) (i : Reg) (w : WordIndex) (v : Word) (hw : writesNext s (dataAddr i w) v)
      (hb : s.status.busy = false) :
      StepCase s { s.afterInput rest with d := writeReg s.d i (setWord (readReg s.d i) w v) }
  /-- A write that is refused because a command runs. -/
  | refused (rest : List Event) (a : WordAddr) (v : Word) (ie : Bool) (hw : writesNext s a v)
      (hb : s.status.busy = true)
      (ha : (a = cmdAddr ∨ ∃ i w, a = dataAddr i w) ∧ ie = s.ie ∨
        a = ctrlAddr ∧ v.getLsbD 1 = true ∧ ie = v.getLsbD 0) :
      StepCase s { s.afterInput rest with ie := ie, status := s.status.refusedWrite }
  /-- A legal word is accepted. -/
  | legalWord (rest : List Event) (w : Word) (hw : acceptsNext s w) (hl : legal w = true) :
      StepCase s { s.afterInput rest with cmd := w, status := s.status.accepted.started, phase := .running,
                                          pending := w, snap := s.d }
  /-- An illegal word is accepted and completes at once. -/
  | illegalWord (rest : List Event) (w : Word) (hw : acceptsNext s w) (hl : legal w = false) :
      StepCase s { s.afterInput rest with cmd := w, status := s.status.accepted.illegal }
  /-- A reset or a loss of power. -/
  | resets (rest : List Event) (rn : Bool) (hr : resetsNext s) :
      StepCase s { State.reset with events := rest, rstN := rn }

/-- A write that the bus takes is one of the cases. -/
theorem stepCase_of_busWrite {s : State} {a : WordAddr} {v : Word} (rest : List Event) (hw : writesNext s a v) :
    StepCase s (busWrite a v (s.afterInput rest)) := by
  rcases busWrite_cases a v (s.afterInput rest) with
    ⟨rfl, hs⟩ | ⟨rfl, hs⟩ | ⟨rfl, hs⟩ | ⟨i, w, rfl, hs⟩ | ⟨-, hs⟩ <;> rw [hs]
  · cases hz : v.getLsbD 1 with
    | false => rw [writeCtrl_plain _ hz]; exact .ctrl rest v hw hz
    | true =>
      cases hb : (s.afterInput rest).status.busy with
      | false => rw [writeCtrl_zeroize_idle _ hz hb]; exact .zeroize rest v hw hz hb
      | true => rw [writeCtrl_zeroize_busy _ hz hb]; exact .refused rest _ v _ hw hb (.inr ⟨rfl, hz, rfl⟩)
  · exact .w1c rest v hw
  · cases hb : (s.afterInput rest).status.busy with
    | true => rw [acceptCommand_busy _ hb]; exact .refused rest _ v _ hw hb (.inl ⟨.inl rfl, rfl⟩)
    | false =>
      cases hl : legal v with
      | true => rw [acceptCommand_legal _ hb hl]; exact .legalWord rest v ⟨hw, hb⟩ hl
      | false => rw [acceptCommand_illegal _ hb hl]; exact .illegalWord rest v ⟨hw, hb⟩ hl
  · cases hb : (s.afterInput rest).status.busy with
    | true => rw [writeData_busy _ hb]; exact .refused rest _ v _ hw hb (.inl ⟨.inr ⟨i, w, rfl⟩, rfl⟩)
    | false => rw [writeData_idle _ hb]; exact .data rest i w v hw hb
  · exact .keeps rest none s.rstN (.inl rfl)

/-- Every step that answers a next state is one of the cases. -/
theorem stepCase_of_step {s t : State} (h : step s = .next t) : StepCase s t := by
  rcases step_next_cases h with
    ⟨hc, rest, i, hd, rfl⟩ | ⟨rest, rd, rn, hrn, rfl⟩ | ⟨rest, a, v, hw, rfl⟩ | ⟨rest, rn, hr, rfl⟩
  · cases he : execResult i s.snap with
    | ok e => exact .completesOk rest i e hc hd he
    | error c => exact .completesErr rest i c hc hd he
  · exact .keeps rest rd rn hrn
  · exact stepCase_of_busWrite rest hw
  · exact .resets rest rn hr

end Sys2Proof.Machine
end

section
/-! The invariant: it holds after reset (O52) and every case of a step keeps it (O53). -/

namespace Sys2Proof.Machine

/-- Settles O52: reset is idle with STATUS = 0, where every clause of the invariant is about zeros. -/
theorem resetSatisfiesInvariant : Obligations.ResetSatisfiesInvariant := by
  constructor <;> simp [Status.zero, errcodes, diagcodes, ErrCode.code]

/-- When a command completes, STATUS still shows no outcome. -/
theorem Inv.noOutcome_of_completesNext {s : State} (hi : Inv s) (hc : completesNext s = true) :
    s.status.noOutcome :=
  hi.running_noOutcome (engineEnabled_of_completesNext hc).2

theorem Inv.not_running {s : State} (hi : Inv s) (hb : s.status.busy = false) : s.phase ≠ .running :=
  fun hp => Bool.false_ne_true (hb.symm.trans (hi.busy_iff.2 hp))

theorem inv_reset_inputs (rest : List Event) (rn : Bool) : Inv { State.reset with events := rest, rstN := rn } :=
  { resetSatisfiesInvariant with in_reset := fun _ => ⟨rfl, rfl, rfl, rfl, rfl⟩ }

/-- D may change freely while the block is idle. -/
theorem Inv.set_d_idle {s : State} (hi : Inv s) (hb : s.status.busy = false) (hr : s.rstN = true)
    (rest : List Event) (ie : Bool) (d : RegFile) : Inv { s.afterInput rest with ie := ie, d := d } :=
  { hi with
    snap_eq := fun hp => absurd hp (hi.not_running hb)
    in_reset := fun h => absurd (hr.symm.trans h) (by decide) }

/-- A write of 1 clears DONE and WERR only, which the invariant does not need. -/
theorem Inv.w1c {s : State} (hi : Inv s) (hr : s.rstN = true) (rest : List Event) (v : Word) :
    Inv { s.afterInput rest with status := s.status.w1c v } :=
  { hi with
    running_noOutcome := fun hp => by
      obtain ⟨hdone, hno⟩ := hi.running_noOutcome hp
      exact ⟨by simp [hdone], hno⟩
    in_reset := fun h => absurd (hr.symm.trans h) (by decide) }

/-- IE and WERR may change freely outside reset. -/
theorem Inv.set_ie_werr {s : State} (hi : Inv s) (hr : s.rstN = true) (rest : List Event) (ie werr : Bool) :
    Inv { s.afterInput rest with ie := ie, status := { s.status with werr := werr } } :=
  { hi with in_reset := fun h => absurd (hr.symm.trans h) (by decide) }

theorem inv_legalWord {s : State} {w : Word} (hr : s.rstN = true) (hl : legal w = true) (rest : List Event) :
    Inv { s.afterInput rest with cmd := w, status := s.status.accepted.started, phase := .running,
                                 pending := w, snap := s.d } where
  busy_iff := by simp
  pending_legal := fun _ => hl
  cmd_pending := fun _ => rfl
  snap_eq := fun _ => rfl
  running_noOutcome := fun _ => ⟨rfl, rfl, rfl, rfl, rfl, rfl⟩
  errcode_raised := show 0#4 ∈ errcodes by decide
  err_iff := by simp
  diag_raised := show 0#4 ∈ diagcodes by decide
  valid_diag := by simp
  err_alone := by simp
  recid_alone := by simp
  in_reset := by simp [hr]

/-- In an idle block outside reset the invariant is about ERR, ERRCODE, VALID, RECID and DIAG alone. -/
theorem inv_of_idle {t : State} (hr : t.rstN = true) (hp : t.phase = .idle) (hb : t.status.busy = false)
    (hcode : t.status.errcode ∈ errcodes) (herr : t.status.err = true ↔ t.status.errcode ≠ 0#4)
    (hdiag : t.status.diag ∈ diagcodes) (hvalid : t.status.valid = true → t.status.diag = 0#4)
    (halone : t.status.err = true → t.status.valid = false ∧ t.status.recid = 0#2 ∧ t.status.diag = 0#4)
    (hrecid : t.status.recid ≠ 0#2 → t.status.valid = false ∧ t.status.diag = 0#4) : Inv t where
  busy_iff := by simp [hb, hp]
  pending_legal := by simp [hp]
  cmd_pending := by simp [hp]
  snap_eq := by simp [hp]
  running_noOutcome := by simp [hp]
  errcode_raised := hcode
  err_iff := herr
  diag_raised := hdiag
  valid_diag := hvalid
  err_alone := halone
  recid_alone := hrecid
  in_reset := by simp [hr]

theorem Inv.illegalWord {s : State} (hi : Inv s) (hr : s.rstN = true) (hb : s.status.busy = false)
    (rest : List Event) (w : Word) :
    Inv { s.afterInput rest with cmd := w, status := s.status.accepted.illegal } := by
  have hp : s.phase = .idle := by cases hp : s.phase <;> simp [hi.not_running hb] at hp ⊢
  apply inv_of_idle <;> simp [hr, hp, hb, errcodes, diagcodes, ErrCode.code]

/-- RECID, VALID and DIAG belong to one command each, so an effect keeps the clauses about them. -/
theorem Inv.completesOk {s : State} {i : Instr} {e : Effect} (hi : Inv s) (hc : completesNext s = true)
    (he : execResult i s.snap = .ok e) (rest : List Event) (d : RegFile) :
    Inv (okState (s.afterInput rest) d e.valid e.recid e.diag) := by
  obtain ⟨-, herr, -, hcode, -, -⟩ := hi.noOutcome_of_completesNext hc
  obtain ⟨hvalid, hrecid, hdiag⟩ := execResult_flags he
  refine inv_of_idle (engineEnabled_of_completesNext hc).1 rfl rfl ?_ ?_ (execResult_diag he)
    (fun h => (hvalid h).2) ?_ fun h => ?_
  · simpa using hi.errcode_raised
  · simp [herr, hcode]
  · simp [herr]
  · obtain rfl := hrecid h
    constructor
    · simpa using fun h => (hvalid h).1
    · simpa using hdiag

/-- The code an error leaves is one that can be raised, and nothing else is set beside it. -/
theorem Inv.completesErr {s : State} {i : Instr} {c : ErrCode} (hi : Inv s) (hc : completesNext s = true)
    (he : execResult i s.snap = .error c) (rest : List Event) : Inv (errState (s.afterInput rest) c) := by
  obtain ⟨-, -, hvalid, -, hrecid, hdiag⟩ := hi.noOutcome_of_completesNext hc
  obtain ⟨hne, hmem⟩ := mayRaise_code (execResult_error he)
  refine inv_of_idle (engineEnabled_of_completesNext hc).1 rfl rfl hmem ?_ hi.diag_raised hi.valid_diag ?_ ?_
  · simp [hne]
  · simp [hvalid, hrecid, hdiag]
  · simp [hrecid]

/-- Settles O53, case by case of what a step can do. -/
theorem everyStepKeepsInvariant : Obligations.EveryStepKeepsInvariant := by
  unfold Obligations.EveryStepKeepsInvariant
  intro s t hi h
  cases stepCase_of_step h with
  | completesOk rest i e hc hd he => exact hi.completesOk hc he rest _
  | completesErr rest i c hc hd he => exact hi.completesErr hc he rest
  | keeps rest rd rn hrn =>
    refine { hi with in_reset := fun h => ?_ }
    rcases hrn with rfl | rfl
    · exact hi.in_reset h
    · exact absurd h (by simp)
  | ctrl rest v hw hz => exact hi.set_ie_werr hw.1 rest _ s.status.werr
  | zeroize rest v hw hz hb => exact hi.set_d_idle hb hw.1 rest _ _
  | w1c rest v hw => exact hi.w1c hw.1 rest v
  | data rest i w v hw hb => exact hi.set_d_idle hb hw.1 rest _ _
  | refused rest a v ie hw hb ha => exact hi.set_ie_werr hw.1 rest ie true
  | legalWord rest w hw hl => exact inv_legalWord hw.1.1 hl rest
  | illegalWord rest w hw hl => exact hi.illegalWord hw.1.1 hw.2 rest w
  | resets rest rn hr => exact inv_reset_inputs rest rn

end Sys2Proof.Machine
end

section
/-! What changes each bit of STATUS (10_state.md R25): one lemma per entry of the columns "set by" and "cleared by",
each with the case of the step that does it; then O21. -/

namespace Sys2Proof.Machine

variable {s t : State}

theorem StepCase.busy_set (h : StepCase s t) (h0 : s.status.busy = false) (h1 : t.status.busy = true) :
    ∃ w, acceptsNext s w ∧ legal w = true := by
  cases h with
  | legalWord rest w hw hl => exact ⟨w, hw, hl⟩
  | _ => simp [h0, Status.zero] at h1

theorem StepCase.busy_cleared (h : StepCase s t) (h0 : s.status.busy = true) (h1 : t.status.busy = false) :
    completesNext s = true ∨ resetsNext s := by
  cases h with
  | completesOk rest i e hc => exact .inl hc
  | completesErr rest i c hc => exact .inl hc
  | resets rest rn hr => exact .inr hr
  | _ => simp [h0] at h1

theorem StepCase.done_set (h : StepCase s t) (h0 : s.status.done = false) (h1 : t.status.done = true) :
    completesNext s = true ∨ ∃ w, acceptsNext s w ∧ legal w = false := by
  cases h with
  | completesOk rest i e hc => exact .inl hc
  | completesErr rest i c hc => exact .inl hc
  | illegalWord rest w hw hl => exact .inr ⟨w, hw, hl⟩
  | _ => simp [h0, Status.zero] at h1

theorem StepCase.done_cleared (h : StepCase s t) (h0 : s.status.done = true) (h1 : t.status.done = false) :
    (∃ v, writesNext s statusAddr v ∧ v.getLsbD 1 = true) ∨ (∃ w, acceptsNext s w) ∨ resetsNext s := by
  cases h with
  | w1c rest v hw => exact .inl ⟨v, hw, by simpa [h0] using h1⟩
  | legalWord rest w hw => exact .inr (.inl ⟨w, hw⟩)
  | resets rest rn hr => exact .inr (.inr hr)
  | _ => simp [h0] at h1

theorem StepCase.err_set (h : StepCase s t) (h0 : s.status.err = false) (h1 : t.status.err = true) :
    completesNext s = true ∨ ∃ w, acceptsNext s w ∧ legal w = false := by
  cases h with
  | completesErr rest i c hc => exact .inl hc
  | illegalWord rest w hw hl => exact .inr ⟨w, hw, hl⟩
  | _ => simp [h0, Status.zero] at h1

theorem StepCase.err_cleared (h : StepCase s t) (h0 : s.status.err = true) (h1 : t.status.err = false) :
    (∃ w, acceptsNext s w) ∨ resetsNext s := by
  cases h with
  | legalWord rest w hw => exact .inl ⟨w, hw⟩
  | resets rest rn hr => exact .inr hr
  | _ => simp [h0] at h1

theorem StepCase.valid_set (h : StepCase s t) (h0 : s.status.valid = false) (h1 : t.status.valid = true) :
    completesNext s = true ∧ decode s.pending = .ok .verify := by
  cases h with
  | completesOk rest i e hc hd he =>
    obtain ⟨rfl, -⟩ := (execResult_flags he).1 h1
    exact ⟨hc, hd⟩
  | _ => simp [h0, Status.zero] at h1

/-- A completion cannot clear VALID: it is 0 while a command runs. -/
theorem StepCase.valid_cleared (h : StepCase s t) (hi : Inv s) (h0 : s.status.valid = true)
    (h1 : t.status.valid = false) : (∃ w, acceptsNext s w) ∨ resetsNext s := by
  cases h with
  | completesOk rest i e hc =>
    obtain ⟨-, -, hvalid, -⟩ := hi.noOutcome_of_completesNext hc
    simp [h0] at hvalid
  | legalWord rest w hw => exact .inl ⟨w, hw⟩
  | illegalWord rest w hw => exact .inl ⟨w, hw⟩
  | resets rest rn hr => exact .inr hr
  | _ => simp [h0] at h1

theorem StepCase.werr_set (h : StepCase s t) (h0 : s.status.werr = false) (h1 : t.status.werr = true) :
    s.status.busy = true ∧ ∃ a v, writesNext s a v ∧
      (a = cmdAddr ∨ (∃ i w, a = dataAddr i w) ∨ a = ctrlAddr ∧ v.getLsbD 1 = true) := by
  cases h with
  | refused rest a v ie hw hb ha =>
    refine ⟨hb, a, v, hw, ?_⟩
    rcases ha with ⟨ha | ha, -⟩ | ⟨ha, hz, -⟩
    · exact .inl ha
    · exact .inr (.inl ha)
    · exact .inr (.inr ⟨ha, hz⟩)
  | _ => simp [h0, Status.zero] at h1

theorem StepCase.werr_cleared (h : StepCase s t) (h0 : s.status.werr = true) (h1 : t.status.werr = false) :
    (∃ v, writesNext s statusAddr v ∧ v.getLsbD 4 = true) ∨ resetsNext s := by
  cases h with
  | w1c rest v hw => exact .inl ⟨v, hw, by simpa [h0] using h1⟩
  | resets rest rn hr => exact .inr hr
  | _ => simp [h0] at h1

theorem StepCase.errcode_changes (h : StepCase s t) (hne : t.status.errcode ≠ s.status.errcode) :
    (t.status.errcode ≠ 0#4 ∧ (completesNext s = true ∨ ∃ w, acceptsNext s w ∧ legal w = false)) ∨
    (t.status.errcode = 0#4 ∧ ((∃ w, acceptsNext s w) ∨ resetsNext s)) := by
  cases h with
  | completesErr rest i c hc hd he => exact .inl ⟨(mayRaise_code (execResult_error he)).1, .inl hc⟩
  | legalWord rest w hw => exact .inr ⟨rfl, .inl ⟨w, hw⟩⟩
  | illegalWord rest w hw hl => exact .inl ⟨by simp, .inr ⟨w, hw, hl⟩⟩
  | resets rest rn hr => exact .inr ⟨rfl, .inr hr⟩
  | _ => simp at hne

/-- RECID is 0 while a command runs, so a completion that changes it is SIGN's. -/
theorem StepCase.recid_changes (h : StepCase s t) (hi : Inv s) (hne : t.status.recid ≠ s.status.recid) :
    (completesNext s = true ∧ decode s.pending = .ok .sign) ∨
    (t.status.recid = 0#2 ∧ ((∃ w, acceptsNext s w) ∨ resetsNext s)) := by
  cases h with
  | completesOk rest i e hc hd he =>
    obtain ⟨-, -, -, -, hrecid, -⟩ := hi.noOutcome_of_completesNext hc
    obtain rfl := (execResult_flags he).2.1 (hrecid ▸ hne)
    exact .inl ⟨hc, hd⟩
  | legalWord rest w hw => exact .inr ⟨rfl, .inl ⟨w, hw⟩⟩
  | illegalWord rest w hw => exact .inr ⟨rfl, .inl ⟨w, hw⟩⟩
  | resets rest rn hr => exact .inr ⟨rfl, .inr hr⟩
  | _ => simp at hne

/-- DIAG is 0 while a command runs, so a completion that changes it is a rejection by VERIFY. -/
theorem StepCase.diag_changes (h : StepCase s t) (hi : Inv s) (hne : t.status.diag ≠ s.status.diag) :
    (completesNext s = true ∧ decode s.pending = .ok .verify ∧ t.status.valid = false) ∨
    (t.status.diag = 0#4 ∧ ((∃ w, acceptsNext s w) ∨ resetsNext s)) := by
  cases h with
  | completesOk rest i e hc hd he =>
    obtain ⟨-, -, -, -, -, hdiag⟩ := hi.noOutcome_of_completesNext hc
    obtain ⟨hvalid, -, hverify⟩ := execResult_flags he
    have hne0 : e.diag ≠ 0#4 := hdiag ▸ hne
    obtain rfl := hverify hne0
    exact .inl ⟨hc, hd, Bool.eq_false_iff.2 fun hv => hne0 (hvalid hv).2⟩
  | legalWord rest w hw => exact .inr ⟨rfl, .inl ⟨w, hw⟩⟩
  | illegalWord rest w hw => exact .inr ⟨rfl, .inl ⟨w, hw⟩⟩
  | resets rest rn hr => exact .inr ⟨rfl, .inr hr⟩
  | _ => simp at hne

end Sys2Proof.Machine

namespace Sys2Proof.Machine

/-- Settles O21: one lemma for each entry of the table of R25, about the case the step is in. -/
theorem statusBitsChangeOnlyAsListed : Obligations.StatusBitsChangeOnlyAsListed := by
  unfold Obligations.StatusBitsChangeOnlyAsListed
  intro s t hi h
  have hc := stepCase_of_step h
  exact ⟨hc.busy_set, hc.busy_cleared, hc.done_set, hc.done_cleared, hc.err_set, hc.err_cleared,
    hc.valid_set, hc.valid_cleared hi, hc.werr_set, hc.werr_cleared, hc.errcode_changes,
    hc.recid_changes hi, hc.diag_changes hi⟩

/-- A completion changes only destinations of its command (60_exceptions.md R193). -/
theorem mem_dests_of_readReg_ne {c : Instr} {snap d : RegFile} {e : Effect} {i : Reg}
    (he : execResult c snap = .ok e) (hne : readReg (applyWrites e.writes d) i ≠ readReg d i) : i ∈ dests c := by
  rw [← execResult_ok he]
  by_contra hi
  refine hne (readReg_applyWrites_of_not_mem _ _ _ fun rv hrv hrv' => hi ?_)
  exact List.mem_map.2 ⟨rv, hrv, hrv'⟩

/-- Settles O22: of the cases of a step, these four write D. -/
theorem dataRegistersChangeOnlyAsListed : Obligations.DataRegistersChangeOnlyAsListed := by
  unfold Obligations.DataRegistersChangeOnlyAsListed
  intro s t i h hne
  cases stepCase_of_step h with
  | data rest j w v hw hb =>
    have hij : i = j := by
      by_contra hij
      exact hne (readReg_writeReg_ne _ _ hij)
    exact .inl ⟨hb, w, v, hij ▸ hw⟩
  | zeroize rest v hw hz hb => exact .inr (.inl ⟨hb, v, hw, hz⟩)
  | completesOk rest c e hc hd he => exact .inr (.inr (.inl ⟨hc, c, hd, mem_dests_of_readReg_ne he hne⟩))
  | resets rest rn hr => exact .inr (.inr (.inr hr))
  | _ => exact absurd rfl hne

end Sys2Proof.Machine
end

section
/-! The registers of the window: CTRL, STATUS and CMD (10_state.md R24 to R26), and a command from its
acceptance to the engine's turn (R28). -/

namespace Sys2Proof.Machine

theorem ctrlWord_ie (s : State) : (ctrlWord s).getLsbD 0 = s.ie := by
  rw [ctrlWord, BitVec.getLsbD_append, if_pos (by decide)]; cases s.ie <;> rfl

theorem ctrlWord_reserved (s : State) : (ctrlWord s).extractLsb' 1 31 = 0#31 := by
  rw [ctrlWord, BitVec.extractLsb'_append_eq_left]

/-- Settles O12: the fields of STATUS and CTRL, bit by bit. -/
theorem statusAndCtrlReadByTheirBits : Obligations.StatusAndCtrlReadByTheirBits := by
  unfold Obligations.StatusAndCtrlReadByTheirBits
  exact ⟨fun st => ⟨st.word_busy, st.word_done, st.word_err, st.word_valid, st.word_werr, st.word_reserved5,
      st.word_errcode, st.word_recid, st.word_reserved14, st.word_diag, st.word_reserved20⟩,
    fun s => ⟨ctrlWord_ie s, ctrlWord_reserved s⟩⟩

/-- Settles O17: the three cases of a write to CTRL, and the bits a read of it gives. -/
theorem ctrlWriteSetsIeAndZeroizes : Obligations.CtrlWriteSetsIeAndZeroizes := by
  unfold Obligations.CtrlWriteSetsIeAndZeroizes
  refine ⟨rfl, fun s => ⟨rfl, fun a ha => ?_⟩, fun s v rest hr he => ?_⟩
  · obtain rfl : a = ctrlAddr := addr_of_offset 1 (by decide) ha
    exact ⟨ctrlWord_ie s, ctrlWord_reserved s⟩
  · rw [step_write_taken hr he, busWrite_ctrl]
    refine ⟨fun hz => ?_, fun hz hb => ⟨zeroRegs, readReg_zeroRegs, ?_⟩, fun hz hb => ?_⟩
    · rw [writeCtrl_plain _ hz]; rfl
    · rw [writeCtrl_zeroize_idle (s.afterInput rest) hz hb]; rfl
    · rw [writeCtrl_zeroize_busy (s.afterInput rest) hz hb]; rfl

/-- Settles O18: the write is `Status.w1c`. -/
theorem statusWriteClearsOnlyDoneAndWerr : Obligations.StatusWriteClearsOnlyDoneAndWerr := by
  unfold Obligations.StatusWriteClearsOnlyDoneAndWerr
  intro s v rest hr he
  rw [step_write_taken hr he, busWrite_status]
  simp only [Bool.if_false_left, Bool.decide_eq_true, Bool.and_comm (!_)]
  rfl

theorem Status.accepted_illegal_idle {st : Status} (hb : st.busy = false) :
    st.accepted.illegal = { busy := false, done := true, err := true, valid := false, werr := st.werr,
                            errcode := 0xF#4, recid := 0#2, diag := 0#4 } := by
  simp [Status.accepted, Status.illegal, ErrCode.code, hb]

/-- Settles O19: the three cases of a write to CMD. -/
theorem cmdWriteAcceptsCompletesOrIsRefused : Obligations.CmdWriteAcceptsCompletesOrIsRefused := by
  unfold Obligations.CmdWriteAcceptsCompletesOrIsRefused
  refine ⟨rfl, fun s w => ⟨fun a ha => ?_, fun rest hr he => ?_⟩⟩
  · obtain rfl : a = cmdAddr := addr_of_offset 3 (by decide) ha
    exact busRead_cmd s
  · rw [step_write_taken hr he, busWrite_cmd]
    refine ⟨fun hb => ?_, fun hb hl => ?_, fun hb hl => ?_⟩
    · rw [acceptCommand_busy (s.afterInput rest) hb]; rfl
    · rw [acceptCommand_illegal (s.afterInput rest) hb hl, State.afterInput_status,
        Status.accepted_illegal_idle hb]; rfl
    · rw [acceptCommand_legal (s.afterInput rest) hb hl]; rfl

/-- The decoder gives a well-formed command back from its word (30_encoding.md R74). -/
theorem decode_encode {i : Instr} (h : i.wf = true) : decode (encode i) = .ok i := by
  rw [decode_of_row (op_matches_encode h), build_encode]

/-- Settles O24: the write is accepted, and the engine's turn finds the very word in flight. -/
theorem acceptedCommandRunsToItsCompletion : Obligations.AcceptedCommandRunsToItsCompletion := by
  unfold Obligations.AcceptedCommandRunsToItsCompletion
  intro s i rest hwf hr hb he
  have haccept := acceptCommand_legal (s.afterInput (.engine :: rest)) hb (legal_encode hwf)
  refine ⟨_, (step_write_taken hr he).trans (congrArg Host.Outcome.next haccept), rfl, rfl, rfl, rfl, rfl, rfl, rfl, ?_⟩
  rw [step_engine rfl]
  exact engineTurn_running hr rfl (decode_encode hwf)

end Sys2Proof.Machine
end

section
/-! The state after reset, and that nothing reads `pending` and `snap` while the block is idle (10_state.md R31). -/

namespace Sys2Proof.Machine

/-- `s` with other values in the hidden registers. -/
def State.withHidden (s : State) (p : Word) (q : RegFile) : State := { s with pending := p, snap := q }

@[simp] theorem State.withHidden_rstN (s : State) (p : Word) (q : RegFile) : (s.withHidden p q).rstN = s.rstN := rfl

@[simp] theorem busRead_withHidden (s : State) (p : Word) (q : RegFile) (a : WordAddr) :
    busRead (s.withHidden p q) a = busRead s a := busRead_congr rfl rfl rfl rfl a

/-- `f` reads neither `pending` nor `snap`: it overwrites both, or it carries both along and leaves the phase. -/
def HiddenUnread (f : State → State) : Prop :=
  ∀ s p q, f (s.withHidden p q) = f s ∨ f (s.withHidden p q) = (f s).withHidden p q ∧ (f s).phase = s.phase

theorem hiddenUnread_acceptCommand (w : Word) : HiddenUnread (acceptCommand w) := by
  intro s p q
  cases hb : s.status.busy with
  | true =>
    rw [acceptCommand_busy s hb, acceptCommand_busy (s.withHidden p q) hb]
    exact .inr ⟨rfl, rfl⟩
  | false =>
    cases hl : legal w with
    | true =>
      rw [acceptCommand_legal s hb hl, acceptCommand_legal (s.withHidden p q) hb hl]
      exact .inl rfl
    | false =>
      rw [acceptCommand_illegal s hb hl, acceptCommand_illegal (s.withHidden p q) hb hl]
      exact .inr ⟨rfl, rfl⟩

theorem hiddenUnread_writeCtrl (v : Word) : HiddenUnread (writeCtrl v) := by
  intro s p q
  refine .inr ⟨?_, writeCtrl_phase v s⟩
  cases hz : v.getLsbD 1 with
  | false => rw [writeCtrl_plain s hz, writeCtrl_plain _ hz]; rfl
  | true =>
    cases hb : s.status.busy with
    | false => rw [writeCtrl_zeroize_idle s hz hb, writeCtrl_zeroize_idle (s.withHidden p q) hz hb]; rfl
    | true => rw [writeCtrl_zeroize_busy s hz hb, writeCtrl_zeroize_busy (s.withHidden p q) hz hb]; rfl

theorem hiddenUnread_writeData (i : Reg) (w : WordIndex) (v : Word) : HiddenUnread (writeData i w v) := by
  intro s p q
  refine .inr ⟨?_, writeData_phase i w v s⟩
  cases hb : s.status.busy with
  | false => rw [writeData_idle s hb, writeData_idle (s.withHidden p q) hb]; rfl
  | true => rw [writeData_busy s hb, writeData_busy (s.withHidden p q) hb]; rfl

theorem hiddenUnread_busWrite (a : WordAddr) (v : Word) : HiddenUnread (busWrite a v) := by
  intro s p q
  unfold busWrite
  cases locate a with
  | ctrl => exact hiddenUnread_writeCtrl v s p q
  | cmd => exact hiddenUnread_acceptCommand v s p q
  | data i w => exact hiddenUnread_writeData i w v s p q
  | id | status | rom | reserved => exact .inr ⟨rfl, rfl⟩

theorem hiddenUnread_takeInput (e : Event) : HiddenUnread (takeInput e) := by
  intro s p q
  cases e with
  | read a =>
    cases hr : s.rstN with
    | true =>
      simp only [takeInput, State.withHidden_rstN, hr, if_true, busRead_withHidden]
      exact .inr ⟨rfl, trivial⟩
    | false => simp [takeInput, hr]
  | write a v =>
    cases hr : s.rstN with
    | true => simpa [takeInput, hr] using hiddenUnread_busWrite a v s p q
    | false => simp [takeInput, hr]
  | engine => exact .inr ⟨rfl, rfl⟩
  | rst level =>
    cases level with
    | true => exact .inr ⟨rfl, rfl⟩
    | false => exact .inl rfl
  | powerCycle => exact .inl rfl

/-- An idle block takes its next input, if there is one, and does nothing else. -/
theorem step_idle {s : State} (hp : s.phase = .idle) :
    step s = .next (takeInput (s.events.headD .engine) (s.afterInput s.events.tail)) := by
  rcases step_cases s with ⟨rest, he, hs⟩ | ⟨e, rest, he, -, hs⟩ <;> rw [hs]
  · have hturn : engineTurn (s.afterInput rest) = .next (s.afterInput rest) := by
      simp [engineTurn, engineEnabled, hp]
    rw [hturn]
    rcases he with ⟨he, rfl⟩ | he <;> rw [he] <;> rfl
  · rw [he]; rfl

/-- Settles O1: the reset values one by one; an idle step takes an input, which reads neither `pending` nor `snap`. -/
theorem resetLeavesTheListedValues : Obligations.ResetLeavesTheListedValues := by
  unfold Obligations.ResetLeavesTheListedValues
  refine ⟨⟨readReg_zeroRegs, rfl, rfl, rfl, rfl, rfl, rfl, rfl, busRead_rom _⟩, fun s p q hp => ?_⟩
  have hidle : (s.withHidden p q).phase = .idle := hp
  refine ⟨_, _, step_idle hp, step_idle hidle, ?_⟩
  have htake := hiddenUnread_takeInput (s.events.headD .engine) (s.afterInput s.events.tail) p q
  rcases htake with h | ⟨h, hphase⟩
  · exact ⟨congrArg (State.withHidden · _ _) h, fun _ => h⟩
  · exact ⟨(congrArg (State.withHidden · _ _) h).trans rfl, fun hrun => by rw [hphase] at hrun; simp [hp] at hrun⟩

end Sys2Proof.Machine
end

section
/-! The bus (20_memory.md R50 to R58): where each byte offset leads, what a read returns and leaves as it was, what a write
changes or does not, and that no access stops the block. -/

namespace Sys2Proof.Machine

/-! ### Reads have no side effect (R56) -/

/-- A read looks at no input still to come and at no earlier read data. -/
theorem busRead_inputs (s : State) (ev : List Event) (rd : Option Word) (a : WordAddr) :
    busRead { s with events := ev, rdata := rd } a = busRead s a := busRead_congr rfl rfl rfl rfl a

/-- A read that comes next while `rst_n` is high is answered by the bus, and changes nothing else. -/
theorem step_read_taken {s : State} {a : WordAddr} {rest : List Event} (hr : s.rstN = true)
    (he : s.events = .read a :: rest) :
    step s = .next { s with events := rest, rdata := some (busRead s a) } := by
  rw [step_read he, takeInput, State.afterInput_rstN, if_pos hr, State.afterInput, busRead_inputs]

/-- Settles O13: both reads are taken, and what the second returns does not depend on the read data of the first. -/
theorem readsHaveNoSideEffect : Obligations.ReadsHaveNoSideEffect := by
  unfold Obligations.ReadsHaveNoSideEffect
  intro s a b rest hr he
  have hsame := busRead_inputs s (.read b :: rest) (some (busRead s a)) b
  exact ⟨step_read_taken hr he, hsame ▸ step_read_taken (by exact hr) rfl⟩

/-! ### A word write replaces one word (R52, R56) -/

theorem getWord_writeReg_setWord_ne (d : RegFile) {i j : Reg} {w u : WordIndex} (v : Word) (h : ¬(j = i ∧ u = w)) :
    getWord (readReg (writeReg d i (setWord (readReg d i) w v)) j) u = getWord (readReg d j) u := by
  by_cases hj : j = i
  · subst hj
    rw [readReg_writeReg_same, getWord_setWord_ne _ _ fun hu => h ⟨rfl, hu⟩]
  · rw [readReg_writeReg_ne _ _ hj]

/-- Settles O14: the step stores `setWord` of the old value, word by word. -/
theorem wordWriteReplacesExactlyItsWord : Obligations.WordWriteReplacesExactlyItsWord := by
  unfold Obligations.WordWriteReplacesExactlyItsWord
  intro s i w v rest hr hb he
  refine ⟨_, writeWord_step hr hb he, ?_, fun j u h => ?_⟩
  · rw [← getWord_toNat, readReg_writeReg_same, getWord_setWord_same]
  · rw [← getWord_toNat, ← getWord_toNat, getWord_writeReg_setWord_ne s.d v h]

/-! ### The address map (R51) -/

/-- A word of the ROM, when the constant there is the number `m`. -/
theorem busRead_rom_toNat {s : State} {a : WordAddr} {c : RomConst} {w : WordIndex} {m : Nat} (hm : c.value.toNat = m)
    (ha : (byteOffset a).toNat = 0x200 + 0x20 * c.index + 4 * w.val) :
    (busRead s a).toNat = m / 2 ^ (224 - 32 * w.val) % 2 ^ 32 := by
  rw [romAddr_of_offset ha, busRead_rom, getWord_toNat, hm]

theorem r2p_value_toNat : RomConst.r2p.value.toNat = 2 ^ 512 % Config.p :=
  (toValue_toNat (by decide)).trans r2p_eq.symm

theorem r2n_value_toNat : RomConst.r2n.value.toNat = 2 ^ 512 % Config.n :=
  (toValue_toNat (by decide)).trans r2n_eq.symm

/-- Settles O11: each offset belongs to one place of the map, and a read of that place is known. The numbers are those of
Config (log 12). -/
theorem readsFollowTheAddressMap : Obligations.ReadsFollowTheAddressMap := by
  unfold Obligations.ReadsFollowTheAddressMap
  intro s a
  refine ⟨fun h => ?_, fun h => ?_, fun h => ?_, fun h => ?_,
    fun h => busRead_reserved s (locate_reserved a (.inl h)), fun i w h => ?_, fun w => ?_,
    fun h => busRead_reserved s (locate_reserved a (.inr h))⟩
  · rw [show a = idAddr from addr_of_offset 0 (by decide) h]; rfl
  · rw [show a = ctrlAddr from addr_of_offset 1 (by decide) h, busRead_ctrl]
  · rw [show a = statusAddr from addr_of_offset 2 (by decide) h, busRead_status]
  · rw [show a = cmdAddr from addr_of_offset 3 (by decide) h, busRead_cmd]
  · rw [dataAddr_of_offset h, busRead_data, getWord_toNat]
  · exact ⟨busRead_rom_toNat (c := .p) (toValue_toNat p_lt), busRead_rom_toNat (c := .n) (toValue_toNat n_lt),
      busRead_rom_toNat (c := .gx) (toValue_toNat (by decide)), busRead_rom_toNat (c := .gy) (toValue_toNat (by decide)),
      busRead_rom_toNat r2p_value_toNat, busRead_rom_toNat r2n_value_toNat⟩

/-! ### Reserved offsets, ID and the ROM ignore writes (R57) -/

theorem busWrite_id (v : Word) (s : State) : busWrite idAddr v s = s := rfl

theorem busWrite_rom (c : RomConst) (w : WordIndex) (v : Word) (s : State) : busWrite (romAddr c w) v s = s := by
  simp [busWrite]

theorem busWrite_reserved {a : WordAddr} (h : locate a = .reserved) (v : Word) (s : State) : busWrite a v s = s := by
  simp [busWrite, h]

/-- Every place of the ROM holds a constant (10_state.md R27). -/
theorem exists_romConst_index : ∀ k : Fin 6, ∃ c : RomConst, c.index = k
  | 0 => ⟨.p, rfl⟩
  | 1 => ⟨.n, rfl⟩
  | 2 => ⟨.gx, rfl⟩
  | 3 => ⟨.gy, rfl⟩
  | 4 => ⟨.r2p, rfl⟩
  | 5 => ⟨.r2n, rfl⟩

/-- The offsets of the ROM are those of the words of its constants (20_memory.md R51). -/
theorem exists_romAddr_of_offset {a : WordAddr} (h : 0x200 ≤ (byteOffset a).toNat ∧ (byteOffset a).toNat ≤ 0x2BC) :
    ∃ c w, a = romAddr c w := by
  rw [byteOffset_toNat] at h
  obtain ⟨c, hc⟩ := exists_romConst_index ⟨(a.toNat - 0x80) / 8, by omega⟩
  refine ⟨c, ⟨a.toNat % 8, by omega⟩, romAddr_of_offset ?_⟩
  rw [byteOffset_toNat, hc]
  dsimp only
  omega

/-- Settles O15: the place of each offset, and a step that takes a bus transaction answers a next state. -/
theorem reservedAndConstantOffsetsIgnoreWrites : Obligations.ReservedAndConstantOffsetsIgnoreWrites := by
  unfold Obligations.ReservedAndConstantOffsetsIgnoreWrites
  refine ⟨fun s a h => ?_, fun s a h v => ?_, fun s e rest hbus he => ?_⟩
  · have hl := locate_reserved a h
    exact ⟨busRead_reserved s hl, fun v => busWrite_reserved hl v s⟩
  · rcases h with h | h
    · rw [show a = idAddr from addr_of_offset 0 (by decide) h, busWrite_id]
    · obtain ⟨c, w, rfl⟩ := exists_romAddr_of_offset h
      exact busWrite_rom c w v s
  · cases e with
    | read a => exact ⟨_, step_read he⟩
    | write a v => exact ⟨_, step_write he⟩
    | engine | rst | powerCycle => simp [Event.isBus] at hbus

/-! ### While busy (R58) -/

/-- `s` with another value of the BUSY bit. -/
def State.withBusy (s : State) (b : Bool) : State := { s with status := { s.status with busy := b } }

/-- The places whose behaviour R58 says does not depend on BUSY. -/
def IgnoresBusy (a : WordAddr) : Prop := a = idAddr ∨ a = ctrlAddr ∨ a = statusAddr ∨ ∃ c w, a = romAddr c w

theorem busWrite_withBusy {a : WordAddr} {v : Word} (ha : IgnoresBusy a) (hz : a = ctrlAddr → v.getLsbD 1 = false)
    (s : State) (b : Bool) : busWrite a v (s.withBusy b) = (busWrite a v s).withBusy b := by
  rcases ha with rfl | rfl | rfl | ⟨c, w, rfl⟩
  · rw [busWrite_id, busWrite_id]
  · rw [busWrite_ctrl, busWrite_ctrl, writeCtrl_plain _ (hz rfl), writeCtrl_plain _ (hz rfl)]; rfl
  · rw [busWrite_status, busWrite_status]; rfl
  · rw [busWrite_rom, busWrite_rom]

/-- A read of STATUS shows BUSY itself; the other places do not. -/
theorem busRead_withBusy {a : WordAddr} (ha : IgnoresBusy a) (hne : a ≠ statusAddr) (s : State) (b : Bool) :
    busRead (s.withBusy b) a = busRead s a := by
  rcases ha with rfl | rfl | rfl | ⟨c, w, rfl⟩
  · rw [busRead_id, busRead_id]
  · rw [busRead_ctrl, busRead_ctrl]; rfl
  · exact absurd rfl hne
  · rw [busRead_rom, busRead_rom]

/-- Settles O16: the invariant makes D the snapshot; of ID, CTRL without ZEROIZE, STATUS and the ROM none tests BUSY. -/
theorem busyBlockKeepsItsDataRegisters : Obligations.BusyBlockKeepsItsDataRegisters := by
  unfold Obligations.BusyBlockKeepsItsDataRegisters
  refine ⟨fun s hi hb => ⟨fun i w => ?_, fun i w v => ?_⟩, fun s a v b ha hz => ⟨?_, fun hne => ?_, ?_⟩⟩
  · rw [busRead_data, hi.snap_eq (hi.busy_iff.1 hb)]
  · rw [busWrite_data, writeData_busy s hb]; rfl
  · exact busWrite_withBusy ha hz s b
  · exact busRead_withBusy ha hne s b
  · exact s.status.word_above_busy b

/-! ### No state with the invariant stops (R57, 60_exceptions.md R190) -/

/-- The engine's turn in a state with the invariant finds a word that decodes: the fault of log 10 is out of reach. -/
theorem Inv.engineTurn_next {s : State} (hi : Inv s) (rest : List Event) :
    ∃ t, engineTurn (s.afterInput rest) = .next t := by
  rcases engineTurn_cases (s.afterInput rest) with ⟨-, h⟩ | ⟨-, i, -, h⟩ | ⟨he, hillegal, -⟩
  · exact ⟨_, h⟩
  · exact ⟨_, h⟩
  · have hlegal : legal s.pending = true := hi.pending_legal ((engineEnabled_iff _).1 he).2
    exact absurd (hlegal.symm.trans hillegal) (by decide)

/-- Settles O54: taking an input always answers, and so does the engine's turn under the invariant. -/
theorem invariantStatesNeverStop : Obligations.InvariantStatesNeverStop := by
  unfold Obligations.InvariantStatesNeverStop
  intro s hi
  rcases step_cases s with ⟨rest, -, hs⟩ | ⟨e, rest, -, -, hs⟩
  · obtain ⟨t, ht⟩ := hi.engineTurn_next rest
    exact ⟨t, hs.trans ht⟩
  · exact ⟨_, hs⟩

end Sys2Proof.Machine
end

section
/-! The encoding (30_encoding.md R70 to R76): decoder and encoder are inverse to each other on well-formed commands and
legal words, and legality by rows of the table is legality by the defects the rule lists. -/

namespace Sys2Proof

/-! ### Decoder and encoder -/

/-- Settles O7: the word of a well-formed command matches the command's own row, which rebuilds the command. -/
theorem decodeOfEncodeIsTheCommand : Obligations.DecodeOfEncodeIsTheCommand := by
  unfold Obligations.DecodeOfEncodeIsTheCommand
  intro i hwf
  exact Machine.decode_encode hwf

/-- Settles O8: a word that decodes matches a row, and the command that row builds has the word as its encoding. -/
theorem encodeOfDecodeIsTheWord : Obligations.EncodeOfDecodeIsTheWord := by
  unfold Obligations.EncodeOfDecodeIsTheWord
  intro w i hd
  obtain ⟨o, hmatch, rfl⟩ := decode_ok hd
  exact encode_build o w ((matchesWord_iff o w).1 hmatch)

/-- Settles O9: rows are disjoint, so a matching row is the only one and the one the decoder finds. -/
theorem legalWordMatchesExactlyOneRow : Obligations.LegalWordMatchesExactlyOneRow := by
  unfold Obligations.LegalWordMatchesExactlyOneRow
  refine ⟨fun w => ⟨fun hl => ?_, fun ⟨o, ho, _⟩ => ?_⟩, fun w o => decode_of_row, fun w => ?_⟩
  · obtain ⟨o, ho⟩ := (legal_iff_row w).1 hl
    exact ⟨o, ho, fun o' ho' => row_unique ho' ho⟩
  · exact (legal_iff_row w).2 ⟨o, ho⟩
  · exact (decode_isOk_iff_legal w).symm

/-- Settles O6: each word is the one the encoder gives for the command named. -/
theorem specWordsDecodeToTheirCommands : Obligations.SpecWordsDecodeToTheirCommands := by
  unfold Obligations.SpecWordsDecodeToTheirCommands
  have hword : ∀ {w : Word} (i : Instr), i.wf = true → encode i = w → decode w = .ok i :=
    fun i hwf he => he ▸ Machine.decode_encode hwf
  and_intros <;> exact hword _ rfl rfl

/-! ### Legality by the list of defects (R75) -/

/-- The legal words are the words of the well-formed commands. -/
theorem legal_iff_encode (w : Word) : legal w = true ↔ ∃ i : Instr, i.wf = true ∧ encode i = w := by
  refine ⟨fun hl => ?_, fun ⟨i, hwf, he⟩ => he ▸ legal_encode hwf⟩
  obtain ⟨o, ho⟩ := (legal_iff_row w).1 hl
  exact ⟨o.build w, encode_build o w ho⟩

theorem Reg.isPair_iff (r : Reg) : r.isPair = true ↔ r.val % 2 = 0 := by simp [Reg.isPair]

/-- The reserved bits are all 0 when the word is 0 under their mask. -/
theorem reserved_and_eq_zero_iff (w : Word) : w &&& 0x00888C00#32 = 0#32 ↔
    w.getLsbD 10 = false ∧ w.getLsbD 11 = false ∧ w.getLsbD 15 = false ∧ w.getLsbD 19 = false ∧
      w.getLsbD 23 = false := by
  constructor
  · intro h
    have hbit : ∀ k, (0x00888C00#32).getLsbD k = true → w.getLsbD k = false := fun k hk => by
      rw [bit_of_row h k hk, BitVec.getLsbD_zero]
    exact ⟨hbit 10 rfl, hbit 11 rfl, hbit 15 rfl, hbit 19 rfl, hbit 23 rfl⟩
  · rintro ⟨h10, h11, h15, h19, h23⟩
    refine BitVec.eq_of_getLsbD_eq fun k hk => ?_
    have hmask : ∀ k < 32, (0x00888C00#32).getLsbD k = true →
        k = 10 ∨ k = 11 ∨ k = 15 ∨ k = 19 ∨ k = 23 := by decide
    rw [BitVec.getLsbD_and, BitVec.getLsbD_zero, Bool.and_eq_false_iff]
    cases hm : (0x00888C00#32).getLsbD k with
    | false => exact .inr rfl
    | true => rcases hmask k hk hm with rfl | rfl | rfl | rfl | rfl <;> exact .inl ‹_›

/-- The reserved bits of a legal word are 0: every row's mask covers them. -/
theorem reserved_of_row {o : Op} {w : Word} (h : w &&& o.mask = o.pattern) : w &&& 0x00888C00#32 = 0#32 :=
  low_and h (by cases o <;> rfl) (by cases o <;> rfl)

/-- None of the defects of 30_encoding.md R75 is found in the word. -/
structure NoDefect (w : Word) : Prop where
  opcode_assigned : opcOf w ∈ opcodes
  reserved_zero : w &&& 0x00888C00#32 = 0#32
  modulusBit : mBitOf w = true → opcOf w ≠ 0x16#8 ∧ opcOf w < 0x20#8
  generatorBit : gBitOf w = true → opcOf w = 0x23#8 ∧ rs1Of w = 0
  rd_isPair : opcOf w ∈ [0x20#8, 0x21#8, 0x22#8, 0x23#8, 0x24#8] → (rdOf w).isPair = true
  rs1_isPair : opcOf w ∈ [0x20#8, 0x21#8, 0x22#8, 0x23#8] → (rs1Of w).isPair = true
  rs2_isPair : opcOf w = 0x21#8 → (rs2Of w).isPair = true
  rs2_unused : opcOf w ∈ [0x15#8, 0x16#8, 0x20#8, 0x22#8, 0x24#8] → rs2Of w = 0
  fields_unused : opcOf w ∈ [0x30#8, 0x31#8] → rdOf w = 0 ∧ rs1Of w = 0 ∧ rs2Of w = 0
  imm8_unused : opcOf w ≠ 0x24#8 → imm8Of w = 0#8

/-- The fields of a well-formed command's word are the ones packed, and none of them is a defect. -/
theorem noDefect_encode {i : Instr} (hwf : i.wf = true) : NoDefect (encode i) := by
  have hres : encode i &&& 0x00888C00#32 = 0#32 := reserved_of_row (op_matches_encode hwf)
  cases i with
  | fadd | fsub | fmul | mmul | fpow | finv | fsqrt | sign | verify =>
    constructor <;> simp [encode, opcodes]
    exact hres
  | pdbl | padd | pneg | pmul | pdec =>
    simp only [Instr.wf, Bool.and_eq_true] at hwf
    constructor <;> simp [encode, opcodes, hwf]
    exact hres
  | pmulG =>
    constructor <;> simp [encode, opcodes]
    · exact hres
    · exact hwf
    · rfl

/-- Every assigned opcode has a row with G = 0. -/
theorem exists_row_of_opcode : ∀ opc ∈ opcodes, ∃ o ∈ Op.all,
    o.pattern.extractLsb' 0 8 = opc ∧ o.pattern.getLsbD 9 = false := by
  decide

/-- A word without a defect has the opcode and the bit G of some row. -/
theorem NoDefect.exists_row {w : Word} (h : NoDefect w) :
    ∃ o : Op, opcOf w = o.pattern.extractLsb' 0 8 ∧ gBitOf w = o.pattern.getLsbD 9 := by
  cases hg : gBitOf w with
  | true => exact ⟨.pmulG, (h.generatorBit hg).1, rfl⟩
  | false =>
    obtain ⟨o, -, hopc, ho⟩ := exists_row_of_opcode _ h.opcode_assigned
    exact ⟨o, hopc.symm, ho.symm⟩

/-- A row with the opcode and the bit G of a word without a defect builds a well-formed command with that word. -/
theorem NoDefect.encode_build {w : Word} (h : NoDefect w) {o : Op} (hopc : opcOf w = o.pattern.extractLsb' 0 8)
    (hg : gBitOf w = o.pattern.getLsbD 9) : (o.build w).wf = true ∧ encode (o.build w) = w := by
  have hp := packWord_fields w h.reserved_zero
  have hm : ¬(opcOf w ≠ 0x16#8 ∧ opcOf w < 0x20#8) → mBitOf w = false := fun hn =>
    Bool.eq_false_iff.2 (mt h.modulusBit hn)
  rw [hg, hopc] at hp
  have hi := h.imm8_unused
  have h2 := h.rs2_unused
  have hu := h.fields_unused
  have pd := h.rd_isPair
  have p1 := h.rs1_isPair
  have p2 := h.rs2_isPair
  rw [hopc] at hm hi h2 hu pd p1 p2
  cases o with
  | fadd | fsub | fmul | mmul | fpow =>
    rw [hi (by decide)] at hp
    exact ⟨rfl, by rw [Op.build, encode, modOf_bit]; exact hp⟩
  | finv =>
    rw [hi (by decide), h2 (by decide)] at hp
    exact ⟨rfl, by rw [Op.build, encode, modOf_bit]; exact hp⟩
  | fsqrt =>
    rw [hi (by decide), h2 (by decide), hm (by decide)] at hp
    exact ⟨rfl, hp⟩
  | pdbl | pneg =>
    rw [hi (by decide), h2 (by decide), hm (by decide)] at hp
    exact ⟨by simp [Op.build, Instr.wf, pd (by decide), p1 (by decide)], hp⟩
  | padd =>
    rw [hi (by decide), hm (by decide)] at hp
    exact ⟨by simp [Op.build, Instr.wf, pd (by decide), p1 (by decide), p2 (by decide)], hp⟩
  | pmul =>
    rw [hi (by decide), hm (by decide)] at hp
    exact ⟨by simp [Op.build, Instr.wf, pd (by decide), p1 (by decide)], hp⟩
  | pmulG =>
    rw [hi (by decide), hm (by decide), (h.generatorBit hg).2] at hp
    exact ⟨pd (by decide), hp⟩
  | pdec =>
    rw [h2 (by decide), hm (by decide)] at hp
    exact ⟨pd (by decide), hp⟩
  | sign | verify =>
    obtain ⟨hd, h1, h2⟩ := hu (by decide)
    rw [hi (by decide), hm (by decide), hd, h1, h2] at hp
    exact ⟨rfl, hp⟩

/-- The legal words are the words without a defect (30_encoding.md R75). -/
theorem legal_iff_noDefect (w : Word) : legal w = true ↔ NoDefect w := by
  rw [legal_iff_encode]
  constructor
  · rintro ⟨i, hwf, rfl⟩
    exact noDefect_encode hwf
  · intro h
    obtain ⟨o, hopc, hg⟩ := h.exists_row
    exact ⟨o.build w, h.encode_build hopc hg⟩

/-- Settles O10: the legal words are the words of the well-formed commands, and these are the words without a defect. -/
theorem illegalWordsAreThoseTheRuleLists : Obligations.IllegalWordsAreThoseTheRuleLists := by
  unfold Obligations.IllegalWordsAreThoseTheRuleLists
  intro w
  simp only [← reserved_and_eq_zero_iff, ← Reg.isPair_iff]
  rw [legal_iff_noDefect]
  exact ⟨fun ⟨hopc, hres, hm, hg, hd, h1, h2, hu2, hu, hi⟩ => ⟨hopc, hres, hm, hg, hd, h1, h2, hu2, hu, hi⟩,
    fun ⟨hopc, hres, hm, hg, hd, h1, h2, hu2, hu, hi⟩ => ⟨hopc, hres, hm, hg, hd, h1, h2, hu2, hu, hi⟩⟩

end Sys2Proof
end

section
/-! The programs of the host (30_encoding.md R78): LD256 and LDC as transactions, the reads of ST256, EXEC with its
completion among the polls, and the loop of WAITDONE. -/

namespace Sys2Proof.Machine

/-! ### LD256 and LDC -/

/-- All eight words of `v` put into D[i] make D[i] = v. -/
theorem loaded_wordIndices (s : State) (i : Reg) (v : Value) (rest : List Event) :
    loaded s i v wordIndices rest = { s with d := writeReg s.d i v, events := rest, rdata := none } := by
  rw [loaded, all_words]; rfl

/-- The eight writes of LD256 on an idle block. -/
theorem runs_ld256 {s : State} {i : Reg} {v : Value} {rest : List Event} (hr : s.rstN = true)
    (hb : s.status.busy = false) (he : s.events = ld256 i v ++ rest) :
    Runs 8 s { s with d := writeReg s.d i v, events := rest, rdata := none } :=
  loaded_wordIndices s i v rest ▸ load_words i v rest wordIndices s hr hb he

/-- Settles O57: each program is the writes of all eight words, LDC's after the read of each. -/
theorem loadProgramsFillOneRegister : Obligations.LoadProgramsFillOneRegister := by
  unfold Obligations.LoadProgramsFillOneRegister
  intro s i rest hr hb
  exact ⟨fun v he => runs_ld256 hr hb he, fun c he =>
    loaded_wordIndices s i c.value rest ▸ ldc_words i c rest wordIndices s hr hb he⟩

/-! ### ST256 -/

/-- After reads of the addresses `as` and one more, the read data is the word at the last address, and nothing else has
changed (20_memory.md R56). -/
theorem runs_reads (as : List WordAddr) (a : WordAddr) (rest : List Event) : ∀ s : State, s.rstN = true →
    s.events = as.map Event.read ++ .read a :: rest →
    Runs (as.length + 1) s { s with events := rest, rdata := some (busRead s a) } := by
  induction as with
  | nil =>
    intro s hr he
    exact (Runs_succ (step_read_taken hr he)).2 ((Runs_zero _ _).2 rfl)
  | cons b as ih =>
    intro s hr he
    rw [List.length_cons, Runs_succ (step_read_taken hr he)]
    have hrun := ih { s with events := as.map Event.read ++ .read a :: rest, rdata := some (busRead s b) } hr rfl
    rwa [busRead_inputs] at hrun

/-- The reads of ST256 up to and with that of word `w`, and those after it. -/
theorem st256_split (i : Reg) (w : WordIndex) : st256 i =
    ((wordIndices.take w.val).map (dataAddr i)).map Event.read ++
      .read (dataAddr i w) :: ((wordIndices.drop (w.val + 1)).map (dataAddr i)).map Event.read := by
  have hw : ∀ w : WordIndex, wordIndices = wordIndices.take w.val ++ w :: wordIndices.drop (w.val + 1) := by decide
  conv_lhs => rw [st256, hw w]
  simp [Function.comp_def]

theorem runs_st256 {s : State} {i : Reg} {rest : List Event} (hr : s.rstN = true) (he : s.events = st256 i ++ rest)
    (w : WordIndex) : ∃ ev, Runs (w.val + 1) s { s with events := ev, rdata := some (getWord (readReg s.d i) w) } := by
  rw [st256_split i w, List.append_assoc, List.cons_append] at he
  have hrun := runs_reads _ _ _ s hr he
  have hlen : wordIndices.length = 8 := rfl
  rw [busRead_data, List.length_map, List.length_take, hlen, Nat.min_eq_left (by omega)] at hrun
  exact ⟨_, hrun⟩

/-- LDC by the host puts the constant into D[i] of an idle block. -/
theorem loadConst_eq {s : State} (i : Reg) (c : RomConst) (hr : s.rstN = true) (hb : s.status.busy = false) :
    loadConst i c s = some { s with d := writeReg s.d i c.value, rdata := none } := by
  rw [loadConst, copyWords_eq i c wordIndices s hr hb, loaded_wordIndices]

/-- Settles O59: the words read are those of D[i], and a value is its words joined; LDC writes the words it reads. -/
theorem storeProgramsReturnTheRegister : Obligations.StoreProgramsReturnTheRegister := by
  unfold Obligations.StoreProgramsReturnTheRegister
  refine ⟨fun s i hr => ?_, fun s i rest hr he w => ?_, fun s i v rest hr hb he => ?_,
    fun s i c hr hb => loadConst_eq i c hr hb⟩
  · obtain ⟨rd, h⟩ := store256_eq i hr
    exact ⟨_, h, rfl⟩
  · obtain ⟨ev, hrun⟩ := runs_st256 hr he w
    exact ⟨_, hrun, rfl, rfl⟩
  · have hload := runs_ld256 hr hb he
    obtain ⟨rd, h⟩ := store256_eq (s := { s with d := writeReg s.d i v, events := rest, rdata := none }) i hr
    rw [readReg_writeReg_same] at h
    exact ⟨_, _, hload, h⟩

/-! ### EXEC -/

/-- `s` with the command `i` running on its registers (10_state.md R26), these inputs to come and this read data. -/
def State.running (s : State) (i : Instr) (ev : List Event) (rd : Option Word) : State :=
  { s with cmd := encode i, status := s.status.accepted.started, phase := .running, pending := encode i, snap := s.d,
           events := ev, rdata := rd }

/-- What the command `i` makes of `s` when it completes on the registers of `s` (60_exceptions.md R193). -/
def State.completed (s : State) (i : Instr) (ev : List Event) (rd : Option Word) : State :=
  commit (execResult i s.d) (s.running i ev rd)

theorem exec_running (s : State) (i : Instr) (ev : List Event) (rd : Option Word) :
    exec i (s.running i ev rd) = .next (s.completed i ev rd) := exec_eq_commit i _

/-- A completion looks at no input still to come and at no read data. -/
theorem completed_inputs (s : State) (i : Instr) (ev ev' : List Event) (rd rd' : Option Word) :
    { s.completed i ev rd with events := ev', rdata := rd' } = s.completed i ev' rd' := by
  rw [State.completed, State.completed]
  cases execResult i s.d <;> rfl

theorem completed_rdata (s : State) (i : Instr) (ev : List Event) (rd : Option Word) :
    (s.completed i ev rd).rdata = rd := commit_rdata _ _

theorem completed_rstN {s : State} (hr : s.rstN = true) (i : Instr) (ev : List Event) (rd : Option Word) :
    (s.completed i ev rd).rstN = true := (commit_rstN _ _).trans hr

theorem completed_done (s : State) (i : Instr) (ev : List Event) (rd : Option Word) :
    (s.completed i ev rd).status.done = true := commit_done _ _

theorem completed_status (s : State) (i : Instr) (ev ev' : List Event) (rd rd' : Option Word) :
    (s.completed i ev rd).status = (s.completed i ev' rd').status := by rw [← completed_inputs s i ev ev' rd rd']

theorem completed_d (s : State) (i : Instr) (ev ev' : List Event) (rd rd' : Option Word) :
    (s.completed i ev rd).d = (s.completed i ev' rd').d := by rw [← completed_inputs s i ev ev' rd rd']

theorem completed_busRead (s : State) (i : Instr) (a : WordAddr) (ev ev' : List Event) (rd rd' : Option Word) :
    busRead (s.completed i ev rd) a = busRead (s.completed i ev' rd') a := by
  have hsame := busRead_inputs (s.completed i ev rd) ev' rd' a
  rw [← hsame, completed_inputs]

/-- A read after the completion returns the word as the completion left it. -/
theorem step_completed_read {s : State} (hr : s.rstN = true) (i : Instr) (a : WordAddr) (ev ev' : List Event)
    (rd rd' : Option Word) :
    step (s.completed i (.read a :: ev) rd) = .next (s.completed i ev (some (busRead (s.completed i ev' rd') a))) := by
  have hread := step_read_taken (completed_rstN hr i (.read a :: ev) rd) (commit_events _ _)
  rwa [completed_inputs, completed_busRead s i a _ ev' _ rd'] at hread

/-- The write of the command word to an idle block starts the command. -/
theorem step_accept {s : State} {i : Instr} {ev : List Event} (hwf : i.wf = true) (hr : s.rstN = true)
    (hb : s.status.busy = false) (he : s.events = .write cmdAddr (encode i) :: ev) :
    step s = .next (s.running i ev none) := by
  rw [step_write_taken hr he, busWrite_cmd, acceptCommand_legal (s.afterInput ev) hb (legal_encode hwf)]
  rfl

/-- The step that completes the command: the engine's turn, or the step after the last input (60_exceptions.md R193). -/
theorem step_complete {s : State} {i : Instr} (hwf : i.wf = true) (hr : s.rstN = true) {ev : List Event}
    (rd : Option Word) (he : ev = [] ∨ ∃ rest, ev = .engine :: rest) :
    step (s.running i ev rd) = .next (s.completed i ev.tail none) := by
  have hturn : step (s.running i ev rd) = engineTurn (s.running i ev.tail none) := by
    rcases he with rfl | ⟨rest, rfl⟩ <;> rfl
  have hexec := engineTurn_running (s := s.running i ev.tail none) hr rfl (decode_encode hwf)
  rw [hturn, hexec, exec_running]

/-- The transactions of `EXEC`, the completion among the polls, with the inputs after them. -/
theorem execCmd_append (i : Instr) (k : Nat) (ev : List Event) :
    execCmd i k ++ ev = .write cmdAddr (encode i) :: (polls k ++ .engine :: .read statusAddr :: ev) := by
  simp [execCmd, polls]

/-- The acceptance of a command and `k` polls after it. -/
theorem runs_accept_polls {s : State} {i : Instr} {k : Nat} {ev : List Event} (hwf : i.wf = true) (hr : s.rstN = true)
    (hb : s.status.busy = false) (he : s.events = .write cmdAddr (encode i) :: (polls k ++ ev)) :
    ∃ rd, Runs (k + 1) s (s.running i ev rd) := by
  obtain ⟨rd, hpolls⟩ := busy_poll (s := s.running i (polls k ++ ev) none) hr rfl
  exact ⟨rd, (Runs_succ (step_accept hwf hr hb he)).2 hpolls⟩

/-- One step more. -/
theorem Runs.step {k : Nat} {s t u : State} (h : Runs k s t) (ht : step t = .next u) : Runs (k + 1) s u :=
  Runs_add h ((Runs_succ ht).2 ((Runs_zero u u).2 rfl))

/-- Settles O58: acceptance and `k` polls, then the completion, the poll that sees it, and the read of a result. -/
theorem execProgramEndsWithDoneRead : Obligations.ExecProgramEndsWithDoneRead := by
  unfold Obligations.ExecProgramEndsWithDoneRead
  intro s i k r w rest hwf hr hb he
  rw [execCmd_append] at he
  obtain ⟨rd, hrun⟩ := runs_accept_polls hwf hr hb he
  have hcomplete := step_complete hwf hr rd (.inr ⟨.read statusAddr :: .read (dataAddr r w) :: rest, rfl⟩)
  have hread := fun a ev rd' => step_completed_read hr i a ev (.engine :: .read statusAddr :: .read (dataAddr r w) :: rest)
    rd' rd
  have hrun3 := (hrun.step hcomplete).step (hread statusAddr _ _)
  have hrun4 := hrun3.step (hread (dataAddr r w) _ _)
  rw [busRead_data] at hrun4
  exact ⟨_, _, _, _, hrun, rfl, rfl, exec_running s i _ rd, hrun3, completed_status .., completed_d .., completed_rdata ..,
    (Status.word_done _).trans (completed_done ..), hrun4, completed_rdata ..⟩

/-! ### WAITDONE -/

/-- A poll that reads DONE = 1 has read STATUS as it stands. -/
theorem poll_reads_done {s t : State} (h : transact (.read statusAddr) s = .next t) (hd : doneRead t.rdata = true) :
    t.rdata = some t.status.word ∧ t.status.word.getLsbD 1 = true := by
  rw [transact_read_eq, Host.Outcome.next.injEq] at h
  subst h
  cases hr : s.rstN with
  | true => simpa [hr, doneRead] using hd
  | false => simp [hr, doneRead] at hd

/-- WAITDONE is left by a poll that reads DONE = 1 (30_encoding.md R78). -/
theorem waitDone_left {gaps : List Nat} {s u : State} (h : waitDone gaps s = .left u) :
    u.rdata = some u.status.word ∧ u.status.word.getLsbD 1 = true := by
  induction gaps generalizing s with
  | nil => simp [waitDone] at h
  | cons gap gaps ih =>
    rw [waitDone] at h
    split at h
    · simp at h
    · simp at h
    next t ht =>
      split at h
      · simp at h
      · simp at h
      next v hpoll =>
        split at h
        · next hd =>
          obtain rfl : v = u := Wait.left.inj h
          exact poll_reads_done hpoll hd
        · exact ih h

/-- The host's write of a command word to an idle block starts the command. -/
theorem transact_accept {s : State} {i : Instr} (hwf : i.wf = true) (hr : s.rstN = true) (hb : s.status.busy = false) :
    transact (.write cmdAddr (encode i)) s = .next (s.running i s.events none) :=
  step_accept (s := { s with events := .write cmdAddr (encode i) :: s.events }) hwf hr hb rfl

/-- `EXEC` on an idle block: the command runs while the host polls (30_encoding.md R78). -/
theorem execHost_eq {s : State} {i : Instr} (hwf : i.wf = true) (hr : s.rstN = true) (hb : s.status.busy = false)
    (gaps : List Nat) : execHost i gaps s = waitDone gaps (s.running i s.events none) := by
  rw [execHost, transact_accept hwf hr hb]

/-- The first poll after the completion leaves the loop. -/
theorem waitDone_complete {s : State} {i : Instr} (hwf : i.wf = true) (hr : s.rstN = true) {ev : List Event}
    (rd : Option Word) (he : ev = [] ∨ ∃ rest, ev = .engine :: rest) (gaps : List Nat) :
    waitDone (1 :: gaps) (s.running i ev rd) = .left { s.completed i ev.tail none with
      rdata := some (s.completed i ev.tail none).status.word } := by
  rw [waitDone_step 0 gaps (step_complete hwf hr rd he), waitDone_poll gaps (completed_rstN hr ..), completed_done,
    if_pos rfl]

/-- Settles O60: the loop is left by a poll that reads DONE = 1; until then DONE reads 0 and the polls go on. -/
theorem waitdoneLoopsUntilDoneIsRead : Obligations.WaitdoneLoopsUntilDoneIsRead := by
  unfold Obligations.WaitdoneLoopsUntilDoneIsRead
  refine ⟨fun gaps s u h => ?_, fun s k hr hd => ?_, fun s i k more hwf hr hb he => ?_⟩
  · obtain ⟨hread, hdone⟩ := waitDone_left h
    exact ⟨hread, hdone, (Status.word_done _).symm.trans hdone⟩
  · obtain ⟨rd, h⟩ := waitDone_polls k [] hr hd
    rw [List.append_nil] at h
    exact ⟨_, h, rfl⟩
  · obtain ⟨rd, hloop⟩ := waitDone_polls (s := s.running i s.events none) k [] hr rfl
    obtain ⟨rd', hleft⟩ := waitDone_polls (s := s.running i s.events none) k (1 :: more) hr rfl
    rw [List.append_nil] at hloop
    refine ⟨_, _, _, transact_accept hwf hr hb, rfl, rfl, (execHost_eq hwf hr hb _).trans hloop, rfl,
      exec_running s i s.events.tail none, ?_⟩
    rw [execHost_eq hwf hr hb, hleft]
    exact waitDone_complete hwf hr rd' he more

end Sys2Proof.Machine
end

section
/-! Field arithmetic (40_field.md R100 to R109): a field command is one computation on reduced operands, whose value goes to
RD; then each command's arithmetic, and the statements O30 to O38. -/

namespace Sys2Proof.Machine

/-! ### A field command puts the value of its computation into RD -/

/-- The state after a command whose computation gives a scalar for `rd` or an error. -/
def scalarOutcome (s : State) (rd : Reg) (r : Except ErrCode Nat) : State :=
  match r with
  | .ok v => scalarState s rd v
  | .error c => errState s c

theorem exec_of_scalarResult {i : Instr} {rd : Reg} {r : Except ErrCode Nat} {s : State}
    (h : execResult i s.snap = scalarResult rd r) : exec i s = .next (scalarOutcome s rd r) := by
  rw [exec_eq_commit, h, commit_scalarResult]; rfl

section

variable (m : Modulus) (rd rs1 rs2 : Reg) (s : State)

theorem exec_fadd : exec (.fadd m rd rs1 rs2) s =
    .next (scalarState s rd (addMod (modulusOf m) (fieldOperand m s.snap rs1) (fieldOperand m s.snap rs2))) :=
  exec_of_scalarResult (r := .ok _) rfl

theorem exec_fsub : exec (.fsub m rd rs1 rs2) s =
    .next (scalarState s rd (subMod (modulusOf m) (fieldOperand m s.snap rs1) (fieldOperand m s.snap rs2))) :=
  exec_of_scalarResult (r := .ok _) rfl

theorem exec_fmul : exec (.fmul m rd rs1 rs2) s =
    .next (scalarState s rd (mulMod (modulusOf m) (fieldOperand m s.snap rs1) (fieldOperand m s.snap rs2))) :=
  exec_of_scalarResult (r := .ok _) rfl

theorem exec_mmul : exec (.mmul m rd rs1 rs2) s =
    .next (scalarState s rd (montMul (modulusOf m) (fieldOperand m s.snap rs1) (fieldOperand m s.snap rs2))) :=
  exec_of_scalarResult (r := .ok _) rfl

theorem exec_fpow : exec (.fpow m rd rs1 rs2) s =
    .next (scalarState s rd (fieldOperand m s.snap rs1 ^ rawOperand s.snap rs2 % modulusOf m)) := by
  rw [← powMod_eq _ _ (rawOperand_lt _ _)]
  exact exec_of_scalarResult (r := .ok _) rfl

theorem exec_finv : exec (.finv m rd rs1) s =
    .next (scalarOutcome s rd (finvF (modulusOf m) (fieldOperand m s.snap rs1))) :=
  exec_of_scalarResult rfl

theorem exec_fsqrt : exec (.fsqrt rd rs1) s = .next (scalarOutcome s rd (fsqrtF (fieldOperand .p s.snap rs1))) :=
  exec_of_scalarResult rfl

end

/-- A field operand is reduced on entry (40_field.md R100). -/
theorem fieldOperand_lt (m : Modulus) (snap : RegFile) (r : Reg) : fieldOperand m snap r < modulusOf m :=
  Nat.mod_lt _ (modulus_pos m)

theorem fieldOperand_modEq (m : Modulus) (snap : RegFile) (r : Reg) :
    fieldOperand m snap r ≡ rawOperand snap r [MOD modulusOf m] := Nat.mod_modEq _ _

/-! ### FADD, FSUB and FMUL -/

/-- Settles O30: the sum of two reduced operands, below 2m because each is below m. -/
theorem faddAddsModuloM : Obligations.FaddAddsModuloM := by
  unfold Obligations.FaddAddsModuloM
  refine ⟨fun w h => decode_of_row (o := .fadd) h, fun m rd rs1 rs2 s => ⟨?_, exec_fadd m rd rs1 rs2 s⟩,
    by decide, by decide⟩
  have h1 := fieldOperand_lt m s.snap rs1
  have h2 := fieldOperand_lt m s.snap rs2
  exact (Nat.add_lt_add h1 h2).trans_eq (Nat.two_mul _).symm

/-- Below zero the difference is corrected by one m (40_field.md R102). -/
theorem subMod_add_of_lt {m a b : Nat} (hab : a < b) (hb : b < m) : subMod m a b + b = a + m := by
  rw [subMod, Nat.mod_eq_of_lt hb, Nat.mod_eq_of_lt (by omega)]
  omega

theorem residue_zero (m : Nat) : residue 0 m = 0 := by simp [residue]

/-- Settles O31: the model's difference is the residue of the exact one, and a − a has residue 0. -/
theorem fsubSubtractsModuloM : Obligations.FsubSubtractsModuloM := by
  unfold Obligations.FsubSubtractsModuloM
  refine ⟨fun w h => decode_of_row (o := .fsub) h, ?_⟩
  intro m rd rs1 rs2 s a b
  have hexec : exec (.fsub m rd rs1 rs2) s = .next (scalarState s rd (residue ((a : Int) - b) (modulusOf m))) := by
    rw [subMod_eq_residue (modulus_pos m)]
    exact exec_fsub m rd rs1 rs2 s
  refine ⟨hexec, fun hab => ?_, fun hrs => ?_⟩
  · rw [subMod_eq_residue (modulus_pos m)]
    exact subMod_add_of_lt hab (fieldOperand_lt m s.snap rs2)
  · have hab : a = b := congrArg (fieldOperand m s.snap) hrs
    rw [hexec, hab, sub_self, residue_zero]

/-- Settles O32: the product is exact before its one reduction. -/
theorem fmulMultipliesModuloM : Obligations.FmulMultipliesModuloM := by
  unfold Obligations.FmulMultipliesModuloM
  exact ⟨fun w h => decode_of_row (o := .fmul) h, fun m rd rs1 rs2 s => exec_fmul m rd rs1 rs2 s, by decide, by decide⟩

/-! ### MMUL -/

/-- Settles O33: the Montgomery product has the defining property, and only it has. -/
theorem mmulGivesTheMontgomeryProduct : Obligations.MmulGivesTheMontgomeryProduct := by
  unfold Obligations.MmulGivesTheMontgomeryProduct
  refine ⟨fun w h => decode_of_row (o := .mmul) h, ?_⟩
  intro m rd rs1 rs2 s a b
  obtain ⟨hlt, hprod⟩ := montMul_spec m a b
  exact ⟨_, hlt, hprod, fun u hu h => (montMul_eq hu h).symm, exec_mmul m rd rs1 rs2 s⟩

/-- MMUL gives the residue of every v with v · 2^256 ≡ D[RS1] · D[RS2] (40_field.md R104). -/
theorem exec_mmul_of_modEq {m : Modulus} {rs1 rs2 : Reg} {s : State} {v : Nat} (rd : Reg)
    (h : v * 2 ^ 256 ≡ rawOperand s.snap rs1 * rawOperand s.snap rs2 [MOD modulusOf m]) :
    exec (.mmul m rd rs1 rs2) s = .next (scalarState s rd (v % modulusOf m)) := by
  have hops := (fieldOperand_modEq m s.snap rs1).mul (fieldOperand_modEq m s.snap rs2)
  have hv : v % modulusOf m * 2 ^ 256 ≡ v * 2 ^ 256 [MOD modulusOf m] := (Nat.mod_modEq _ _).mul_right _
  rw [exec_mmul, montMul_eq (Nat.mod_lt _ (modulus_pos m)) (hv.trans (h.trans hops.symm))]

theorem modEq_of_eq_mod {m u v : Nat} (h : u = v % m) : u ≡ v [MOD m] := by rw [h]; exact Nat.mod_modEq _ _

/-- R2P and R2N are the square of the radix in their field (10_state.md R27). -/
theorem radixConst_toNat (m : Modulus) : (radixConst m).value.toNat = 2 ^ 256 * 2 ^ 256 % modulusOf m := by
  rw [← pow_add]
  cases m with
  | p => rw [modulusOf, r2p_eq]; exact toValue_toNat (by decide)
  | n => rw [modulusOf, r2n_eq]; exact toValue_toNat (by decide)

/-- Settles O34: in each case the product of the operands is the claimed value times the radix. -/
theorem montgomeryDomainRoundTrip : Obligations.MontgomeryDomainRoundTrip := by
  unfold Obligations.MontgomeryDomainRoundTrip
  intro m rd rs r s x
  refine ⟨fun hx hr => exec_mmul_of_modEq rd ?_, fun hx hr => exec_mmul_of_modEq rd ?_,
    fun y hx hy => exec_mmul_of_modEq rd ?_⟩
  · have hconst : rawOperand s.snap r ≡ 2 ^ 256 * 2 ^ 256 [MOD modulusOf m] := by
      rw [rawOperand, hr]; exact modEq_of_eq_mod (radixConst_toNat m)
    have hprod : rawOperand s.snap rs * rawOperand s.snap r ≡ x * (2 ^ 256 * 2 ^ 256) [MOD modulusOf m] :=
      Nat.ModEq.mul hx hconst
    rw [mul_assoc]
    exact hprod.symm
  · have hone : rawOperand s.snap r = 1 := by rw [rawOperand, hr]; rfl
    rw [hone, mul_one]
    exact (modEq_of_eq_mod hx).symm
  · have hprod := (modEq_of_eq_mod hx).mul (modEq_of_eq_mod hy)
    rw [show x * y * 2 ^ 256 * 2 ^ 256 = x * 2 ^ 256 * (y * 2 ^ 256) by ring]
    exact hprod.symm

/-! ### FPOW -/

/-- By Fermat an exponent may be reduced modulo m − 1 for a base that m does not divide. -/
theorem pow_mod_sub_one {m a : Nat} (hm : m.Prime) (ha : a.Coprime m) (e : Nat) :
    a ^ (e % (m - 1)) % m = a ^ e % m := by
  have hone : (a ^ (m - 1)) ^ (e / (m - 1)) ≡ 1 [MOD m] := by
    simpa only [one_pow] using (Nat.ModEq.pow_card_sub_one_eq_one hm ha).pow (e / (m - 1))
  have hsplit : a ^ e = a ^ (e % (m - 1)) * (a ^ (m - 1)) ^ (e / (m - 1)) := by
    rw [← pow_mul, ← pow_add, Nat.mod_add_div]
  rw [hsplit]
  exact ((hone.mul_left _).trans (by rw [mul_one])).symm

/-- Settles O35: the power itself by the loop's invariant; e = 0 and a = 0 by its value there, and the rest by Fermat. -/
theorem fpowRaisesToTheUnreducedExponent : Obligations.FpowRaisesToTheUnreducedExponent := by
  unfold Obligations.FpowRaisesToTheUnreducedExponent
  refine ⟨fun w h => decode_of_row (o := .fpow) h, ?_⟩
  intro m rd rs1 rs2 s a e
  have hexec : exec (.fpow m rd rs1 rs2) s = .next (scalarState s rd (a ^ e % modulusOf m)) :=
    exec_fpow m rd rs1 rs2 s
  refine ⟨hexec, fun he => ?_, fun ha he => ?_, fun ha => ?_⟩
  · rw [hexec, he, pow_zero, Nat.mod_eq_of_lt (one_lt_modulus m)]
  · rw [hexec, ha, zero_pow he, Nat.zero_mod]
  · rw [hexec, pow_mod_sub_one (modulus_prime m) (gcd_modulus ha (fieldOperand_lt m s.snap rs1))]

/-! ### FINV and FSQRT -/

/-- A reduced operand shares a factor with m only if it is 0 (40_field.md R106). -/
theorem gcd_modulus_ne_one_iff {m : Modulus} {a : Nat} (h : a < modulusOf m) : Nat.gcd a (modulusOf m) ≠ 1 ↔ a = 0 := by
  refine ⟨fun hg => by_contra fun h0 => hg (gcd_modulus h0 h), ?_⟩
  rintro rfl
  rw [Nat.gcd_zero_left]
  exact (one_lt_modulus m).ne'

theorem finvF_zero (m : Modulus) : finvF (modulusOf m) 0 = .error .notInvertible :=
  if_pos ((gcd_modulus_ne_one_iff (modulus_pos m)).2 rfl)

theorem finvF_of_ne_zero {m : Modulus} {a : Nat} (h0 : a ≠ 0) (h : a < modulusOf m) :
    finvF (modulusOf m) a = .ok (invMod (modulusOf m) a) :=
  if_neg (not_not.2 (gcd_modulus h0 h))

/-- Settles O36: an operand that is not 0 is invertible, and an inverse is unique because the operand can be cancelled. -/
theorem finvInvertsOrRaises : Obligations.FinvInvertsOrRaises := by
  unfold Obligations.FinvInvertsOrRaises
  refine ⟨fun w h => decode_of_row (o := .finv) h, ?_⟩
  intro m rd rs1 s a
  have halt : a < modulusOf m := fieldOperand_lt m s.snap rs1
  have hexec : exec (.finv m rd rs1) s = .next (scalarOutcome s rd (finvF (modulusOf m) a)) := exec_finv m rd rs1 s
  refine ⟨gcd_modulus_ne_one_iff halt, fun h0 => ?_, fun h0 => ?_⟩
  · rw [hexec, h0, finvF_zero]; rfl
  · have hg := gcd_modulus h0 halt
    have hlt := (invMod_spec (one_lt_modulus m) (modulus_lt m) hg).1
    have hinv := invMod_mul (one_lt_modulus m) (modulus_lt m) hg
    refine ⟨_, invMod_pos (one_lt_modulus m) (modulus_lt m) hg, hlt, hinv, fun u hu h => ?_, ?_⟩
    · refine mul_right_cancel_mod hg hu hlt ?_
      rw [mul_comm u, mul_comm (invMod _ _), h, hinv]
    · rw [hexec, finvF_of_ne_zero h0 halt]; rfl

/-- Settles O37: FSQRT_f tests its candidate, and by Euler's criterion the candidate is a root exactly when there is one. -/
theorem fsqrtFindsTheRootOrRaises : Obligations.FsqrtFindsTheRootOrRaises := by
  unfold Obligations.FsqrtFindsTheRootOrRaises
  refine ⟨fun w h => decode_of_row (o := .fsqrt) h, ?_⟩
  intro rd rs1 s e he a c
  have hexec : exec (.fsqrt rd rs1) s = .next (scalarOutcome s rd (fsqrtF a)) := exec_fsqrt rd rs1 s
  have hroot : c * c % Config.p = a → exec (.fsqrt rd rs1) s = .next (scalarState s rd c) := by
    intro h; rw [hexec, fsqrtF_eq he, if_pos h]; rfl
  refine ⟨hroot, fun h => ?_, sqrt_candidate he, fun h0 => ?_⟩
  · rw [hexec, fsqrtF_eq he, if_neg h]; rfl
  · have he0 : e ≠ 0 := by omega
    have hc : c = 0 := by
      show a ^ e % Config.p = 0
      rw [h0, zero_pow he0, Nat.zero_mod]
    rw [← hc]
    exact hroot (by rw [hc, h0, zero_mul, Nat.zero_mod])

/-! ### Results are canonical (40_field.md R108) -/

/-- Where FINV_f gives a value it is below the modulus. -/
theorem finvF_lt {m : Modulus} {a v : Nat} (h : a < modulusOf m) (hv : finvF (modulusOf m) a = .ok v) :
    v < modulusOf m := by
  rcases Nat.eq_zero_or_pos a with rfl | h0
  · rw [finvF_zero] at hv; cases hv
  · rw [finvF_of_ne_zero h0.ne' h] at hv
    cases hv
    exact (invMod_spec (one_lt_modulus m) (modulus_lt m) (gcd_modulus h0.ne' h)).1

/-- Where FSQRT_f gives a value it is below p. -/
theorem fsqrtF_lt {a v : Nat} (hv : fsqrtF a = .ok v) : v < Config.p := by
  obtain ⟨e, he⟩ : ∃ e, 4 * e = Config.p + 1 := ⟨(Config.p + 1) / 4, by decide⟩
  rw [fsqrtF_eq he] at hv
  split at hv
  · cases hv; exact Nat.mod_lt _ p_pos
  · cases hv

/-- `r` gives a value below the modulus or an error. -/
def CanonicalResult (m : Modulus) (r : Except ErrCode Nat) : Prop := ∀ v, r = .ok v → v < modulusOf m

theorem canonicalResult_ok {m : Modulus} {v : Nat} (h : v < modulusOf m) : CanonicalResult m (.ok v) := by
  rintro _ ⟨⟩; exact h

/-- From a STATUS without outcome, a computation with a canonical result sets DONE, and ERR only with an error. -/
theorem scalarOutcome_canonical {s t : State} {m : Modulus} {rd : Reg} {r : Except ErrCode Nat}
    (hs : s.status.noOutcome) (hr : CanonicalResult m r) (ht : t = scalarOutcome s rd r) :
    t.status.valid = false ∧ t.status.recid = 0#2 ∧ t.status.diag = 0#4 ∧ t.status.done = true ∧
      (t.status.err = false → (readReg t.d rd).toNat < modulusOf m ∧ t.status.errcode = 0#4) ∧
      (t.status.err = true → t.d = s.d) := by
  subst ht
  obtain ⟨-, herr, hvalid, hcode, hrecid, hdiag⟩ := hs
  cases r with
  | ok v =>
    have hread : readReg (scalarState s rd v).d rd = toValue v := readReg_writeReg_same _ _ _
    have hv := hr v rfl
    refine ⟨rfl, rfl, rfl, rfl, fun _ => ⟨?_, hcode⟩, fun h => absurd (herr.symm.trans h) Bool.false_ne_true⟩
    rw [scalarOutcome, hread, toValue_toNat (hv.trans (modulus_lt m))]
    exact hv
  | error c => exact ⟨hvalid, hrecid, hdiag, rfl, fun h => Bool.noConfusion h, fun _ => rfl⟩

/-- Settles O38: each of the seven commands is a computation with a canonical result, and its outcome shows no more. -/
theorem fieldResultsAreCanonical : Obligations.FieldResultsAreCanonical := by
  unfold Obligations.FieldResultsAreCanonical
  intro i s m rd hi hs
  obtain ⟨r, hexec, hr⟩ : ∃ r, exec i s = .next (scalarOutcome s rd r) ∧ CanonicalResult m r := by
    have hm := modulus_pos m
    obtain ⟨rs1, rs2, rfl | rfl | rfl | rfl | rfl | rfl | ⟨rfl, rfl⟩⟩ := hi
    · exact ⟨.ok _, exec_fadd .., canonicalResult_ok (addMod_lt hm _ _)⟩
    · exact ⟨.ok _, exec_fsub .., canonicalResult_ok (subMod_lt hm _ _)⟩
    · exact ⟨.ok _, exec_fmul .., canonicalResult_ok (mulMod_lt hm _ _)⟩
    · exact ⟨.ok _, exec_mmul .., canonicalResult_ok (montMul_spec m _ _).1⟩
    · exact ⟨.ok _, exec_fpow .., canonicalResult_ok (Nat.mod_lt _ hm)⟩
    · exact ⟨_, exec_finv .., fun v hv => finvF_lt (fieldOperand_lt m s.snap rs1) hv⟩
    · exact ⟨_, exec_fsqrt .., fun v hv => fsqrtF_lt hv⟩
  exact ⟨_, hexec, scalarOutcome_canonical hs hr rfl⟩

end Sys2Proof.Machine
end

section
/-! Curve commands (41_curve.md R130 to R135): a point command is one computation on reduced operands, whose point goes to
PAIR(RD); on the curve that computation is the group's (O43, O44); then its formulas on any points (O39 to O42). -/

namespace Sys2Proof.Machine

/-! ### A point command puts the point of its computation into PAIR(RD) -/

theorem exec_of_pointResult {i : Instr} {rd : Reg} {r : Except ErrCode Point} {s : State}
    (h : execResult i s.snap = pointResult rd r) : exec i s = .next (pointOutcome s rd r) := by
  rw [exec_eq_commit, h, commit_pointResult]; rfl

section

variable (rd rs1 rs2 : Reg) (s : State)

theorem exec_pdbl : exec (.pdbl rd rs1) s = .next (pointOutcome s rd (pdblF (pointOperand s.snap rs1))) :=
  exec_of_pointResult rfl

theorem exec_padd : exec (.padd rd rs1 rs2) s =
    .next (pointOutcome s rd (paddF (pointOperand s.snap rs1) (pointOperand s.snap rs2))) :=
  exec_of_pointResult rfl

theorem exec_pneg : exec (.pneg rd rs1) s = .next (pointState s rd (pnegF (pointOperand s.snap rs1))) :=
  exec_of_pointResult (r := .ok _) rfl

theorem exec_pmul : exec (.pmul rd rs1 rs2) s =
    .next (pointOutcome s rd (pmulF (rawOperand s.snap rs2) (pointOperand s.snap rs1))) :=
  exec_of_pointResult rfl

theorem exec_pmulG : exec (.pmulG rd rs2) s = .next (pointOutcome s rd (pmulF (rawOperand s.snap rs2) generator)) :=
  exec_of_pointResult rfl

end

/-- A point operand is reduced on entry (41_curve.md R130). -/
theorem pointOperand_canonical (snap : RegFile) (r : Reg) :
    (pointOperand snap r).x < Config.p ∧ (pointOperand snap r).y < Config.p :=
  ⟨Nat.mod_lt _ p_pos, Nat.mod_lt _ p_pos⟩

/-! ### On the curve: the group law and the multiples -/

/-- Settles O44: on points of the curve PDBL_f, PNEG_f and PADD_f are the group's operations. -/
theorem pointCommandsAreTheGroupLaw : Obligations.PointCommandsAreTheGroupLaw := by
  unfold Obligations.PointCommandsAreTheGroupLaw
  intro _ rd rs1 rs2 s P Q _ (hP : Rep (pointOperand s.snap rs1) P) (hQ : Rep (pointOperand s.snap rs2) Q)
  obtain ⟨dbl, hdbl, hdblRep⟩ := pdblF_rep hP
  obtain ⟨hinf, hsum⟩ := paddF_rep hP hQ
  refine ⟨⟨dbl, hdblRep, ?_⟩, ⟨_, pnegF_rep hP, exec_pneg rd rs1 s⟩, fun h => ?_, fun h => ?_⟩
  · rw [exec_pdbl, hdbl]; rfl
  · rw [exec_padd, hinf h]; rfl
  · obtain ⟨r, hr, hrep⟩ := hsum h
    refine ⟨r, hrep, ?_⟩
    rw [exec_padd, hr]; rfl

/-- Both forms of PMUL apply PMUL_f to D[RS2], the one to PAIR(RS1) and the other to the generator (41_curve.md R134). -/
theorem exec_pmul_form {i : Instr} {rd rs1 rs2 : Reg} {s : State} {q : Point}
    (h : i = .pmul rd rs1 rs2 ∧ q.x = (readReg s.snap rs1).toNat % Config.p ∧
        q.y = (readReg s.snap (rs1 + 1)).toNat % Config.p ∨
      i = .pmulG rd rs2 ∧ q.x = Config.gx ∧ q.y = Config.gy) :
    exec i s = .next (pointOutcome s rd (pmulF (rawOperand s.snap rs2) q)) := by
  obtain ⟨x, y⟩ := q
  rcases h with ⟨rfl, rfl, rfl⟩ | ⟨rfl, rfl, rfl⟩
  · exact exec_pmul rd rs1 rs2 s
  · exact exec_pmulG rd rs2 s

/-- Settles O43: the group has n elements, and n is its only nonzero multiple below 2^256, so the loop over a scalar meets
the point at infinity at the end and for n alone. -/
theorem pmulOnTheCurveIsTheGroupMultiple : Obligations.PmulOnTheCurveIsTheGroupMultiple := by
  unfold Obligations.PmulOnTheCurveIsTheGroupMultiple
  intro _
  refine ⟨fun P hP => addOrderOf_point hP, fun k h0 hk hd => multiple_of_n h0 hk hd, ?_⟩
  intro i rd rs1 rs2 s q _ hq hi k
  have hexec : exec i s = .next (pointOutcome s rd (pmulF k q)) := exec_pmul_form hi
  have hk : k < 2 ^ 256 := rawOperand_lt s.snap rs2
  obtain ⟨P, hP⟩ := exists_rep hq
  rcases pmulF_onCurve hP hk with ⟨h0, he⟩ | ⟨hn, he⟩ | ⟨h0, hn, r, hr, hrep⟩
  · refine ⟨fun _ => ?_, fun h => absurd (h0.symm.trans h) n_pos.ne, fun h => absurd h0 h⟩
    rw [hexec, he]; rfl
  · refine ⟨fun h => absurd (hn.symm.trans h) n_pos.ne', fun _ => ?_, fun _ h => absurd hn h⟩
    rw [hexec, he]; rfl
  · refine ⟨fun h => absurd h h0, fun h => absurd h hn, fun _ _ => ⟨P, r, hP, ?_, ?_⟩⟩
    · rw [mod_n_smul]; exact hrep
    · rw [hexec, hr]; rfl

/-! ### PDBL on any point -/

/-- A numerator times the inverse of its denominator is their quotient modulo p: the slope of R131 and R132. -/
theorem quotient_mul {d : Nat} (hd : Nat.gcd d Config.p = 1) (a : Nat) :
    a * invMod Config.p d % Config.p * d % Config.p = a % Config.p := by
  rw [Nat.mod_mul_mod, mul_assoc, mul_comm (invMod _ _), Nat.mul_mod, invMod_mul one_lt_p p_lt hd, mul_one, Nat.mod_mod]

theorem gcd_two_mul {y : Nat} (h0 : y ≠ 0) (hy : y < Config.p) : Nat.gcd (2 * y) Config.p = 1 :=
  Nat.Coprime.mul_left (by decide) (gcd_modulus (m := .p) h0 hy)

theorem pdblF_of_y_eq_zero {q : Point} (h : q.y = 0) : pdblF q = .error .unsupportedInfinity := if_pos h

/-- Off y = 0 doubling is the chord formula with the slope of the tangent (41_curve.md R131). -/
theorem pdblF_of_y_ne_zero {q : Point} (h0 : q.y ≠ 0) (hy : q.y < Config.p) :
    ∃ lam, lam < Config.p ∧ lam * (2 * q.y) % Config.p = (3 * q.x ^ 2 + Config.a) % Config.p ∧
      pdblF q = .ok (chord lam q q.x) := by
  refine ⟨_, Nat.mod_lt _ p_pos, ?_, if_neg h0⟩
  rw [quotient_mul (gcd_two_mul h0 hy), pow_two]

/-- Settles O39: the chord formula in integers, and no point of the curve has y = 0. -/
theorem pdblDoublesByTheFormula : Obligations.PdblDoublesByTheFormula := by
  unfold Obligations.PdblDoublesByTheFormula
  refine ⟨fun w h => decode_of_row (o := .pdbl) h, ?_⟩
  intro rd rs1 s _ x y
  have hexec : exec (.pdbl rd rs1) s = .next (pointOutcome s rd (pdblF { x := x, y := y })) := exec_pdbl rd rs1 s
  refine ⟨fun h0 => ?_, fun h0 => ?_, fun h => (root_of_onCurve h).2.2.2⟩
  · rw [hexec, pdblF_of_y_eq_zero h0]; rfl
  · obtain ⟨lam, hlam, hslope, hdbl⟩ := pdblF_of_y_ne_zero (q := ⟨x, y⟩) h0 (Nat.mod_lt _ p_pos)
    refine ⟨lam, hlam, hslope, ?_⟩
    rw [hexec, hdbl, chord_eq, two_mul, ← sub_sub]; rfl

/-! ### PADD on any points -/

theorem paddF_self (q : Point) : paddF q q = pdblF q := if_pos ⟨rfl, rfl⟩

theorem subMod_eq_zero_iff {a b : Nat} (ha : a < Config.p) (hb : b < Config.p) : subMod Config.p a b = 0 ↔ a = b := by
  have : Fact (Nat.Prime Config.p) := ⟨p_prime⟩
  rw [← cast_eq_zero (subMod_lt p_pos a b), subMod_cast p_pos, sub_eq_zero, cast_eq_iff ha hb]

/-- The guard of case 3 holds exactly for equal x (41_curve.md R132). -/
theorem gcd_subMod_ne_one_iff {a b : Nat} (ha : a < Config.p) (hb : b < Config.p) :
    Nat.gcd (subMod Config.p a b) Config.p ≠ 1 ↔ a = b :=
  (gcd_modulus_ne_one_iff (m := .p) (subMod_lt p_pos a b)).trans (subMod_eq_zero_iff ha hb)

/-- Two different points with one x raise, by case 2 or by case 3 (41_curve.md R132). -/
theorem paddF_of_x_eq {q1 q2 : Point} (h : q1.x < Config.p) (hx : q1.x = q2.x) (hy : q1.y ≠ q2.y) :
    paddF q1 q2 = .error .unsupportedInfinity := by
  rw [paddF, if_neg fun c => hy c.2]
  split
  · rfl
  · rw [if_pos ((gcd_subMod_ne_one_iff h (hx ▸ h)).2 hx)]

/-- Two points with different x add by the chord through them (41_curve.md R132). -/
theorem paddF_of_x_ne {q1 q2 : Point} (h1 : q1.x < Config.p) (h2 : q2.x < Config.p) (hx : q1.x ≠ q2.x) :
    ∃ lam, lam < Config.p ∧ lam * subMod Config.p q2.x q1.x % Config.p = subMod Config.p q2.y q1.y ∧
      paddF q1 q2 = .ok (chord lam q1 q2.x) := by
  have hgcd : ∀ {a b}, a < Config.p → b < Config.p → a ≠ b → Nat.gcd (subMod Config.p a b) Config.p = 1 :=
    fun ha hb hab => not_not.1 fun h => hab ((gcd_subMod_ne_one_iff ha hb).1 h)
  have hslope := (quotient_mul (hgcd h2 h1 hx.symm) (subMod Config.p q2.y q1.y)).trans
    (Nat.mod_eq_of_lt (subMod_lt p_pos _ _))
  refine ⟨_, Nat.mod_lt _ p_pos, hslope, ?_⟩
  rw [paddF, if_neg fun c => hx c.1, if_neg fun c => hx c.1, if_neg (not_not.2 (hgcd h1 h2 hx))]

/-- Two points of the curve with one x are equal or each other's negation. -/
theorem y_eq_or_add_eq_zero {q1 q2 : Point} (h1 : onCurve q1 = true) (h2 : onCurve q2 = true) (hx : q1.x = q2.x) :
    q1.y = q2.y ∨ (q1.y + q2.y) % Config.p = 0 := by
  have : Fact (Nat.Prime Config.p) := ⟨p_prime⟩
  obtain ⟨-, hy1, he1⟩ := (onCurve_iff q1).1 h1
  obtain ⟨-, hy2, he2⟩ := (onCurve_iff q2).1 h2
  refine (WeierstrassCurve.Affine.Y_eq_of_X_eq he1 he2 (by rw [hx])).imp (cast_eq_iff hy1 hy2).1 fun hneg => ?_
  rw [negY_secp, ← add_eq_zero_iff_eq_neg, ← Nat.cast_add, ZMod.natCast_eq_zero_iff] at hneg
  exact Nat.mod_eq_zero_of_dvd hneg

/-- A product with the model's difference has the residue of the product with the exact difference (41_curve.md R132). -/
theorem residue_mul_sub {lam a b v : Nat} (hv : v < Config.p) (h : lam * subMod Config.p a b % Config.p = v) :
    residue ((lam : Int) * ((a : Int) - b)) Config.p = v := by
  refine eq_residue p_pos hv ?_
  rw [← h, ZMod.natCast_mod, Nat.cast_mul, subMod_cast p_pos]
  push_cast
  rfl

/-- Settles O40: case 1 is doubling, cases 2 and 3 raise, and case 4 is the chord formula in integers. -/
theorem paddAddsByTheFourCases : Obligations.PaddAddsByTheFourCases := by
  unfold Obligations.PaddAddsByTheFourCases
  refine ⟨fun w h => decode_of_row (o := .padd) h, ?_⟩
  intro rd rs1 rs2 s _ x1 y1 x2 y2
  have hx1 : x1 < Config.p := Nat.mod_lt _ p_pos
  have hx2 : x2 < Config.p := Nat.mod_lt _ p_pos
  have hexec : exec (.padd rd rs1 rs2) s = .next (pointOutcome s rd (paddF { x := x1, y := y1 } { x := x2, y := y2 })) :=
    exec_padd rd rs1 rs2 s
  have hraise : x1 = x2 → y1 ≠ y2 → exec (.padd rd rs1 rs2) s = .next (errState s .unsupportedInfinity) := by
    intro hx hy
    rw [hexec, paddF_of_x_eq hx1 hx hy]; rfl
  refine ⟨?_, ?_, ?_, ?_, fun hx => ?_⟩
  · rintro ⟨hx, hy⟩
    rw [hexec, ← hx, ← hy, paddF_self]
    exact (exec_pdbl rd rs1 s).symm
  · rintro ⟨hx, hy, -⟩
    exact hraise hx hy
  · rw [subMod_eq_residue p_pos]
    exact gcd_subMod_ne_one_iff hx1 hx2
  · rintro ⟨hx, hy, hsum⟩
    exact ⟨hraise hx hy, fun ⟨h1, h2⟩ => (y_eq_or_add_eq_zero h1 h2 hx).elim hy hsum⟩
  · obtain ⟨lam, hlam, hslope, hadd⟩ := paddF_of_x_ne (q1 := ⟨x1, y1⟩) (q2 := ⟨x2, y2⟩) hx1 hx2 hx
    refine ⟨lam, hlam, ?_, ?_⟩
    · rw [subMod_eq_residue p_pos]
      exact residue_mul_sub (subMod_lt p_pos _ _) hslope
    · rw [hexec, hadd, chord_eq]; rfl

/-! ### PNEG -/

theorem pnegF_of_y_eq_zero {q : Point} (h : q.y = 0) : pnegF q = q := by
  obtain ⟨x, y⟩ := q
  obtain rfl : y = 0 := h
  rw [pnegF, Nat.sub_zero, Nat.mod_self]

/-- p is odd, so only y = 0 is its own negation. -/
theorem neg_y_ne {y : Nat} (h0 : y ≠ 0) (hy : y < Config.p) : y ≠ (Config.p - y) % Config.p := by
  have hodd : Config.p % 2 = 1 := by decide
  rw [Nat.mod_eq_of_lt (by omega)]
  omega

/-- A point and its negation have no affine sum, for y = 0 either (41_curve.md R133). -/
theorem paddF_pnegF {q : Point} (hx : q.x < Config.p) (hy : q.y < Config.p) :
    paddF q (pnegF q) = .error .unsupportedInfinity := by
  by_cases h0 : q.y = 0
  · rw [pnegF_of_y_eq_zero h0, paddF_self, pdblF_of_y_eq_zero h0]
  · exact paddF_of_x_eq hx rfl (neg_y_ne h0 hy)

/-- Settles O41: the pair that holds the negation is the operand PNEG_f gives. -/
theorem pnegNegates : Obligations.PnegNegates := by
  unfold Obligations.PnegNegates
  refine ⟨fun w h => decode_of_row (o := .pneg) h, ?_⟩
  intro rd rs1 s _ x y
  obtain ⟨hx, hy⟩ := pointOperand_canonical s.snap rs1
  refine ⟨exec_pneg rd rs1 s, fun h0 => ?_, fun rs2 _ hx2 hy2 => ?_⟩
  · have hself : pnegF { x := x, y := 0 } = { x := x, y := 0 } := pnegF_of_y_eq_zero rfl
    rw [← hself, ← h0]
    exact exec_pneg rd rs1 s
  · have hq2 : pointOperand s.snap rs2 = pnegF (pointOperand s.snap rs1) := congrArg₂ Point.mk hx2 hy2
    rw [exec_padd, hq2, paddF_pnegF hx hy]; rfl

/-! ### PMUL -/

theorem pmulF_zero (q : Point) : pmulF 0 q = .error .zeroScalar := if_pos rfl

theorem pmulF_of_ne_zero {k : Nat} (h0 : k ≠ 0) (q : Point) : pmulF k q = pmulLoop k q (Nat.log2 k) q := if_neg h0

theorem pmulF_one (q : Point) : pmulF 1 q = .ok q := by
  rw [pmulF_of_ne_zero one_ne_zero, show Nat.log2 1 = 0 by decide]; rfl

/-- One more bit of the scalar, a 0: one more doubling (41_curve.md R134). -/
theorem pmulF_two_mul {k : Nat} (h0 : k ≠ 0) (q : Point) : pmulF (2 * k) q = (pmulF k q).bind pdblF := by
  rw [pmulF_of_ne_zero h0, pmulF_of_ne_zero (by omega), (log2_double h0).1, pmulLoop_add]

/-- One more bit of the scalar, a 1: one more doubling and an addition (41_curve.md R134). -/
theorem pmulF_two_mul_add_one {k : Nat} (h0 : k ≠ 0) (q : Point) :
    pmulF (2 * k + 1) q = ((pmulF k q).bind pdblF).bind fun d => paddF d q := by
  rw [pmulF_of_ne_zero h0, pmulF_of_ne_zero (by omega), (log2_double h0).2, pmulLoop_add_one]

/-- Settles O42: the commands apply their functions to the operands, and PMUL_f takes one step per bit of the scalar. -/
theorem pmulIsDoubleAndAdd : Obligations.PmulIsDoubleAndAdd := by
  unfold Obligations.PmulIsDoubleAndAdd
  refine ⟨fun w h => decode_of_row (o := .pmul) h, fun w h => decode_of_row (o := .pmulG) h,
    fun rd rs1 rs2 s _ => ⟨exec_pdbl rd rs1 s, exec_padd rd rs1 rs2 s⟩, fun rd rs1 rs2 s _ => exec_pmul rd rs1 rs2 s,
    fun rd rs2 s _ => exec_pmulG rd rs2 s, fun q => ⟨pmulF_zero q, pmulF_one q, fun k h0 => ?_⟩⟩
  exact ⟨pmulF_two_mul h0 q, pmulF_two_mul_add_one h0 q⟩

end Sys2Proof.Machine
end

section
/-! Point decompression (42_codec.md R160, R161): PDEC is PDEC_f on the raw x, which undoes the host's compression of a point
of the curve (O46) and decompresses or raises in the order of its checks (O45). -/

namespace Sys2Proof.Machine

theorem exec_pdec (rd rs1 : Reg) (pfx : BitVec 8) (s : State) :
    exec (.pdec rd rs1 pfx) s = .next (pointOutcome s rd (pdecF pfx (rawOperand s.snap rs1))) :=
  exec_of_pointResult rfl

/-! ### The prefix byte -/

theorem compressPrefix_eq (q : Point) : compressPrefix q = BitVec.ofNat 8 (2 + q.y % 2) := by
  rw [compressPrefix]
  rcases Nat.mod_two_eq_zero_or_one q.y with h | h <;> rw [h] <;> rfl

theorem compressPrefix_legal (q : Point) : compressPrefix q = 0x02#8 ∨ compressPrefix q = 0x03#8 := by
  rw [compressPrefix]
  split
  · exact .inr rfl
  · exact .inl rfl

/-- The prefix a host forms asks for the parity of y (42_codec.md R161). -/
theorem compressPrefix_parity (q : Point) : (compressPrefix q).toNat - 2 = q.y % 2 := by
  rw [compressPrefix_eq]
  rcases Nat.mod_two_eq_zero_or_one q.y with h | h <;> rw [h] <;> rfl

/-! ### PDEC undoes compression -/

/-- The root PDEC_f picks has the parity of y, and a root of given parity is unique. -/
theorem pdecF_compressPrefix {q : Point} (hq : onCurve q = true) : pdecF (compressPrefix q) q.x = .ok q := by
  obtain ⟨hx, hy, hroot, -⟩ := root_of_onCurve hq
  obtain ⟨y, -, hlt, hyroot, hpar, hdec⟩ := (pdecF_spec (compressPrefix_legal q) hx).2 ⟨_, hroot⟩
  rw [hdec, root_unique hlt hy hyroot hroot (hpar.trans (compressPrefix_parity q))]

/-- Settles O46: PDEC_f gives the compressed point back. -/
theorem pdecOfTheCompressedPointIsThePoint : Obligations.PdecOfTheCompressedPointIsThePoint := by
  unfold Obligations.PdecOfTheCompressedPointIsThePoint
  intro q rd rs1 s hq _ hx
  refine ⟨compressPrefix_eq q, ?_⟩
  rw [exec_pdec, rawOperand, hx, pdecF_compressPrefix hq]; rfl

/-! ### PDEC's checks in order -/

theorem pdecF_of_bad_prefix {pfx : BitVec 8} (h : pfx ≠ 0x02#8 ∧ pfx ≠ 0x03#8) (x : Nat) :
    pdecF pfx x = .error .malformedEncoding := if_pos h

theorem pdecF_of_x_ge {pfx : BitVec 8} {x : Nat} (hp : pfx = 0x02#8 ∨ pfx = 0x03#8) (hx : Config.p ≤ x) :
    pdecF pfx x = .error .malformedEncoding := by
  have hlegal : ¬(pfx ≠ 0x02#8 ∧ pfx ≠ 0x03#8) := fun ⟨h2, h3⟩ => hp.elim h2 h3
  rw [pdecF, if_neg hlegal, if_pos hx]

/-- Settles O45: the two checks raise as they stand; past them x³ + 7 has a root of the parity asked for or no root, and that
root is unique and on the curve. -/
theorem pdecDecompressesOrRaises : Obligations.PdecDecompressesOrRaises := by
  unfold Obligations.PdecDecompressesOrRaises
  refine ⟨fun w h => decode_of_row (o := .pdec) h, ?_⟩
  intro rd rs1 pfx s _ x c
  have hexec : exec (.pdec rd rs1 pfx) s = .next (pointOutcome s rd (pdecF pfx x)) := exec_pdec rd rs1 pfx s
  refine ⟨fun hp => ?_, fun hp hx => ?_, fun hp hx hno => ?_, fun hp hx hroot => ?_⟩
  · rw [hexec, pdecF_of_bad_prefix hp]; rfl
  · rw [hexec, pdecF_of_x_ge hp hx]; rfl
  · rw [hexec, (pdecF_spec hp hx).1 hno]; rfl
  · obtain ⟨y, hpos, hlt, hy, hpar, hdec⟩ := (pdecF_spec hp hx).2 hroot
    refine ⟨y, hpos, hlt, hy, hpar, fun z hz hzroot hzpar => root_unique hz hlt hzroot hy (hzpar.trans hpar.symm),
      onCurve_of_root hx hlt hy, ?_⟩
    rw [hexec, hdec]; rfl

end Sys2Proof.Machine
end

section
/-! ECDSA (43_ecdsa.md R170 to R174): SIGN and VERIFY are one computation each on the snapshot; on the curve VERIFY's point is the
group's u1·G + u2·Q, of which a negated S makes the negation (O51) and a signature of SIGN the nonce's point (O50). -/

namespace Sys2Proof.Machine

/-! ### What SIGN and VERIFY make of their computations -/

/-- The state after SIGN, by its computation (43_ecdsa.md R170). -/
def signOutcome (s : State) (r : Except ErrCode Signature) : State :=
  match r with
  | .ok sg => okState s (writeReg (writeReg s.d 3 (toValue sg.r)) 4 (toValue sg.s)) false sg.recid 0#4
  | .error c => errState s c

/-- The state after VERIFY of a signature with this R, by its computation (43_ecdsa.md R172). -/
def verifyOutcome (s : State) (r : Nat) (res : Except ErrCode Point) : State :=
  match res with
  | .error c => okState s s.d false 0#2 c.code
  | .ok q => okState s s.d (q.x % Config.n == r) 0#2 0#4

theorem exec_sign (s : State) :
    exec .sign s = .next (signOutcome s (signF (rawOperand s.snap 0) (rawOperand s.snap 1) (rawOperand s.snap 2))) := by
  rw [exec_eq_commit, execResult, signResult]
  cases signF _ _ _ <;> rfl

theorem exec_verify_outcome (s : State) :
    exec .verify s = .next (verifyOutcome s (rawOperand s.snap 3)
      (verifyPoint (rawOperand s.snap 0) (rawOperand s.snap 3) (rawOperand s.snap 4) (pointOperand s.snap 6))) :=
  exec_verify s

/-- R ≥ n never verifies: an x coordinate taken modulo n is below n (43_ecdsa.md R172). -/
theorem verifyOutcome_of_r_ge {r : Nat} (h : Config.n ≤ r) (s : State) (res : Except ErrCode Point) :
    ∃ diag, verifyOutcome s r res = okState s s.d false 0#2 diag := by
  cases res with
  | error c => exact ⟨c.code, rfl⟩
  | ok q =>
    have hne : q.x % Config.n ≠ r := ((Nat.mod_lt _ n_pos).trans_le h).ne
    exact ⟨0#4, by rw [verifyOutcome, beq_false_of_ne hne]⟩

/-- VERIFY sets VALID only where it finds a point, and that point's x coordinate, taken modulo n, is R. -/
theorem verifyOutcome_valid {s : State} {r : Nat} {res : Except ErrCode Point}
    (h : (verifyOutcome s r res).status.valid = true) : ∃ q, res = .ok q ∧ q.x % Config.n = r := by
  cases res with
  | error c => simp [verifyOutcome] at h
  | ok q => exact ⟨q, rfl, by simpa [verifyOutcome] using h⟩

theorem verifyOutcome_of_match {q : Point} {r : Nat} (h : q.x % Config.n = r) (s : State) :
    verifyOutcome s r (.ok q) = okState s s.d true 0#2 0#4 := by
  rw [verifyOutcome, h, beq_self_eq_true]

/-! ### The steps of VERIFY that fail on any public key -/

theorem verifyPoint_of_s_zero {S : Nat} (h : S % Config.n = 0) (d r : Nat) (q : Point) :
    verifyPoint d r S q = .error .notInvertible := if_pos h

theorem mul_mod_n_of_zero {a : Nat} (h : a % Config.n = 0) (w : Nat) : a * w % Config.n = 0 := by
  rw [Nat.mul_mod, h, Nat.zero_mul, Nat.zero_mod]

/-- d ≡ 0 makes u1 = 0 (43_ecdsa.md R172). -/
theorem verifyPoint_of_d_zero {d S : Nat} (hS : S % Config.n ≠ 0) (hd : d % Config.n = 0) (r : Nat) (q : Point) :
    verifyPoint d r S q = .error .zeroScalar := by
  obtain ⟨w, hw, hinv⟩ := exists_inverse hS
  rw [verifyPoint_eq hS hw hinv, mul_mod_n_of_zero hd, pmulF_zero]; rfl

/-- R ≡ 0 makes u2 = 0, and u1·G comes before it and raises nothing (43_ecdsa.md R172). -/
theorem verifyPoint_of_r_zero {d r S : Nat} (hS : S % Config.n ≠ 0) (hr : r % Config.n = 0) (hd : d % Config.n ≠ 0) (q : Point) :
    verifyPoint d r S q = .error .zeroScalar := by
  obtain ⟨w, hw, hinv⟩ := exists_inverse hS
  have hu1 : d * w % Config.n % Config.n ≠ 0 := by
    rw [Nat.mod_mod]; exact mul_ne_zero_n hd S hinv
  obtain ⟨a, ha⟩ := pmulF_generator hu1 (Nat.mod_lt _ n_pos)
  rw [verifyPoint_eq hS hw hinv, ha, mul_mod_n_of_zero hr, pmulF_zero]; rfl

/-! ### VERIFY on a public key of the curve -/

/-- Settles O49: on the curve the three point computations are the group's. -/
theorem verifyOnTheCurveChecksTheEquation : Obligations.VerifyOnTheCurveChecksTheEquation := by
  unfold Obligations.VerifyOnTheCurveChecksTheEquation
  intro _ s G Q w hG (hQ : Rep (pointOperand s.snap 6) Q) hw (hinv : rawOperand s.snap 4 % Config.n * w % Config.n = 1) d r P
    hd hr
  have hexec : exec .verify s =
      .next (verifyOutcome s r (verifyPoint d r (rawOperand s.snap 4) (pointOperand s.snap 6))) := exec_verify_outcome s
  obtain ⟨hinf, hsum⟩ := verify_onCurve hG hQ hw hinv hd hr
  refine ⟨fun h => ?_, fun h => ?_⟩
  · rw [hexec, hinf h]; rfl
  · obtain ⟨c, hc, hrep⟩ := hsum h
    refine ⟨c, hrep, ?_⟩
    rw [hexec, hc]; rfl

/-! ### A negated S -/

/-- The inverse of −S modulo n is the negation of the inverse of S. -/
theorem neg_mul_neg_inverse {S S' w : Nat} (hsum : (S' + S) % Config.n = 0) (hw : w ≤ Config.n)
    (hinv : S % Config.n * w % Config.n = 1) : S' % Config.n * (Config.n - w) % Config.n = 1 := by
  have hneg : (S' : ZMod Config.n) = -S := by
    rw [← add_eq_zero_iff_eq_neg, ← Nat.cast_add, ZMod.natCast_eq_zero_iff]
    exact Nat.dvd_of_mod_eq_zero hsum
  have hone : (S : ZMod Config.n) * w = 1 := by
    rw [← Nat.cast_mul, ← Nat.cast_one, ZMod.natCast_eq_natCast_iff, Nat.ModEq, ← Nat.mod_mul_mod, hinv,
      Nat.mod_eq_of_lt one_lt_n]
  have : ((S' * (Config.n - w) : Nat) : ZMod Config.n) = (1 : Nat) := by
    rw [Nat.cast_mul, Nat.cast_sub hw, ZMod.natCast_self, hneg, zero_sub, neg_mul_neg, hone, Nat.cast_one]
  rw [ZMod.natCast_eq_natCast_iff, Nat.ModEq, Nat.mod_eq_of_lt one_lt_n] at this
  rw [Nat.mod_mul_mod, this]

/-- A scalar whose second factor is negated modulo n gives the negated multiple. -/
theorem mul_sub_smul [Fact (Nat.Prime Config.p)] {w : Nat} (hw : w ≤ Config.n) (a : Nat) (P : secp256k1.Point) :
    (a * (Config.n - w) % Config.n) • P = -((a * w % Config.n) • P) := by
  rw [mod_n_smul, mod_n_smul, eq_neg_iff_add_eq_zero, ← add_smul, ← mul_add, Nat.sub_add_cancel hw, mul_smul, n_smul,
    nsmul_zero]

/-- With −S for S both scalars are negated, so VERIFY finds the negated point. -/
theorem verifyPoint_neg {d r S S' : Nat} {q c : Point} (hq : onCurve q = true) (hc : verifyPoint d r S q = .ok c)
    (hsum : (S' + S) % Config.n = 0) : verifyPoint d r S' q = .ok (pnegF c) := by
  have : Fact (Nat.Prime Config.p) := ⟨p_prime⟩
  obtain ⟨G, hG⟩ := exists_rep generator_onCurve
  obtain ⟨Q, hQ⟩ := exists_rep hq
  obtain ⟨hS, hd, hr⟩ := verifyPoint_ok hc
  obtain ⟨w, hw, hinv⟩ := exists_inverse hS
  have hw0 : w ≠ 0 := by rintro rfl; simp at hinv
  have hw' : Config.n - w < Config.n := by omega
  obtain ⟨hinf, hrep⟩ := verify_onCurve hG hQ hw hinv hd hr
  obtain ⟨-, hrep'⟩ := verify_onCurve hG hQ hw' (neg_mul_neg_inverse hsum hw.le hinv) hd hr
  rw [mul_sub_smul hw.le, mul_sub_smul hw.le, ← neg_add] at hrep'
  have hP : (d * w % Config.n) • G + (r * w % Config.n) • Q ≠ 0 := by
    intro h0; rw [hinf h0] at hc; simp at hc
  obtain ⟨e, he, heRep⟩ := hrep hP
  obtain rfl : e = c := by rw [he] at hc; exact Except.ok.inj hc
  obtain ⟨c', hc', hcRep'⟩ := hrep' (neg_ne_zero.2 hP)
  rw [hc', hcRep'.unique (pnegF_rep heRep)]

/-- Settles O51: S enters modulo n only, and the negated point has the same x coordinate. -/
theorem negatedSignatureVerifiesToo : Obligations.NegatedSignatureVerifiesToo := by
  unfold Obligations.NegatedSignatureVerifiesToo
  intro u v t (hq : onCurve (pointOperand u.snap 6) = true) hu hvalid hregs
    (hS : (rawOperand v.snap 4 + rawOperand u.snap 4) % Config.n = 0 ∨
      rawOperand v.snap 4 % Config.n = rawOperand u.snap 4 % Config.n)
  have hraw : ∀ i : Reg, i ≠ 4 → rawOperand v.snap i = rawOperand u.snap i := fun i hi => congrArg BitVec.toNat (hregs i hi)
  have hkey : pointOperand v.snap 6 = pointOperand u.snap 6 := by
    rw [pointOperand, pointOperand, hraw 6 (by decide), hraw (pairY 6) (by decide)]
  rw [exec_verify_outcome, Host.Outcome.next.injEq] at hu
  subst hu
  obtain ⟨c, hc, hx⟩ := verifyOutcome_valid hvalid
  rw [exec_verify_outcome, hraw 0 (by decide), hraw 3 (by decide), hkey]
  rcases hS with hneg | hsame
  · have hpoint := verifyPoint_neg hq hc hneg
    rw [hpoint, verifyOutcome_of_match (q := pnegF c) hx]
  · rw [verifyPoint_congr hsame, hc, verifyOutcome_of_match hx]

/-! ### SIGN -/

theorem signF_of_bad_key {k : Nat} (hk : ¬(1 ≤ k ∧ k ≤ Config.n - 1)) (d t : Nat) : signF d k t = .error .noPrivateKey :=
  if_pos hk

theorem signF_of_zero_nonce {k t : Nat} (hk : 1 ≤ k ∧ k ≤ Config.n - 1) (ht : t % Config.n = 0) (d : Nat) :
    signF d k t = .error .zeroScalar := by
  rw [signF, if_neg (not_not.2 hk)]
  exact if_pos ht

/-- Past its checks SIGN finds the nonce's point and solves for S (43_ecdsa.md R170). -/
theorem signF_spec [Fact (Nat.Prime Config.p)] {G : secp256k1.Point} (hG : Rep generator G) {k t : Nat}
    (hk : 1 ≤ k ∧ k ≤ Config.n - 1) (ht : t % Config.n ≠ 0) (d : Nat) :
    ∃ q S, Rep q ((t % Config.n) • G) ∧ S < Config.n ∧
      t % Config.n * S % Config.n = (d + k * (q.x % Config.n)) % Config.n ∧
      signF d k t = .ok { r := q.x % Config.n, s := S, recid := recoveryId q } := by
  have hlt : t % Config.n < Config.n := Nat.mod_lt _ n_pos
  have hgcd : Nat.gcd (t % Config.n) Config.n = 1 := gcd_modulus (m := .n) ht hlt
  obtain ⟨q, hq, hrep⟩ := pmulF_affine hG ht hlt
  refine ⟨q, invMod Config.n (t % Config.n) * (d + k * (q.x % Config.n)) % Config.n, hrep, Nat.mod_lt _ n_pos, ?_, ?_⟩
  · rw [Nat.mul_mod_mod, ← mul_assoc, Nat.mul_mod, invMod_mul one_lt_n n_lt hgcd, one_mul, Nat.mod_mod]
  · rw [signF, if_neg (not_not.2 hk)]
    dsimp only
    rw [if_neg ht, hq]

/-- Settles O47: the key is checked first, then the nonce, and past both the nonce's point gives R and RECID and the equation
for S. -/
theorem signComputesTheSignature : Obligations.SignComputesTheSignature := by
  unfold Obligations.SignComputesTheSignature
  refine ⟨fun w h => decode_of_row (o := .sign) h, ?_⟩
  intro _ s d k t
  have hexec : exec .sign s = .next (signOutcome s (signF d k (readReg s.snap 2).toNat)) := exec_sign s
  refine ⟨fun hk => ?_, fun hk ht => ?_, fun hk ht => ?_⟩
  · rw [hexec, signF_of_bad_key hk]; rfl
  · rw [hexec, signF_of_zero_nonce hk ht]; rfl
  · obtain ⟨G, hG⟩ := exists_rep generator_onCurve
    obtain ⟨q, S, hrep, hlt, hS, hsign⟩ := signF_spec hG hk ht d
    refine ⟨G, q, S, hG, hrep, hlt, hS, ?_⟩
    rw [hexec, hsign]; rfl

/-- Settles O48: each step of VERIFY's computation is the statement's, with any inverse of S for the computed one, and its first
error goes to DIAG. -/
theorem verifyReportsInValidAndDiag : Obligations.VerifyReportsInValidAndDiag := by
  unfold Obligations.VerifyReportsInValidAndDiag
  refine ⟨fun w h => decode_of_row (o := .verify) h, ?_⟩
  intro s d r s' q
  have hexec : exec .verify s = .next (verifyOutcome s r (verifyPoint d r (readReg s.snap 4).toNat q)) := exec_verify_outcome s
  refine ⟨fun hS => ?_, fun hS => ?_, fun hS hd => ?_, fun hS hr hd => ?_, fun hr => ?_⟩
  · rw [hexec, verifyPoint_of_s_zero hS]; rfl
  · obtain ⟨w, hw, hinv⟩ := exists_inverse hS
    refine ⟨w, hw, hinv, ?_⟩
    rw [hexec, verifyPoint_eq hS hw hinv, generator]
    cases pmulF (d * w % Config.n) { x := Config.gx, y := Config.gy } with
    | error e => rfl
    | ok a =>
      cases pmulF (r * w % Config.n) q with
      | error e => rfl
      | ok b =>
        simp only [Except.bind]
        cases paddF a b <;> rfl
  · rw [hexec, verifyPoint_of_d_zero hS hd]; rfl
  · rw [hexec, verifyPoint_of_r_zero hS hr hd]; rfl
  · obtain ⟨diag, hdiag⟩ := verifyOutcome_of_r_ge hr s (verifyPoint d r (readReg s.snap 4).toNat q)
    exact ⟨diag, by rw [hexec, hdiag]⟩

/-! ### The sign-verify round trip -/

/-- `u1 + u2·k ≡ t'` for a signature of SIGN: the reason of 43_ecdsa.md R174, as a combination of points. -/
theorem signature_combination [Fact (Nat.Prime Config.p)] {d k r S t w : Nat} (G : secp256k1.Point)
    (hsig : t * S % Config.n = (d + k * r) % Config.n) (hinv : S * w % Config.n = 1) :
    (d * w % Config.n) • G + (r * w % Config.n) • k • G = t • G := by
  have hscalar : (d * w + r * w * k) % Config.n = t % Config.n := by
    calc (d * w + r * w * k) % Config.n = (d + k * r) * w % Config.n := by congr 1; ring
      _ = t * S * w % Config.n := by rw [Nat.mul_mod, ← hsig, ← Nat.mul_mod]
      _ = t * (S * w) % Config.n := by rw [mul_assoc]
      _ = t % Config.n := by rw [Nat.mul_mod, hinv, Nat.mul_one, Nat.mod_mod]
  rw [mod_n_smul, mod_n_smul, ← mul_smul, ← add_smul]
  exact smul_congr G hscalar

/-- VERIFY of a signature of SIGN finds the nonce's point again (43_ecdsa.md R174). -/
theorem verifyPoint_of_signature [Fact (Nat.Prime Config.p)] {G : secp256k1.Point} (hG : Rep generator G) {d k r S t : Nat}
    {key q : Point} (hkey : Rep key (k • G)) (hq : Rep q (t • G))
    (hsig : t * S % Config.n = (d + k * r) % Config.n) (hS : S % Config.n ≠ 0) (hd : d % Config.n ≠ 0) (hr : r % Config.n ≠ 0) :
    verifyPoint d r S key = .ok q := by
  obtain ⟨w, hw, hinv⟩ := exists_inverse hS
  obtain ⟨-, hsum⟩ := verify_onCurve hG hkey hw hinv hd hr
  rw [signature_combination G hsig (by rwa [Nat.mod_mul_mod] at hinv)] at hsum
  obtain ⟨c, hc, hrep⟩ := hsum hq.ne_zero
  rw [hc, hrep.unique hq]

/-- A point put into PAIR(RD) is the point operand read from there. -/
theorem pointOperand_pointState {q : Point} (hx : q.x < Config.p) (hy : q.y < Config.p) (s : State) (rd : Reg) :
    pointOperand (pointState s rd q).d rd = q := by
  have hne : rd ≠ pairY rd := by revert rd; decide
  have hxd : rawOperand (pointState s rd q).d rd = q.x := by
    rw [rawOperand, pointState, okState_d, readReg_writeReg_ne _ _ hne, readReg_writeReg_same]
    exact toValue_toNat (hx.trans p_lt)
  have hyd : rawOperand (pointState s rd q).d (pairY rd) = q.y := by
    rw [rawOperand, pointState, okState_d, readReg_writeReg_same]
    exact toValue_toNat (hy.trans p_lt)
  rw [pointOperand, hxd, hyd, Nat.mod_eq_of_lt hx, Nat.mod_eq_of_lt hy]

/-- PUBKEY leaves in PAIR(RD) the key's multiple of the generator. -/
theorem pubkey_state [Fact (Nat.Prime Config.p)] {G : secp256k1.Point} (hG : Rep generator G) {rd rk : Reg} {u u' : State}
    (h1 : 1 ≤ rawOperand u.snap rk) (hn : rawOperand u.snap rk ≤ Config.n - 1) (h : exec (pubkey rd rk) u = .next u') :
    Rep (pointOperand u'.d rd) (rawOperand u.snap rk • G) := by
  have hlt : rawOperand u.snap rk < Config.n := by have := n_pos; omega
  obtain ⟨q, hq, hrep⟩ := pmulF_affine hG (by omega) hlt
  have ⟨hx, hy, _⟩ := hrep
  rw [pubkey, exec_pmulG, hq, Host.Outcome.next.injEq] at h
  rw [← h, pointOutcome, pointOperand_pointState hx hy]
  exact hrep

/-- SIGN leaves R in D3 and S in D4 (43_ecdsa.md R170). -/
theorem sign_state [Fact (Nat.Prime Config.p)] {G : secp256k1.Point} (hG : Rep generator G) {s s' : State}
    (hk : 1 ≤ rawOperand s.snap 1 ∧ rawOperand s.snap 1 ≤ Config.n - 1) (ht : rawOperand s.snap 2 % Config.n ≠ 0)
    (h : exec .sign s = .next s') :
    ∃ q, Rep q ((rawOperand s.snap 2 % Config.n) • G) ∧ rawOperand s'.d 3 = q.x % Config.n ∧ rawOperand s'.d 4 < Config.n ∧
      rawOperand s.snap 2 % Config.n * rawOperand s'.d 4 % Config.n =
        (rawOperand s.snap 0 + rawOperand s.snap 1 * rawOperand s'.d 3) % Config.n := by
  obtain ⟨q, S, hrep, hlt, hS, hsign⟩ := signF_spec hG hk ht (rawOperand s.snap 0)
  rw [exec_sign, hsign, Host.Outcome.next.injEq] at h
  have hd3 : rawOperand s'.d 3 = q.x % Config.n := by
    rw [← h, signOutcome, rawOperand, okState_d, readReg_writeReg_ne _ _ (by decide), readReg_writeReg_same]
    exact toValue_toNat ((Nat.mod_lt _ n_pos).trans n_lt)
  have hd4 : rawOperand s'.d 4 = S := by
    rw [← h, signOutcome, rawOperand, okState_d, readReg_writeReg_same]
    exact toValue_toNat (hlt.trans n_lt)
  rw [hd3, hd4]
  exact ⟨q, hrep, rfl, hlt, hS⟩

/-- With a zero among R, S and d modulo n VERIFY fails, on any public key (43_ecdsa.md R172). -/
theorem verifyPoint_degenerate {d r S : Nat} (h : ¬(r % Config.n ≠ 0 ∧ S % Config.n ≠ 0 ∧ d % Config.n ≠ 0)) (q : Point) :
    ∃ c ∈ [ErrCode.zeroScalar, .notInvertible], verifyPoint d r S q = .error c := by
  by_cases hS : S % Config.n = 0
  · exact ⟨.notInvertible, by simp, verifyPoint_of_s_zero hS d r q⟩
  refine ⟨.zeroScalar, by simp, ?_⟩
  by_cases hd : d % Config.n = 0
  · exact verifyPoint_of_d_zero hS hd r q
  · exact verifyPoint_of_r_zero hS (not_not.1 fun hr => h ⟨hr, hS, hd⟩) hd q

/-- A register that holds a value below n is 0 only where it is 0 modulo n. -/
theorem readReg_ne_zero_iff {d : RegFile} {i : Reg} (h : rawOperand d i < Config.n) :
    readReg d i ≠ 0#256 ↔ rawOperand d i % Config.n ≠ 0 := by
  rw [Nat.mod_eq_of_lt h, ne_eq, ← BitVec.toNat_inj]; rfl

/-- Settles O50: VERIFY reads the signature and the key where SIGN and PUBKEY left them, finds the nonce's point again, and
fails where R, S or d is 0. -/
theorem verifyAcceptsWhatSignGives : Obligations.VerifyAcceptsWhatSignGives := by
  unfold Obligations.VerifyAcceptsWhatSignGives
  intro s u v s' u' d k t h1 hn ht hsign hk hpub hv0 hv3 hv4 hv6 hv7 good
  have : Fact (Nat.Prime Config.p) := ⟨p_prime⟩
  obtain ⟨G, hG⟩ := exists_rep generator_onCurve
  obtain ⟨q, hq, hr, hS, hsig⟩ := sign_state hG ⟨h1, hn⟩ ht hsign
  have hku : rawOperand u.snap 1 = k := congrArg BitVec.toNat hk
  have hkey : Rep (pointOperand u'.d 6) (k • G) := by
    rw [← hku] at h1 hn ⊢
    exact pubkey_state hG h1 hn hpub
  have hexec : exec .verify v = .next (verifyOutcome v (rawOperand s'.d 3)
      (verifyPoint d.toNat (rawOperand s'.d 3) (rawOperand s'.d 4) (pointOperand u'.d 6))) := by
    have hpair : pairY 6 = 7 := rfl
    simp only [exec_verify_outcome, pointOperand, rawOperand, hpair, hv0, hv3, hv4, hv6, hv7]
  have hgood : good ↔ rawOperand s'.d 3 % Config.n ≠ 0 ∧ rawOperand s'.d 4 % Config.n ≠ 0 ∧ d.toNat % Config.n ≠ 0 :=
    and_congr (readReg_ne_zero_iff (hr ▸ Nat.mod_lt _ n_pos)) (and_congr_left' (readReg_ne_zero_iff hS))
  rw [hgood]
  refine ⟨fun ⟨hr0, hS0, hd0⟩ => ?_, fun hbad => ?_⟩
  · have hpoint : verifyPoint d.toNat _ _ _ = .ok q := verifyPoint_of_signature hG hkey hq hsig hS0 hd0 hr0
    rw [hexec, hpoint, verifyOutcome_of_match hr.symm]
  · obtain ⟨c, hc, hpoint⟩ := verifyPoint_degenerate hbad (pointOperand u'.d 6)
    refine ⟨c, hc, ?_⟩
    rw [hexec, hpoint]; rfl

end Sys2Proof.Machine
end

section
/-! Exceptions, completion and the interrupt (60_exceptions.md R190 to R206): a running command completes with the same
outcome whatever the host does meanwhile; what a completion writes and leaves; irq; a loss of power. -/

namespace Sys2Proof.Machine

/-! ### What the host does while a command runs (R193) -/

/-- `s` after transactions of the host while a command runs: IE, WERR, the read data and the inputs to come may differ. -/
def State.disturbed (s : State) (ie werr : Bool) (rd : Option Word) (ev : List Event) : State :=
  { s with ie := ie, rdata := rd, status := { s.status with werr := werr }, events := ev }

theorem Inv.disturbed {s : State} (hi : Inv s) (hp : s.phase = .running) (ie werr : Bool) (rd : Option Word)
    (ev : List Event) : Inv (s.disturbed ie werr rd ev) := inv_of_changes hi hp ie rd werr ev

/-- A running block is out of reset. -/
theorem Inv.rstN_of_running {s : State} (hi : Inv s) (hp : s.phase = .running) : s.rstN = true := by
  by_contra hr
  obtain ⟨-, -, -, -, hidle⟩ := hi.in_reset (by simpa using hr)
  simp [hp] at hidle

/-- The engine's turn with a command in flight executes that command on the state past that input. -/
theorem step_engine_running {s : State} {i : Instr} {rest : List Event} (hr : s.rstN = true) (hp : s.phase = .running)
    (hd : decode s.pending = .ok i) (he : s.events = .engine :: rest) : step s = exec i (s.afterInput rest) :=
  (step_engine he).trans (engineTurn_running (s := s.afterInput rest) hr hp hd)

/-- Any number of bus transactions while a command runs. -/
theorem runs_bus_running (es rest : List Event) : ∀ s : State, Inv s → s.phase = .running →
    (∀ e ∈ es, e.isBus = true) → s.events = es ++ rest →
    ∃ ie werr rd, Runs es.length s (s.disturbed ie werr rd rest) := by
  induction es with
  | nil =>
    intro s _ _ _ he
    have hs : s = s.disturbed s.ie s.status.werr s.rdata rest := by rw [State.disturbed, ← List.nil_append rest, ← he]
    exact ⟨_, _, _, (Runs_zero _ _).2 hs⟩
  | cons e es ih =>
    intro s hi hp hbus he
    obtain ⟨hb, hbs⟩ := List.forall_mem_cons.1 hbus
    obtain ⟨ie, rd, werr, hstep⟩ := bus_step_running hi hp hb he
    obtain ⟨ie', werr', rd', hrun⟩ :=
      ih (s.disturbed ie werr rd (es ++ rest)) (hi.disturbed hp ie werr rd _) hp hbs rfl
    exact ⟨ie', werr', rd', (Runs_succ hstep).2 hrun⟩

/-- The engine's turn completes the command in flight, whatever the host has done before it. -/
theorem step_disturbed_engine {s : State} {i : Instr} (hr : s.rstN = true) (hp : s.phase = .running)
    (hd : decode s.pending = .ok i) (ie werr : Bool) (rd : Option Word) (rest : List Event) :
    step (s.disturbed ie werr rd (.engine :: rest)) =
      .next (commit (execResult i s.snap) (s.disturbed ie werr none rest)) :=
  (step_engine_running (s := s.disturbed ie werr rd (.engine :: rest)) hr hp hd rfl).trans (exec_eq_commit i _)

/-- A completion passes on IE, WERR, the read data and the inputs to come, and computes the rest without them. -/
theorem commit_disturbed (r : ExecResult) (s : State) (ie werr : Bool) (rd : Option Word) (ev : List Event) :
    commit r (s.disturbed ie werr rd ev) = (commit r s).disturbed ie werr rd ev := by cases r <;> rfl

/-- Settles O29: the transactions leave a disturbed state, from which the engine's turn makes what it makes of `s`. -/
theorem outcomeIgnoresBusActivity : Obligations.OutcomeIgnoresBusActivity := by
  unfold Obligations.OutcomeIgnoresBusActivity
  intro s es hi hp hbus
  have hr := hi.rstN_of_running hp
  obtain ⟨i, hd⟩ := decode_of_legal (hi.pending_legal hp)
  have hi' : Inv { s with events := es ++ [.engine] } := hi.disturbed hp s.ie s.status.werr s.rdata _
  obtain ⟨ie, werr, rd, hrun⟩ := runs_bus_running es [.engine] _ hi' hp hbus rfl
  have hstep := step_disturbed_engine hr hp hd ie werr rd []
  have hstep0 := step_disturbed_engine hr hp hd s.ie s.status.werr s.rdata []
  rw [commit_disturbed] at hstep hstep0
  have hidle : (commit (execResult i s.snap) s).phase = .idle := commit_phase _ _
  exact ⟨_, _, hrun.step hstep, (Runs_succ hstep0).2 ((Runs_zero _ _).2 rfl), rfl, rfl, rfl, hidle, hidle⟩

/-! ### Completion (R191 to R193) -/

/-- Settles O23: past the input that gives it, the engine's turn is the execution of the command in flight. -/
theorem engineStepRunsTheDecodedCommand : Obligations.EngineStepRunsTheDecodedCommand := by
  unfold Obligations.EngineStepRunsTheDecodedCommand
  intro s i hr hp hd
  refine ⟨fun rest he => step_engine_running hr hp hd he, fun he => ?_⟩
  have hpast : s.afterInput [] = { s with rdata := none } := by rw [State.afterInput, ← he]
  rw [step_nil he, hpast]
  exact engineTurn_running hr hp hd

/-- Settles O25: the one function is `execResult`. -/
theorem completionIsAFunctionOfCommandAndSnapshot : Obligations.CompletionIsAFunctionOfCommandAndSnapshot := by
  unfold Obligations.CompletionIsAFunctionOfCommandAndSnapshot
  refine ⟨execResult, fun i s => ?_⟩
  have hexec := exec_eq_commit i s
  cases hres : execResult i s.snap with
  | ok e => exact ⟨execResult_ok hres, by rw [hexec, hres, commit_ok_eq_okState]⟩
  | error c => exact ⟨execResult_error hres, by rw [hexec, hres, commit_error_eq_errState]⟩

/-- Settles O26: an error writes its code and no register; without an error ERRCODE stays as acceptance left it. -/
theorem failedCommandWritesNoRegister : Obligations.FailedCommandWritesNoRegister := by
  unfold Obligations.FailedCommandWritesNoRegister
  refine ⟨rfl, fun i s herr hcode => ⟨_, exec_eq_commit i s, ?_⟩⟩
  cases hres : execResult i s.snap with
  | ok e => exact ⟨fun h => absurd (herr.symm.trans h) Bool.false_ne_true, fun _ => hcode⟩
  | error c => exact ⟨fun _ => ⟨rfl, c, execResult_error hres, rfl⟩, fun h => absurd h.symm Bool.false_ne_true⟩

/-- The seven commands of R192 have no row in the table of R191. -/
theorem mayRaise_eq_nil {i : Instr} (h : i.op ∈ [Op.fadd, .fsub, .fmul, .mmul, .fpow, .pneg, .verify]) :
    mayRaise i = [] := by
  cases i with
  | fadd | fsub | fmul | mmul | fpow | pneg | verify => rfl
  | _ => exact absurd h (by simp [Instr.op])

/-- Settles O27: a command that may raise no code completes without error. -/
theorem sevenCommandsNeverRaise : Obligations.SevenCommandsNeverRaise := by
  unfold Obligations.SevenCommandsNeverRaise
  intro i s hop
  refine ⟨_, exec_eq_commit i s, ?_⟩
  cases hres : execResult i s.snap with
  | ok e => exact ⟨rfl, rfl, rfl, rfl⟩
  | error c =>
    have hraise := execResult_error hres
    simp [mayRaise_eq_nil hop] at hraise

/-- A register that is no destination of the command keeps its value when it completes. -/
theorem readReg_completion {i : Instr} {r : Reg} (hr : r ∉ dests i) (s : State) :
    readReg (commit (execResult i s.snap) s).d r = readReg s.d r := by
  cases hres : execResult i s.snap with
  | ok e => exact not_not.1 (mt (mem_dests_of_readReg_ne hres) hr)
  | error c => rfl

/-- A word of the window depends on IE, on CMD, on STATUS at the address of STATUS, and on the register it is a word of. -/
theorem busRead_frame {s t : State} {a : WordAddr} (hie : t.ie = s.ie) (hcmd : t.cmd = s.cmd) (ha : a ≠ statusAddr)
    (hd : ∀ r w, a = dataAddr r w → readReg t.d r = readReg s.d r) : busRead t a = busRead s a := by
  unfold busRead ctrlWord
  cases hl : locate a with
  | status => exact absurd (addr_of_status hl) ha
  | data r w => exact congrArg (getWord · w) (hd r w (addr_of_data hl))
  | ctrl => simp only [hie]
  | cmd => exact hcmd
  | id | rom | reserved => rfl

/-- Settles O28: the fields a completion leaves, the registers that are no destinations, and the words made of these. -/
theorem commandsChangeOnlyStatusAndDestinations : Obligations.CommandsChangeOnlyStatusAndDestinations := by
  unfold Obligations.CommandsChangeOnlyStatusAndDestinations
  intro i s
  refine ⟨_, exec_eq_commit i s, commit_busy .., commit_done .., commit_phase .., commit_ie .., commit_cmd ..,
    commit_werr .., commit_pending .., commit_snap .., commit_rstN .., commit_rdata .., commit_events ..,
    fun r hr => readReg_completion hr s, fun a ha hdest => ?_⟩
  refine busRead_frame (commit_ie ..) (commit_cmd ..) ha fun r w haddr => readReg_completion (fun hr => ?_) s
  exact hdest r hr w haddr

/-! ### The interrupt output (R196, R197) -/

/-- A write that is the next input and is taken is what the step does. -/
theorem eq_busWrite_of_writesNext {s t : State} {a : WordAddr} {v : Word} (hw : writesNext s a v)
    (h : step s = .next t) : t = busWrite a v (s.afterInput s.events.tail) := by
  obtain ⟨hr, he⟩ := hw
  rw [step_write_taken hr (List.eq_cons_of_mem_head? he), Host.Outcome.next.injEq] at h
  exact h.symm

@[simp] theorem zeroize_done (s : State) : (zeroize s).status.done = s.status.done := by
  unfold zeroize; split <;> rfl

/-- A write to CTRL keeps DONE (10_state.md R24). -/
@[simp] theorem writeCtrl_done (v : Word) (s : State) : (writeCtrl v s).status.done = s.status.done := by
  unfold writeCtrl; dsimp only; split <;> simp

/-- IE is set by nothing but a write to CTRL (10_state.md R24). -/
theorem StepCase.ie_set {s t : State} (h : StepCase s t) (h0 : s.ie = false) (h1 : t.ie = true) :
    ∃ v, writesNext s ctrlAddr v ∧ v.getLsbD 0 = true := by
  cases h with
  | ctrl rest v hw hz => exact ⟨v, hw, h1⟩
  | zeroize rest v hw hz hb => exact ⟨v, hw, h1⟩
  | refused rest a v ie hw hb ha =>
    obtain ⟨-, hie⟩ | ⟨rfl, -, hie⟩ := ha
    · exact absurd (h0.symm.trans (hie.symm.trans h1)) Bool.false_ne_true
    · exact ⟨v, hw, hie.symm.trans h1⟩
  | resets rest rn hr => exact absurd h1 Bool.false_ne_true
  | _ => exact absurd (h0.symm.trans h1) Bool.false_ne_true

/-- IE is cleared by nothing but a write to CTRL or a reset (10_state.md R24). -/
theorem StepCase.ie_cleared {s t : State} (h : StepCase s t) (h0 : s.ie = true) (h1 : t.ie = false) :
    (∃ v, writesNext s ctrlAddr v ∧ v.getLsbD 0 = false) ∨ resetsNext s := by
  cases h with
  | ctrl rest v hw hz => exact .inl ⟨v, hw, h1⟩
  | zeroize rest v hw hz hb => exact .inl ⟨v, hw, h1⟩
  | refused rest a v ie hw hb ha =>
    obtain ⟨-, hie⟩ | ⟨rfl, -, hie⟩ := ha
    · exact absurd (h1.symm.trans (hie.trans h0)) Bool.false_ne_true
    · exact .inl ⟨v, hw, hie.symm.trans h1⟩
  | resets rest rn hr => exact .inr hr
  | _ => exact absurd (h1.symm.trans h0) Bool.false_ne_true

theorem irq_iff (s : State) : s.irq = true ↔ s.ie = true ∧ s.status.done = true := Bool.and_eq_true_iff

theorem irq_of_done {s : State} (h : s.status.done = true) : s.irq = s.ie := by rw [State.irq, h, Bool.and_true]

theorem irq_of_not_done {s : State} (h : s.status.done = false) : s.irq = false := by
  rw [State.irq, h, Bool.and_false]

/-- irq rises with DONE, or with IE where DONE is set already (R197). -/
theorem StepCase.irq_rises {s t : State} (h : StepCase s t) (h0 : s.irq = false) (h1 : t.irq = true) :
    completesNext s = true ∨ (∃ w, acceptsNext s w ∧ legal w = false) ∨
      ∃ v, writesNext s ctrlAddr v ∧ v.getLsbD 0 = true ∧ s.status.done = true := by
  obtain ⟨hie, hdone⟩ := (irq_iff t).1 h1
  cases hs : s.status.done with
  | false => exact (h.done_set hs hdone).imp_right .inl
  | true =>
    obtain ⟨v, hw, hv⟩ := h.ie_set ((irq_of_done hs).symm.trans h0) hie
    exact .inr (.inr ⟨v, hw, hv, rfl⟩)

/-- irq falls with DONE or with IE (R197). -/
theorem StepCase.irq_falls {s t : State} (h : StepCase s t) (h0 : s.irq = true) (h1 : t.irq = false) :
    (∃ v, writesNext s statusAddr v ∧ v.getLsbD 1 = true) ∨ (∃ w, acceptsNext s w) ∨
      (∃ v, writesNext s ctrlAddr v ∧ v.getLsbD 0 = false) ∨ resetsNext s := by
  obtain ⟨hie, hdone⟩ := (irq_iff s).1 h0
  cases ht : t.status.done with
  | false => exact (h.done_cleared hdone ht).imp_right (.imp_right .inr)
  | true => exact .inr (.inr (h.ie_cleared hie ((irq_of_done ht).symm.trans h1)))

/-- Settles O20: the writes that move irq, each by its equation; then that nothing else does, by the cases of a step. -/
theorem irqFollowsIeAndDone : Obligations.IrqFollowsIeAndDone := by
  unfold Obligations.IrqFollowsIeAndDone
  refine ⟨irq_iff, fun i s => ?_, fun s t h => ⟨fun w hw hl => ?_, fun w hw hl => ?_, fun v hw hv => ?_,
    fun v hw => ?_, (stepCase_of_step h).irq_rises, (stepCase_of_step h).irq_falls⟩⟩
  · exact ⟨_, exec_eq_commit i s, (irq_of_done (commit_done ..)).trans (commit_ie ..)⟩
  · obtain rfl := eq_busWrite_of_writesNext hw.1 h
    rw [busWrite_cmd, acceptCommand_illegal (s.afterInput _) hw.2 hl]
    exact irq_of_done rfl
  · obtain rfl := eq_busWrite_of_writesNext hw.1 h
    rw [busWrite_cmd, acceptCommand_legal (s.afterInput _) hw.2 hl]
    exact ⟨rfl, irq_of_not_done rfl⟩
  · obtain rfl := eq_busWrite_of_writesNext hw h
    have hdone : (s.status.w1c v).done = false := by simp [hv]
    exact ⟨hdone, irq_of_not_done hdone⟩
  · obtain rfl := eq_busWrite_of_writesNext hw h
    rw [busWrite_ctrl]
    refine ⟨writeCtrl_ie .., writeCtrl_done .., fun hv => ?_, fun hv hdone => ?_⟩
    · rw [State.irq, writeCtrl_ie, hv, Bool.false_and]
    · have hdone' := (writeCtrl_done v (s.afterInput s.events.tail)).trans hdone
      rw [irq_of_done hdone', writeCtrl_ie, hv]

/-! ### Loss of power (R206) -/

/-- Settles O3: the event resets the registers, whatever the state (log 7, 8). -/
theorem powerLossEndsAsReset : Obligations.PowerLossEndsAsReset := by
  unfold Obligations.PowerLossEndsAsReset
  intro s rest he
  rw [step, he]
  rfl

end Sys2Proof.Machine
end

section
/-! Reset (70_reset_and_hazards.md R220 to R222) and the end of a run (R225, R227): what the pin does, that nothing happens
while it is low, that the block is ready after it, and that a run takes all its inputs and completes its command. -/

namespace Sys2Proof.Machine

/-! ### The end of a run (R225, R227) -/

/-- BUSY follows the phase (10_state.md R28). -/
theorem Inv.busy_of_idle {s : State} (hi : Inv s) (hp : s.phase = .idle) : s.status.busy = false := by
  simpa [hp] using hi.busy_iff

/-- With no input left a running command completes (log 2): it is out of reset, so the engine can. -/
theorem Inv.idle_of_last_step {s t : State} (hi : Inv s) (he : s.events = []) (h : step s = .next t) :
    t.phase = .idle := by
  cases hp : s.phase with
  | idle =>
    rw [step_idle hp, he, Host.Outcome.next.injEq] at h
    exact h ▸ hp
  | running =>
    obtain ⟨i, hd⟩ := decode_of_legal (hi.pending_legal hp)
    rw [step_nil he, engineTurn_running (s := s.afterInput []) (hi.rstN_of_running hp) hp hd, exec_eq_commit,
      Host.Outcome.next.injEq] at h
    exact h ▸ commit_phase _ _

/-- A run takes its inputs one by one, from every state of the invariant: no step stops it. -/
theorem runs_all_inputs (evs : List Event) : ∀ s : State, Inv s → s.events = evs →
    ∃ t, Runs evs.length s t ∧ Inv t ∧ t.events = [] := by
  induction evs with
  | nil => exact fun s hi he => ⟨s, (Runs_zero s s).2 rfl, hi, he⟩
  | cons e evs ih =>
    intro s hi he
    obtain ⟨u, hu⟩ := invariantStatesNeverStop s hi
    have heu : u.events = evs := (step_events hu).trans (congrArg List.tail he)
    obtain ⟨t, hrun, hit, het⟩ := ih u (everyStepKeepsInvariant s u hi hu) heu
    exact ⟨t, (Runs_succ hu).2 hrun, hit, het⟩

/-- Settles O55: the inputs are taken by induction on their list, and the step after the last completes the command. -/
theorem programsEndWithNoCommandInFlight : Obligations.ProgramsEndWithNoCommandInFlight := by
  unfold Obligations.ProgramsEndWithNoCommandInFlight
  intro s hi
  obtain ⟨u, hrun, hiu, heu⟩ := runs_all_inputs s.events s hi rfl
  obtain ⟨t, ht⟩ := invariantStatesNeverStop u hiu
  have hit : Inv t := everyStepKeepsInvariant u t hiu ht
  have het : t.events = [] := (step_events ht).trans (congrArg List.tail heu)
  have hidle := hiu.idle_of_last_step heu ht
  exact ⟨t, hrun.step ht, hit, het, hit.busy_of_idle hidle, hidle⟩

/-! ### The reset pin (R220, R221) -/

theorem Status.zero_word : Status.zero.word = 0#32 := rfl

/-- `rst_n` driven low resets every register, whatever the state (R221). -/
theorem step_rst_low {s : State} {rest : List Event} (he : s.events = .rst false :: rest) :
    step s = .next { State.reset with rstN := false, events := rest } := by rw [step, he]; rfl

/-- `rst_n` driven high changes the pin and no register (R220). -/
theorem step_rst_high {s : State} {rest : List Event} (he : s.events = .rst true :: rest) :
    step s = .next { s with events := rest, rdata := none, rstN := true } := by rw [step, he]; rfl

/-- A bus transaction is dropped while `rst_n` is low (R220, log 7). -/
theorem takeInput_bus_low {s : State} {e : Event} (hr : s.rstN = false) (hb : e.isBus = true) : takeInput e s = s := by
  cases e with
  | read | write => simp [takeInput, hr]
  | engine | rst | powerCycle => exact absurd hb Bool.false_ne_true

/-- No command completes while `rst_n` is low (R221). -/
theorem engineTurn_low {s : State} (hr : s.rstN = false) : engineTurn s = .next s := by
  simp [engineTurn, engineEnabled, hr]

/-- Settles O2: the state reached is the reset state with the pin low; it is idle, so the engine finds nothing to complete. -/
theorem resetAbandonsTheCommandInFlight : Obligations.ResetAbandonsTheCommandInFlight := by
  unfold Obligations.ResetAbandonsTheCommandInFlight
  intro s rest he
  refine ⟨_, step_rst_low he, readReg_zeroRegs, rfl, Status.zero_word, rfl, rfl, rfl, rfl, rfl, busRead_congr rfl rfl rfl rfl,
    fun c w => ?_, fun more level => step_idle rfl⟩
  rw [busRead_rom, busRead_rom]

/-- Settles O4: one lemma for each kind of input. -/
theorem nothingHappensWhileResetIsLow : Obligations.NothingHappensWhileResetIsLow := by
  unfold Obligations.NothingHappensWhileResetIsLow
  intro s rest hr
  have hlow : (s.afterInput rest).rstN = false := hr
  refine ⟨fun a he => ?_, fun a v he => ?_, fun he => ?_, step_rst_high⟩
  · rw [step_read he, takeInput_bus_low hlow rfl]; rfl
  · rw [step_write he, takeInput_bus_low hlow rfl]; rfl
  · rw [step_engine he, engineTurn_low hlow]; rfl

/-! ### The block after reset (R222) -/

/-- Settles O5: with IE = 0 no STATUS raises irq; a legal word is the word of a command, which an idle block starts. -/
theorem blockIsReadyAfterReset : Obligations.BlockIsReadyAfterReset := by
  unfold Obligations.BlockIsReadyAfterReset
  refine ⟨rfl, rfl, fun st => Bool.false_and _, fun w rest hl => ?_⟩
  obtain ⟨i, hd⟩ := decode_of_legal hl
  obtain ⟨hwf, rfl⟩ := encodeOfDecodeIsTheWord w i hd
  exact ⟨_, step_accept hwf rfl rfl rfl, rfl, rfl, rfl, rfl, rfl⟩

end Sys2Proof.Machine
end
